-- ==== Sys2Proof/Word.lean ====
section
/-! DEFINITION. The words of the machine (spec/00_scope.md R4, R5). -/

namespace Sys2Proof

/-- One byte of memory or of an instruction (20_memory.md R30). -/
abbrev Byte := BitVec 8

/-- 64 bits: an address, an offset, a general register (10_state.md R10, R12). -/
abbrev Word := BitVec 64

end Sys2Proof
end

