-- ==== Sys2Proof/Machine/Elements.lean ====
section
/-! DEFINITION. The functions on packed values that the instruction pages define, on bit vectors alone. -/

namespace Sys2Proof.Machine

/-! ## Elements (spec/00_scope.md R5, R6) -/

/-- Element `i`, `w` bits wide, of a packed value: `v[w*i + w-1 : w*i]` (00_scope.md R5). -/
def elem {W : Nat} (w : Nat) (v : BitVec W) (i : Nat) : BitVec w := v.extractLsb' (w * i) w

/-- The packed value whose elements 0 to n-1 are `f 0` to `f (n-1)`, and which is zero above (00_scope.md R5). -/
def pack (W : Nat) {w : Nat} (f : Nat → BitVec w) : Nat → BitVec W
  | 0 => 0#W
  | n + 1 => pack W f n ||| ((f n).setWidth W <<< (w * n))

/-- `sat_s16(z)`: `z` clamped to [-32768, 32767] (00_scope.md R6). -/
def satS16 (z : Int) : BitVec 16 :=
  if z > 32767 then 0x7FFF#16 else if z < -32768 then 0x8000#16 else BitVec.ofInt 16 z

/-! ## PEXT (spec/40_pext.md R102) -/

/-- The loop of `pext_N` after the mask bits 0 to m-1: the bits gathered so far and how many they are. -/
def pextLoop {N : Nat} (src mask : BitVec N) : Nat → BitVec N × Nat
  | 0 => (0#N, 0)
  | m + 1 =>
    let r := pextLoop src mask m
    if mask.getLsbD m then ((if src.getLsbD m then r.1 ||| (1#N <<< r.2) else r.1), r.2 + 1) else r

/-- `pext_N(src, mask)`: the bits of `src` where `mask` has a 1, in order, at the low end (40_pext.md R102). -/
def pext {N : Nat} (src mask : BitVec N) : BitVec N := (pextLoop src mask N).1

/-! ## Insertion (spec/46_pinsrb_pinsrd_pinsrq.md R180) -/

/-- `insert_w(D, sel, t)`: `D` with element `sel` replaced (46_pinsrb_pinsrd_pinsrq.md R180). -/
def insertElem {W w : Nat} (v : BitVec W) (sel : Nat) (t : BitVec w) : BitVec W :=
  (v &&& ~~~((BitVec.allOnes w).setWidth W <<< (w * sel))) ||| (t.setWidth W <<< (w * sel))

/-! ## Horizontal forms (spec/43_phadd.md R130, R145, R146; spec/45_phsub.md R160, R175, R176) -/

/-- `hpair(W, w, f, A, B)`: lane by lane of 128 bits (of 64 for W = 64), the pairs of `a` in the low half and the pairs of
`b` in the high half, `f` applied to the lower-numbered element first (43_phadd.md R130). -/
def hpair {W w : Nat} (f : BitVec w → BitVec w → BitVec w) (a b : BitVec W) : BitVec W :=
  let n := min W 128 / w
  let h := n / 2
  pack W (fun j =>
    let lane := n * (j / n)
    let i := j % n
    if i < h then f (elem w a (lane + 2 * i)) (elem w a (lane + 2 * i + 1))
    else f (elem w b (lane + 2 * (i - h))) (elem w b (lane + 2 * (i - h) + 1))) (W / w)

/-- `add_w(x, y)`: the sum modulo 2^w (43_phadd.md R145). -/
def addW {w : Nat} (x y : BitVec w) : BitVec w := BitVec.ofNat w (x.toNat + y.toNat)

/-- `adds_16(x, y)`: the signed sum, saturated (43_phadd.md R146). -/
def addS16 (x y : BitVec 16) : BitVec 16 := satS16 (x.toInt + y.toInt)

/-- `sub_w(x, y)`: the difference modulo 2^w (45_phsub.md R175). -/
def subW {w : Nat} (x y : BitVec w) : BitVec w := BitVec.ofInt w ((x.toNat : Int) - (y.toNat : Int))

/-- `subs_16(x, y)`: the signed difference, saturated (45_phsub.md R176). -/
def subS16 (x y : BitVec 16) : BitVec 16 := satS16 (x.toInt - y.toInt)

/-! ## PHMINPOSUW (spec/44_phminposuw.md R152) -/

/-- The index after comparing words 1 to n: the lowest index wins a tie (44_phminposuw.md R152). -/
def minIndex (v : BitVec 128) : Nat → Nat
  | 0 => 0
  | n + 1 =>
    let idx := minIndex v n
    if (elem 16 v (n + 1)).toNat < (elem 16 v idx).toNat then n + 1 else idx

/-- `minpos(S)`: the least word in bits 15:0, its index in bits 18:16, zero above (44_phminposuw.md R152). -/
def minpos (v : BitVec 128) : BitVec 128 :=
  let idx := minIndex v 7
  (elem 16 v idx).setWidth 128 ||| ((BitVec.ofNat 3 idx).setWidth 128 <<< 16)

/-! ## Multiply and add (spec/48_pmaddubsw.md R200; spec/49_pmaddwd.md R210) -/

/-- One word of `maddubs`: unsigned bytes of `a` times signed bytes of `b`, summed and saturated (48_pmaddubsw.md R200). -/
def maddubsWord {W : Nat} (a b : BitVec W) (i : Nat) : BitVec 16 :=
  satS16 (((elem 8 a (2 * i)).toNat : Int) * (elem 8 b (2 * i)).toInt +
    ((elem 8 a (2 * i + 1)).toNat : Int) * (elem 8 b (2 * i + 1)).toInt)

/-- `maddubs(W, A, B)` (48_pmaddubsw.md R200). -/
def maddubs {W : Nat} (a b : BitVec W) : BitVec W := pack W (maddubsWord a b) (W / 16)

/-- One dword of `maddwd`: the signed products, summed modulo 2^32 (49_pmaddwd.md R210). -/
def maddwdDword {W : Nat} (a b : BitVec W) (i : Nat) : BitVec 32 :=
  BitVec.ofInt 32 ((elem 16 a (2 * i)).toInt * (elem 16 b (2 * i)).toInt +
    (elem 16 a (2 * i + 1)).toInt * (elem 16 b (2 * i + 1)).toInt)

/-- `maddwd(W, A, B)` (49_pmaddwd.md R210). -/
def maddwd {W : Nat} (a b : BitVec W) : BitVec W := pack W (maddwdDword a b) (W / 32)

end Sys2Proof.Machine
end

