-- ==== Sys2Proof/Syntax.lean ====
section
/-! DEFINITION. The instructions: one constructor per row of spec/opcode_table.json (30_encoding.md R71), with the
operands the decoder read and, in `LegEnc` or `VexEnc`, what else the bytes said. -/

namespace Sys2Proof

/-- Segment registers (00_scope.md R3). -/
inductive Seg where
  | es | cs | ss | ds | fs | gs
  deriving DecidableEq, Repr

/-- The four low bits of a REX byte (30_encoding.md R54). -/
structure Rex where
  w : Bool
  r : Bool
  x : Bool
  b : Bool
  deriving DecidableEq, Repr

/-- One byte before the REX or VEX prefix (30_encoding.md R52); `rexIgnored` is a byte 40H to 4FH that another legacy
prefix follows, which is ignored (R54). -/
inductive Prefix where
  | lock
  | repne
  | rep
  | opSize
  | addrSize
  | seg (s : Seg)
  | rexIgnored (r : Rex)
  deriving DecidableEq, Repr

/-- The opcode maps in scope (30_encoding.md R55, R56). -/
inductive OpMap where
  | m0F | m0F38 | m0F3A
  deriving DecidableEq, Repr

/-- Encoding of a legacy form besides its operands: the prefixes in order, the REX byte if there is one, and the
length of the whole instruction in bytes (30_encoding.md R50, R51). -/
structure LegEnc where
  prefixes : List Prefix
  rex : Option Rex
  len : Nat
  deriving DecidableEq, Repr

/-- Encoding of a VEX form besides its operands: the prefixes in order, a REX byte (which makes it #UD, R59), whether
the two-byte form C5 is used (R57), the fields of the VEX prefix with R, X, B and vvvv un-inverted (R56), and the length. -/
structure VexEnc where
  prefixes : List Prefix
  rex : Option Rex
  two : Bool
  r : Bool
  x : Bool
  b : Bool
  w : Bool
  vvvv : BitVec 4
  l : Bool
  len : Nat
  deriving DecidableEq, Repr

/-- A displacement: absent, eight bits, or the full `w` bits of the addressing form (30_encoding.md R63). -/
inductive Disp (w : Nat) where
  | none
  | d8 (d : BitVec 8)
  | full (d : BitVec w)
  deriving DecidableEq, Repr

/-- A memory operand as ModRM, SIB and displacement name it (30_encoding.md R61, R62, R67, R68, R70); register numbers
carry their extension bit. -/
inductive MemOp where
  /-- Base register and displacement, no SIB byte (R67). -/
  | base (b : BitVec 4) (d : Disp 32)
  /-- SIB byte with a base register; index number 4 means no index (R67). -/
  | sib (b idx : BitVec 4) (scale : BitVec 2) (d : Disp 32)
  /-- SIB byte without a base: mod = 00B, base field 101B (R67). -/
  | sibAbs (idx : BitVec 4) (scale : BitVec 2) (d : BitVec 32)
  /-- mod = 00B, rm = 101B: RIP-relative in 64-bit mode, absolute in 32-bit mode (R68). -/
  | abs (d : BitVec 32)
  /-- 16-bit addressing (R70). -/
  | m16 (rm : BitVec 3) (d : Disp 16)
  /-- 16-bit addressing, mod = 00B, rm = 110B: a displacement alone (R70). -/
  | m16abs (d : BitVec 16)
  deriving DecidableEq, Repr

/-- The ModRM:r/m operand: a register numbered by `k` bits (4; 3 for an MMX register, 10_state.md R15) or memory. -/
inductive RM (k : Nat) where
  | reg (n : BitVec k)
  | mem (m : MemOp)
  deriving DecidableEq, Repr

/-- Why the decoder refuses bytes (30_encoding.md R72 "not in scope"; 93_implementation_defined.md U7, U8, U10). -/
inductive DecodeReject where
  /-- The opcode, in its map and with its mandatory prefix, is in no row of R71, or there is no escape byte. -/
  | unknownOpcode
  /-- F2 or F3 on a legacy opcode: another instruction or reserved (R53, U8). -/
  | repeatPrefix
  /-- C4 or C5 in 32-bit mode that is LES or LDS (R58). -/
  | lesLds
  /-- VEX.mmmmm names no map in scope (R56, U10). -/
  | unknownVexMap
  deriving DecidableEq, Repr

/-- The 56 instruction forms, in the order of 30_encoding.md R71. A destination or source in ModRM.reg is a number of
4 bits (3 for an MMX register); `imm` is the imm8 byte, whole. -/
inductive Instr where
  | pextR32 (e : VexEnc) (dst src : BitVec 4) (mask : RM 4)
  | pextR64 (e : VexEnc) (dst src : BitVec 4) (mask : RM 4)
  | pextrb (e : LegEnc) (dst : RM 4) (src : BitVec 4) (imm : Byte)
  | pextrd (e : LegEnc) (dst : RM 4) (src : BitVec 4) (imm : Byte)
  | pextrq (e : LegEnc) (dst : RM 4) (src : BitVec 4) (imm : Byte)
  | vpextrb (e : VexEnc) (dst : RM 4) (src : BitVec 4) (imm : Byte)
  | vpextrd (e : VexEnc) (dst : RM 4) (src : BitVec 4) (imm : Byte)
  | vpextrq (e : VexEnc) (dst : RM 4) (src : BitVec 4) (imm : Byte)
  | pextrwMmx (e : LegEnc) (dst : BitVec 4) (src : RM 3) (imm : Byte)
  | pextrwXmm (e : LegEnc) (dst : BitVec 4) (src : RM 4) (imm : Byte)
  | pextrwStore (e : LegEnc) (dst : RM 4) (src : BitVec 4) (imm : Byte)
  | vpextrw (e : VexEnc) (dst : BitVec 4) (src : RM 4) (imm : Byte)
  | vpextrwStore (e : VexEnc) (dst : RM 4) (src : BitVec 4) (imm : Byte)
  | phaddwMmx (e : LegEnc) (dst : BitVec 3) (src : RM 3)
  | phaddwXmm (e : LegEnc) (dst : BitVec 4) (src : RM 4)
  | phadddMmx (e : LegEnc) (dst : BitVec 3) (src : RM 3)
  | phadddXmm (e : LegEnc) (dst : BitVec 4) (src : RM 4)
  | vphaddwXmm (e : VexEnc) (dst src1 : BitVec 4) (src2 : RM 4)
  | vphadddXmm (e : VexEnc) (dst src1 : BitVec 4) (src2 : RM 4)
  | vphaddwYmm (e : VexEnc) (dst src1 : BitVec 4) (src2 : RM 4)
  | vphadddYmm (e : VexEnc) (dst src1 : BitVec 4) (src2 : RM 4)
  | phaddswMmx (e : LegEnc) (dst : BitVec 3) (src : RM 3)
  | phaddswXmm (e : LegEnc) (dst : BitVec 4) (src : RM 4)
  | vphaddswXmm (e : VexEnc) (dst src1 : BitVec 4) (src2 : RM 4)
  | vphaddswYmm (e : VexEnc) (dst src1 : BitVec 4) (src2 : RM 4)
  | phminposuw (e : LegEnc) (dst : BitVec 4) (src : RM 4)
  | vphminposuw (e : VexEnc) (dst : BitVec 4) (src : RM 4)
  | phsubwMmx (e : LegEnc) (dst : BitVec 3) (src : RM 3)
  | phsubwXmm (e : LegEnc) (dst : BitVec 4) (src : RM 4)
  | phsubdMmx (e : LegEnc) (dst : BitVec 3) (src : RM 3)
  | phsubdXmm (e : LegEnc) (dst : BitVec 4) (src : RM 4)
  | vphsubwXmm (e : VexEnc) (dst src1 : BitVec 4) (src2 : RM 4)
  | vphsubdXmm (e : VexEnc) (dst src1 : BitVec 4) (src2 : RM 4)
  | vphsubwYmm (e : VexEnc) (dst src1 : BitVec 4) (src2 : RM 4)
  | vphsubdYmm (e : VexEnc) (dst src1 : BitVec 4) (src2 : RM 4)
  | phsubswMmx (e : LegEnc) (dst : BitVec 3) (src : RM 3)
  | phsubswXmm (e : LegEnc) (dst : BitVec 4) (src : RM 4)
  | vphsubswXmm (e : VexEnc) (dst src1 : BitVec 4) (src2 : RM 4)
  | vphsubswYmm (e : VexEnc) (dst src1 : BitVec 4) (src2 : RM 4)
  | pinsrb (e : LegEnc) (dst : BitVec 4) (src : RM 4) (imm : Byte)
  | pinsrd (e : LegEnc) (dst : BitVec 4) (src : RM 4) (imm : Byte)
  | pinsrq (e : LegEnc) (dst : BitVec 4) (src : RM 4) (imm : Byte)
  | vpinsrb (e : VexEnc) (dst src1 : BitVec 4) (src2 : RM 4) (imm : Byte)
  | vpinsrd (e : VexEnc) (dst src1 : BitVec 4) (src2 : RM 4) (imm : Byte)
  | vpinsrq (e : VexEnc) (dst src1 : BitVec 4) (src2 : RM 4) (imm : Byte)
  | pinsrwMmx (e : LegEnc) (dst : BitVec 3) (src : RM 4) (imm : Byte)
  | pinsrwXmm (e : LegEnc) (dst : BitVec 4) (src : RM 4) (imm : Byte)
  | vpinsrw (e : VexEnc) (dst src1 : BitVec 4) (src2 : RM 4) (imm : Byte)
  | pmaddubswMmx (e : LegEnc) (dst : BitVec 3) (src : RM 3)
  | pmaddubswXmm (e : LegEnc) (dst : BitVec 4) (src : RM 4)
  | vpmaddubswXmm (e : VexEnc) (dst src1 : BitVec 4) (src2 : RM 4)
  | vpmaddubswYmm (e : VexEnc) (dst src1 : BitVec 4) (src2 : RM 4)
  | pmaddwdMmx (e : LegEnc) (dst : BitVec 3) (src : RM 3)
  | pmaddwdXmm (e : LegEnc) (dst : BitVec 4) (src : RM 4)
  | vpmaddwdXmm (e : VexEnc) (dst src1 : BitVec 4) (src2 : RM 4)
  | vpmaddwdYmm (e : VexEnc) (dst src1 : BitVec 4) (src2 : RM 4)
  deriving DecidableEq, Repr

/-! What the list of prefixes says. -/

/-- A LOCK byte (F0) is among them (60_exceptions.md R221). -/
def hasLock (ps : List Prefix) : Bool := ps.any (· == .lock)

/-- An F2 or F3 byte is among them (30_encoding.md R53). -/
def hasRep (ps : List Prefix) : Bool := ps.any fun p => p == .repne || p == .rep

/-- A 66 byte is among them (30_encoding.md R53). -/
def hasOpSize (ps : List Prefix) : Bool := ps.any (· == .opSize)

/-- A 67 byte is among them (30_encoding.md R66). -/
def hasAddrSize (ps : List Prefix) : Bool := ps.any (· == .addrSize)

/-- The W, R, X and B bits of a legacy form: 0 where there is no REX byte (30_encoding.md R54, R64). -/
def LegEnc.rexBits (e : LegEnc) : Rex := e.rex.getD ⟨false, false, false, false⟩

end Sys2Proof
end

