-- ==== Sys2Proof/WellFormed.lean ====
section
/-! DEFINITION. Which terms of `Instr` the bytes of an instruction can mean, in 64-bit mode (`m = true`) or in 32-bit
mode: the operands agree with the encoding fields kept beside them, and the encoding is one that 30_encoding.md allows. -/

namespace Sys2Proof

/-- An ignored REX byte exists only in 64-bit mode, and only directly before another legacy prefix (30_encoding.md R54). -/
def prefixesWf (m : Bool) : List Prefix → Bool
  | [] => true
  | .rexIgnored _ :: ps =>
    m && (match ps with
      | [] => false
      | .rexIgnored _ :: _ => false
      | _ :: _ => true) && prefixesWf m ps
  | _ :: ps => prefixesWf m ps

/-- The extension bit of a 4-bit register number is the prefix's bit (30_encoding.md R64). -/
def regWf (ext : Bool) (n : BitVec 4) : Bool := n.msb == ext

/-- A memory operand that the addressing size allows (30_encoding.md R66), whose numbers carry the extension bits `x`
and `b` (R64), and which has no reading as another form: rm = 100B means a SIB byte, rm or base 101B with mod = 00B
means no base, 16-bit rm = 110B with mod = 00B means a displacement alone (R63, R67, R70). -/
def MemOp.wf (m a67 x b : Bool) : MemOp → Bool
  | .base r d => (m || !a67) && r.msb == b && r.setWidth 3 != 4#3 && (d != .none || r.setWidth 3 != 5#3)
  | .sib r i _ d => (m || !a67) && r.msb == b && i.msb == x && (d != .none || r.setWidth 3 != 5#3)
  | .sibAbs i _ _ => (m || !a67) && i.msb == x
  | .abs _ => m || !a67
  | .m16 r d => (!m && a67) && (d != .none || r != 6#3)
  | .m16abs _ => !m && a67

/-- The r/m operand: a 4-bit register number carries the extension bit `b`, an MMX register has none (30_encoding.md
R64; 10_state.md R15). -/
def RM.wf {k : Nat} (m a67 x b : Bool) : RM k → Bool
  | .reg n => k == 3 || n.msb == b
  | .mem o => o.wf m a67 x b

/-- Bytes of a displacement (30_encoding.md R63). -/
def Disp.bytes {w : Nat} : Disp w → Nat
  | .none => 0
  | .d8 _ => 1
  | .full _ => w / 8

/-- Bytes of ModRM, SIB and displacement (30_encoding.md R61 to R63). -/
def RM.bytes {k : Nat} : RM k → Nat
  | .reg _ => 1
  | .mem (.base _ d) => 1 + d.bytes
  | .mem (.sib _ _ _ d) => 2 + d.bytes
  | .mem (.sibAbs _ _ _) => 6
  | .mem (.abs _) => 5
  | .mem (.m16 _ d) => 1 + d.bytes
  | .mem (.m16abs _) => 3

/-- Bytes of the escape and the opcode of a legacy form (30_encoding.md R55). -/
def OpMap.legacyBytes : OpMap → Nat
  | .m0F => 2
  | .m0F38 => 3
  | .m0F3A => 3

/-- The bytes of a REX prefix that may be absent. -/
def rexBytes (r : Option Rex) : Nat := if r.isSome then 1 else 0

/-- A legacy encoding for the mode, with or without 66, on the map, with `imm` immediate bytes and the r/m operand
(30_encoding.md R50 to R55, R63). -/
def LegEnc.wf {k : Nat} (m need66 : Bool) (map : OpMap) (imm : Nat) (e : LegEnc) (o : RM k) : Bool :=
  prefixesWf m e.prefixes && (m || e.rex.isNone) && !hasRep e.prefixes && hasOpSize e.prefixes == need66 &&
    o.wf m (hasAddrSize e.prefixes) e.rexBits.x e.rexBits.b &&
    e.len == e.prefixes.length + rexBytes e.rex + map.legacyBytes + o.bytes + imm && decide (e.len ≤ 15)

/-- The first source register that VEX.vvvv names: four bits, of which bit 3 is ignored in 32-bit mode (30_encoding.md
R56, R58). -/
def VexEnc.srcReg (m : Bool) (e : VexEnc) : BitVec 4 := if m then e.vvvv else e.vvvv &&& 7#4

/-- A VEX encoding for the mode: the two-byte prefix has X = B = W = 0 and map 0F (30_encoding.md R57); in 32-bit mode
there is no REX, the two top bits of the byte after C4 or C5 are 11B, and VEX.B is ignored (R58). -/
def VexEnc.wf (m : Bool) (map : OpMap) (imm : Nat) (e : VexEnc) (o : RM 4) : Bool :=
  prefixesWf m e.prefixes && (m || e.rex.isNone) && (!e.two || (map == .m0F && !e.x && !e.b && !e.w)) &&
    (m || (!e.r && !e.x && (!e.two || !e.vvvv.msb))) &&
    o.wf m (hasAddrSize e.prefixes) e.x (m && e.b) &&
    e.len == e.prefixes.length + rexBytes e.rex + (if e.two then 3 else 4) + o.bytes + imm && decide (e.len ≤ 15)

/-- The well-formed instructions of a mode: the encoding is allowed, the register numbers carry the prefix's bits, and
the bits W and L that choose the row (30_encoding.md R60, R71) are this row's. -/
def Instr.wf (m : Bool) : Instr → Bool
  | .pextR32 e dst src1 src2 => e.wf m .m0F38 0 src2 && regWf e.r dst && src1 == e.srcReg m && !(m && e.w)
  | .pextR64 e dst src1 src2 => e.wf m .m0F38 0 src2 && regWf e.r dst && src1 == e.srcReg m && (m && e.w)
  | .pextrb e dst src _ => e.wf m true .m0F3A 1 dst && regWf e.rexBits.r src
  | .pextrd e dst src _ => e.wf m true .m0F3A 1 dst && regWf e.rexBits.r src && !e.rexBits.w
  | .pextrq e dst src _ => e.wf m true .m0F3A 1 dst && regWf e.rexBits.r src && e.rexBits.w
  | .vpextrb e dst src _ => e.wf m .m0F3A 1 dst && regWf e.r src
  | .vpextrd e dst src _ => e.wf m .m0F3A 1 dst && regWf e.r src && !e.w
  | .vpextrq e dst src _ => e.wf m .m0F3A 1 dst && regWf e.r src && e.w
  | .pextrwMmx e dst src _ => e.wf m false .m0F 1 src && regWf e.rexBits.r dst
  | .pextrwXmm e dst src _ => e.wf m true .m0F 1 src && regWf e.rexBits.r dst
  | .pextrwStore e dst src _ => e.wf m true .m0F3A 1 dst && regWf e.rexBits.r src
  | .vpextrw e dst src _ => e.wf m .m0F 1 src && regWf e.r dst
  | .vpextrwStore e dst src _ => e.wf m .m0F3A 1 dst && regWf e.r src
  | .phaddwMmx e _ src => e.wf m false .m0F38 0 src
  | .phaddwXmm e dst src => e.wf m true .m0F38 0 src && regWf e.rexBits.r dst
  | .phadddMmx e _ src => e.wf m false .m0F38 0 src
  | .phadddXmm e dst src => e.wf m true .m0F38 0 src && regWf e.rexBits.r dst
  | .vphaddwXmm e dst src1 src2 => e.wf m .m0F38 0 src2 && regWf e.r dst && src1 == e.srcReg m && !e.l
  | .vphadddXmm e dst src1 src2 => e.wf m .m0F38 0 src2 && regWf e.r dst && src1 == e.srcReg m && !e.l
  | .vphaddwYmm e dst src1 src2 => e.wf m .m0F38 0 src2 && regWf e.r dst && src1 == e.srcReg m && e.l
  | .vphadddYmm e dst src1 src2 => e.wf m .m0F38 0 src2 && regWf e.r dst && src1 == e.srcReg m && e.l
  | .phaddswMmx e _ src => e.wf m false .m0F38 0 src
  | .phaddswXmm e dst src => e.wf m true .m0F38 0 src && regWf e.rexBits.r dst
  | .vphaddswXmm e dst src1 src2 => e.wf m .m0F38 0 src2 && regWf e.r dst && src1 == e.srcReg m && !e.l
  | .vphaddswYmm e dst src1 src2 => e.wf m .m0F38 0 src2 && regWf e.r dst && src1 == e.srcReg m && e.l
  | .phminposuw e dst src => e.wf m true .m0F38 0 src && regWf e.rexBits.r dst
  | .vphminposuw e dst src => e.wf m .m0F38 0 src && regWf e.r dst
  | .phsubwMmx e _ src => e.wf m false .m0F38 0 src
  | .phsubwXmm e dst src => e.wf m true .m0F38 0 src && regWf e.rexBits.r dst
  | .phsubdMmx e _ src => e.wf m false .m0F38 0 src
  | .phsubdXmm e dst src => e.wf m true .m0F38 0 src && regWf e.rexBits.r dst
  | .vphsubwXmm e dst src1 src2 => e.wf m .m0F38 0 src2 && regWf e.r dst && src1 == e.srcReg m && !e.l
  | .vphsubdXmm e dst src1 src2 => e.wf m .m0F38 0 src2 && regWf e.r dst && src1 == e.srcReg m && !e.l
  | .vphsubwYmm e dst src1 src2 => e.wf m .m0F38 0 src2 && regWf e.r dst && src1 == e.srcReg m && e.l
  | .vphsubdYmm e dst src1 src2 => e.wf m .m0F38 0 src2 && regWf e.r dst && src1 == e.srcReg m && e.l
  | .phsubswMmx e _ src => e.wf m false .m0F38 0 src
  | .phsubswXmm e dst src => e.wf m true .m0F38 0 src && regWf e.rexBits.r dst
  | .vphsubswXmm e dst src1 src2 => e.wf m .m0F38 0 src2 && regWf e.r dst && src1 == e.srcReg m && !e.l
  | .vphsubswYmm e dst src1 src2 => e.wf m .m0F38 0 src2 && regWf e.r dst && src1 == e.srcReg m && e.l
  | .pinsrb e dst src _ => e.wf m true .m0F3A 1 src && regWf e.rexBits.r dst
  | .pinsrd e dst src _ => e.wf m true .m0F3A 1 src && regWf e.rexBits.r dst && !e.rexBits.w
  | .pinsrq e dst src _ => e.wf m true .m0F3A 1 src && regWf e.rexBits.r dst && e.rexBits.w
  | .vpinsrb e dst src1 src2 _ => e.wf m .m0F3A 1 src2 && regWf e.r dst && src1 == e.srcReg m
  | .vpinsrd e dst src1 src2 _ => e.wf m .m0F3A 1 src2 && regWf e.r dst && src1 == e.srcReg m && !e.w
  | .vpinsrq e dst src1 src2 _ => e.wf m .m0F3A 1 src2 && regWf e.r dst && src1 == e.srcReg m && e.w
  | .pinsrwMmx e _ src _ => e.wf m false .m0F 1 src
  | .pinsrwXmm e dst src _ => e.wf m true .m0F 1 src && regWf e.rexBits.r dst
  | .vpinsrw e dst src1 src2 _ => e.wf m .m0F 1 src2 && regWf e.r dst && src1 == e.srcReg m
  | .pmaddubswMmx e _ src => e.wf m false .m0F38 0 src
  | .pmaddubswXmm e dst src => e.wf m true .m0F38 0 src && regWf e.rexBits.r dst
  | .vpmaddubswXmm e dst src1 src2 => e.wf m .m0F38 0 src2 && regWf e.r dst && src1 == e.srcReg m && !e.l
  | .vpmaddubswYmm e dst src1 src2 => e.wf m .m0F38 0 src2 && regWf e.r dst && src1 == e.srcReg m && e.l
  | .pmaddwdMmx e _ src => e.wf m false .m0F 0 src
  | .pmaddwdXmm e dst src => e.wf m true .m0F 0 src && regWf e.rexBits.r dst
  | .vpmaddwdXmm e dst src1 src2 => e.wf m .m0F 0 src2 && regWf e.r dst && src1 == e.srcReg m && !e.l
  | .vpmaddwdYmm e dst src1 src2 => e.wf m .m0F 0 src2 && regWf e.r dst && src1 == e.srcReg m && e.l

end Sys2Proof
end

