-- ==== Sys2Proof/Decode.lean ====
section
/-! DEFINITION. From the bytes of an instruction to a term of `Instr` and back (spec/30_encoding.md). `decode` is total and
rejects by name; `encode` writes the bytes of a well-formed instruction. -/

namespace Sys2Proof

/-! ## Fields -/

/-- `field hi lo` of a byte as 30_encoding.md writes it: `n` bits from bit `lo`. -/
def bits (lo n : Nat) (c : Byte) : BitVec n := c.extractLsb' lo n

/-- A 4-bit register number: an extension bit above a 3-bit field (30_encoding.md R64). -/
def extReg (ext : Bool) (f : BitVec 3) : BitVec 4 := BitVec.ofBool ext ++ f

/-- An MMX register is named by the low 3 bits of the number (10_state.md R15). -/
def mmxReg (n : BitVec 4) : BitVec 3 := n.setWidth 3

/-- The r/m operand of a form whose r/m register is an MMX register (10_state.md R15). -/
def mmxRM : RM 4 → RM 3
  | .reg n => .reg (mmxReg n)
  | .mem o => .mem o

/-- The register number in a VEX.vvvv field; in 32-bit mode bit 3 is ignored (30_encoding.md R58). -/
def vvvvReg (m : Bool) (v : BitVec 4) : BitVec 4 := if m then v else v &&& 7#4

/-! ## Prefixes (R52, R54) -/

/-- The legacy prefix a byte is, if it is one (30_encoding.md R52). -/
def prefixOfByte (c : Byte) : Option Prefix :=
  if c == 0xF0#8 then some .lock
  else if c == 0xF2#8 then some .repne
  else if c == 0xF3#8 then some .rep
  else if c == 0x66#8 then some .opSize
  else if c == 0x67#8 then some .addrSize
  else if c == 0x26#8 then some (.seg .es)
  else if c == 0x2E#8 then some (.seg .cs)
  else if c == 0x36#8 then some (.seg .ss)
  else if c == 0x3E#8 then some (.seg .ds)
  else if c == 0x64#8 then some (.seg .fs)
  else if c == 0x65#8 then some (.seg .gs)
  else none

/-- A byte 40H to 4FH (30_encoding.md R54). -/
def isRexByte (c : Byte) : Bool := bits 4 4 c == 4#4

/-- The bits W, R, X, B of a REX byte `0100WRXB` (30_encoding.md R54). -/
def rexOfByte (c : Byte) : Rex := ⟨c.getLsbD 3, c.getLsbD 2, c.getLsbD 1, c.getLsbD 0⟩

/-- The prefixes, the REX byte that counts, and the bytes after them (30_encoding.md R72 steps 1 and 2). In 64-bit mode a
byte 40H to 4FH that another legacy prefix follows is ignored (R54). -/
def scanPrefixes (m : Bool) : List Byte → List Prefix × Option Rex × List Byte
  | [] => ([], none, [])
  | c :: t =>
    match prefixOfByte c with
    | some p => let r := scanPrefixes m t; (p :: r.1, r.2)
    | none =>
      if m && isRexByte c then
        match t with
        | [] => ([], some (rexOfByte c), [])
        | d :: _ =>
          if (prefixOfByte d).isSome then let r := scanPrefixes m t; (.rexIgnored (rexOfByte c) :: r.1, r.2)
          else ([], some (rexOfByte c), t)
      else ([], none, c :: t)

/-! ## ModRM, SIB, displacement (R61 to R63) -/

/-- Two bytes, little-endian (20_memory.md R30). -/
def read16 : List Byte → Option (BitVec 16 × List Byte)
  | a :: b :: t => some (b ++ a, t)
  | _ => none

/-- Four bytes, little-endian (20_memory.md R30). -/
def read32 : List Byte → Option (BitVec 32 × List Byte)
  | a :: b :: c :: d :: t => some (d ++ c ++ b ++ a, t)
  | _ => none

/-- The displacement that mod calls for: none for 00B, 8 bits for 01B, the full width for 10B (30_encoding.md R63). -/
def readDisp {w : Nat} (full : List Byte → Option (BitVec w × List Byte)) (md : BitVec 2) (t : List Byte) :
    Option (Disp w × List Byte) :=
  if md == 0#2 then some (.none, t)
  else if md == 1#2 then
    match t with
    | [] => none
    | c :: t => some (.d8 c, t)
  else (full t).map fun r => (.full r.1, r.2)

/-- SIB and what follows it (30_encoding.md R62, R63, R67): base field 101B with mod = 00B means no base. -/
def readSib (x b : Bool) (md : BitVec 2) : List Byte → Option (MemOp × List Byte)
  | [] => none
  | c :: t =>
    let idx := extReg x (bits 3 3 c)
    if md == 0#2 && bits 0 3 c == 5#3 then (read32 t).map fun r => (.sibAbs idx (bits 6 2 c) r.1, r.2)
    else (readDisp read32 md t).map fun r => (.sib (extReg b (bits 0 3 c)) idx (bits 6 2 c) r.1, r.2)

/-- The memory operand of a ModRM byte with mod not 11B (30_encoding.md R63, R67, R68, R70). -/
def readMem (m a67 x b : Bool) (md : BitVec 2) (rm : BitVec 3) (t : List Byte) : Option (MemOp × List Byte) :=
  if !m && a67 then
    if md == 0#2 && rm == 6#3 then (read16 t).map fun r => (.m16abs r.1, r.2)
    else (readDisp read16 md t).map fun r => (.m16 rm r.1, r.2)
  else if rm == 4#3 then readSib x b md t
  else if md == 0#2 && rm == 5#3 then (read32 t).map fun r => (.abs r.1, r.2)
  else (readDisp read32 md t).map fun r => (.base (extReg b rm) r.1, r.2)

/-- ModRM and what it calls for: the reg field, the r/m operand, the bytes after (30_encoding.md R61). -/
def readModRM (m a67 x b : Bool) : List Byte → Option (BitVec 3 × RM 4 × List Byte)
  | [] => none
  | c :: t =>
    if bits 6 2 c == 3#2 then some (bits 3 3 c, .reg (extReg b (bits 0 3 c)), t)
    else (readMem m a67 x b (bits 6 2 c) (bits 0 3 c) t).map fun r => (bits 3 3 c, .mem r.1, r.2)

/-- The immediate byte, where the form has one (30_encoding.md R63). -/
def readImm (has : Bool) : List Byte → Option (Byte × List Byte)
  | [] => if has then none else some (0#8, [])
  | c :: t => if has then some (c, t) else some (0#8, c :: t)

/-! ## The opcode table (R71) -/

/-- What a row of R71 for a legacy opcode says: whether an imm8 follows, and which instruction it is, from the encoding, the
ModRM.reg number, the r/m operand and the immediate. -/
structure LegRow where
  imm : Bool
  build : LegEnc → BitVec 4 → RM 4 → Byte → Instr

/-- The same for a VEX opcode; the third argument is the VEX.vvvv register. -/
structure VexRow where
  imm : Bool
  build : VexEnc → BitVec 4 → BitVec 4 → RM 4 → Byte → Instr

/-- The legacy rows of 30_encoding.md R71, by map, by whether 66 is present, and by opcode. REX.W chooses between PEXTRD
and PEXTRQ and between PINSRD and PINSRQ, and is otherwise ignored (R54). -/
def legacyRow (p66 : Bool) (opc : Byte) : OpMap → Option LegRow
  | .m0F =>
    if !p66 && opc == 0xC4#8 then some ⟨true, fun e g rm im => .pinsrwMmx e (mmxReg g) rm im⟩
    else if !p66 && opc == 0xC5#8 then some ⟨true, fun e g rm im => .pextrwMmx e g (mmxRM rm) im⟩
    else if !p66 && opc == 0xF5#8 then some ⟨false, fun e g rm _ => .pmaddwdMmx e (mmxReg g) (mmxRM rm)⟩
    else if p66 && opc == 0xC4#8 then some ⟨true, fun e g rm im => .pinsrwXmm e g rm im⟩
    else if p66 && opc == 0xC5#8 then some ⟨true, fun e g rm im => .pextrwXmm e g rm im⟩
    else if p66 && opc == 0xF5#8 then some ⟨false, fun e g rm _ => .pmaddwdXmm e g rm⟩
    else none
  | .m0F38 =>
    if !p66 && opc == 0x01#8 then some ⟨false, fun e g rm _ => .phaddwMmx e (mmxReg g) (mmxRM rm)⟩
    else if !p66 && opc == 0x02#8 then some ⟨false, fun e g rm _ => .phadddMmx e (mmxReg g) (mmxRM rm)⟩
    else if !p66 && opc == 0x03#8 then some ⟨false, fun e g rm _ => .phaddswMmx e (mmxReg g) (mmxRM rm)⟩
    else if !p66 && opc == 0x04#8 then some ⟨false, fun e g rm _ => .pmaddubswMmx e (mmxReg g) (mmxRM rm)⟩
    else if !p66 && opc == 0x05#8 then some ⟨false, fun e g rm _ => .phsubwMmx e (mmxReg g) (mmxRM rm)⟩
    else if !p66 && opc == 0x06#8 then some ⟨false, fun e g rm _ => .phsubdMmx e (mmxReg g) (mmxRM rm)⟩
    else if !p66 && opc == 0x07#8 then some ⟨false, fun e g rm _ => .phsubswMmx e (mmxReg g) (mmxRM rm)⟩
    else if p66 && opc == 0x01#8 then some ⟨false, fun e g rm _ => .phaddwXmm e g rm⟩
    else if p66 && opc == 0x02#8 then some ⟨false, fun e g rm _ => .phadddXmm e g rm⟩
    else if p66 && opc == 0x03#8 then some ⟨false, fun e g rm _ => .phaddswXmm e g rm⟩
    else if p66 && opc == 0x04#8 then some ⟨false, fun e g rm _ => .pmaddubswXmm e g rm⟩
    else if p66 && opc == 0x05#8 then some ⟨false, fun e g rm _ => .phsubwXmm e g rm⟩
    else if p66 && opc == 0x06#8 then some ⟨false, fun e g rm _ => .phsubdXmm e g rm⟩
    else if p66 && opc == 0x07#8 then some ⟨false, fun e g rm _ => .phsubswXmm e g rm⟩
    else if p66 && opc == 0x41#8 then some ⟨false, fun e g rm _ => .phminposuw e g rm⟩
    else none
  | .m0F3A =>
    if p66 && opc == 0x14#8 then some ⟨true, fun e g rm im => .pextrb e rm g im⟩
    else if p66 && opc == 0x15#8 then some ⟨true, fun e g rm im => .pextrwStore e rm g im⟩
    else if p66 && opc == 0x16#8 then some ⟨true, fun e g rm im => if e.rexBits.w then .pextrq e rm g im else .pextrd e rm g im⟩
    else if p66 && opc == 0x20#8 then some ⟨true, fun e g rm im => .pinsrb e g rm im⟩
    else if p66 && opc == 0x22#8 then some ⟨true, fun e g rm im => if e.rexBits.w then .pinsrq e g rm im else .pinsrd e g rm im⟩
    else none

/-- The VEX rows of 30_encoding.md R71, by map, VEX.pp and opcode. VEX.L chooses between a VEX.128 and a VEX.256 row,
VEX.W between the 32- and the 64-bit row (R60); in 32-bit mode PEXT ignores VEX.W (decision D12). -/
def vexRow (m : Bool) (pp : BitVec 2) (opc : Byte) : OpMap → Option VexRow
  | .m0F =>
    if pp == 1#2 && opc == 0xC4#8 then some ⟨true, fun e g v rm im => .vpinsrw e g v rm im⟩
    else if pp == 1#2 && opc == 0xC5#8 then some ⟨true, fun e g _ rm im => .vpextrw e g rm im⟩
    else if pp == 1#2 && opc == 0xF5#8 then some ⟨false, fun e g v rm _ => if e.l then .vpmaddwdYmm e g v rm else .vpmaddwdXmm e g v rm⟩
    else none
  | .m0F38 =>
    if pp == 1#2 && opc == 0x01#8 then some ⟨false, fun e g v rm _ => if e.l then .vphaddwYmm e g v rm else .vphaddwXmm e g v rm⟩
    else if pp == 1#2 && opc == 0x02#8 then some ⟨false, fun e g v rm _ => if e.l then .vphadddYmm e g v rm else .vphadddXmm e g v rm⟩
    else if pp == 1#2 && opc == 0x03#8 then some ⟨false, fun e g v rm _ => if e.l then .vphaddswYmm e g v rm else .vphaddswXmm e g v rm⟩
    else if pp == 1#2 && opc == 0x04#8 then some ⟨false, fun e g v rm _ => if e.l then .vpmaddubswYmm e g v rm else .vpmaddubswXmm e g v rm⟩
    else if pp == 1#2 && opc == 0x05#8 then some ⟨false, fun e g v rm _ => if e.l then .vphsubwYmm e g v rm else .vphsubwXmm e g v rm⟩
    else if pp == 1#2 && opc == 0x06#8 then some ⟨false, fun e g v rm _ => if e.l then .vphsubdYmm e g v rm else .vphsubdXmm e g v rm⟩
    else if pp == 1#2 && opc == 0x07#8 then some ⟨false, fun e g v rm _ => if e.l then .vphsubswYmm e g v rm else .vphsubswXmm e g v rm⟩
    else if pp == 1#2 && opc == 0x41#8 then some ⟨false, fun e g _ rm _ => .vphminposuw e g rm⟩
    else if pp == 2#2 && opc == 0xF5#8 then some ⟨false, fun e g v rm _ => if m && e.w then .pextR64 e g v rm else .pextR32 e g v rm⟩
    else none
  | .m0F3A =>
    if pp == 1#2 && opc == 0x14#8 then some ⟨true, fun e g _ rm im => .vpextrb e rm g im⟩
    else if pp == 1#2 && opc == 0x15#8 then some ⟨true, fun e g _ rm im => .vpextrwStore e rm g im⟩
    else if pp == 1#2 && opc == 0x16#8 then some ⟨true, fun e g _ rm im => if e.w then .vpextrq e rm g im else .vpextrd e rm g im⟩
    else if pp == 1#2 && opc == 0x20#8 then some ⟨true, fun e g v rm im => .vpinsrb e g v rm im⟩
    else if pp == 1#2 && opc == 0x22#8 then some ⟨true, fun e g v rm im => if e.w then .vpinsrq e g v rm im else .vpinsrd e g v rm im⟩
    else none

/-! ## Decoding (R72) -/

/-- What decoding answers: an instruction and the bytes after it; `truncated`, when the bytes end before the instruction
does; `undefined`, when the bytes raise #UD whatever follows (30_encoding.md R59); or a refusal by name (R72). -/
inductive DecodeResult where
  | ok (i : Instr) (rest : List Byte)
  | truncated
  | undefined
  | reject (why : DecodeReject)
  deriving DecidableEq, Repr

/-- The map and the opcode byte after a 0F byte (30_encoding.md R55). -/
def readLegacyOpcode : List Byte → Option (OpMap × Byte × List Byte)
  | [] => none
  | c :: t =>
    if c == 0x38#8 || c == 0x3A#8 then
      match t with
      | [] => none
      | d :: t => some (if c == 0x38#8 then .m0F38 else .m0F3A, d, t)
    else some (.m0F, c, t)

/-- A legacy form, after its 0F byte; `n` is the number of bytes the decoding began with (30_encoding.md R72 steps 3 to 7).
F2 or F3 among the prefixes means another instruction (R53, U8). DESIGN CHOICE (notes/assumptions/33.md): bytes in no row
are refused without their ModRM byte. -/
def decodeLegacy (m : Bool) (n : Nat) (ps : List Prefix) (rex : Option Rex) (t : List Byte) : DecodeResult :=
  match readLegacyOpcode t with
  | none => .truncated
  | some (map, opc, t) =>
    if hasRep ps then .reject .repeatPrefix
    else
      match legacyRow (hasOpSize ps) opc map with
      | none => .reject .unknownOpcode
      | some row =>
        let bits := rex.getD ⟨false, false, false, false⟩
        match readModRM m (hasAddrSize ps) bits.x bits.b t with
        | none => .truncated
        | some (reg, rm, t) =>
          match readImm row.imm t with
          | none => .truncated
          | some (im, t) => .ok (row.build ⟨ps, rex, n - t.length⟩ (extReg bits.r reg) rm im) t

/-- The map of a VEX.mmmmm field (30_encoding.md R56). -/
def vexMap (f : BitVec 5) : Option OpMap :=
  if f == 1#5 then some .m0F
  else if f == 2#5 then some .m0F38
  else if f == 3#5 then some .m0F3A
  else none

/-- A LOCK, 66, F2, F3 or REX prefix before a VEX prefix (30_encoding.md R59). -/
def vexForbidden (ps : List Prefix) (rex : Option Rex) : Bool :=
  hasLock ps || hasOpSize ps || hasRep ps || rex.isSome

/-- A VEX form after its VEX prefix, with the fields read from it (30_encoding.md R72 steps 3 to 7). Where the prefix is
forbidden and the bytes are in no row, #UD is raised all the same (R72 step 3, before the lookup). DESIGN CHOICE
(notes/assumptions/33.md): where mmmmm names no map the answer, #UD or refusal, does not ask for the opcode byte. -/
def decodeVex (m : Bool) (n : Nat) (e : VexEnc) (mm : BitVec 5) (pp : BitVec 2) (t : List Byte) : DecodeResult :=
  let refuse := fun why => if vexForbidden e.prefixes e.rex then DecodeResult.undefined else .reject why
  match vexMap mm with
  | none => refuse .unknownVexMap
  | some map =>
    match t with
    | [] => .truncated
    | opc :: t =>
      match vexRow m pp opc map with
      | none => refuse .unknownOpcode
      | some row =>
        match readModRM m (hasAddrSize e.prefixes) (m && e.x) (m && e.b) t with
        | none => .truncated
        | some (reg, rm, t) =>
          match readImm row.imm t with
          | none => .truncated
          | some (im, t) =>
            .ok (row.build ⟨e.prefixes, e.rex, e.two, e.r, e.x, e.b, e.w, e.vvvv, e.l, n - t.length⟩
              (extReg (m && e.r) reg) (vvvvReg m e.vvvv) rm im) t

/-- The fields of a two-byte VEX prefix `R' v'v'v'v' L pp` (30_encoding.md R57). -/
def vex2 (ps : List Prefix) (rex : Option Rex) (c : Byte) : VexEnc :=
  ⟨ps, rex, true, !c.getLsbD 7, false, false, false, ~~~(bits 3 4 c), c.getLsbD 2, 0⟩

/-- The fields of a three-byte VEX prefix `R' X' B' mmmmm`, `W v'v'v'v' L pp` (30_encoding.md R56). -/
def vex3 (ps : List Prefix) (rex : Option Rex) (c d : Byte) : VexEnc :=
  ⟨ps, rex, false, !c.getLsbD 7, !c.getLsbD 6, !c.getLsbD 5, d.getLsbD 7, ~~~(bits 3 4 d), d.getLsbD 2, 0⟩

/-- The instruction at the head of the bytes, in 64-bit mode (`m = true`) or 32-bit mode (30_encoding.md R72). In 32-bit
mode C4 and C5 are a VEX prefix only where bits 7:6 of the next byte are 11B (R58). -/
def decode (m : Bool) (bs : List Byte) : DecodeResult :=
  match scanPrefixes m bs with
  | (_, _, []) => .truncated
  | (ps, rex, c :: t) =>
    if c == 0x0F#8 then decodeLegacy m bs.length ps rex t
    else if c == 0xC4#8 || c == 0xC5#8 then
      match t with
      | [] => .truncated
      | d :: t =>
        if !m && bits 6 2 d != 3#2 then .reject .lesLds
        else if c == 0xC5#8 then decodeVex m bs.length (vex2 ps rex d) 1#5 (bits 0 2 d) t
        else
          match t with
          | [] => .truncated
          | d' :: t => decodeVex m bs.length (vex3 ps rex d d') (bits 0 5 d) (bits 0 2 d') t
    else .reject .unknownOpcode

/-! ## Encoding -/

/-- The low four bits `WRXB` of a REX byte (30_encoding.md R54). -/
def Rex.nibble (r : Rex) : BitVec 4 :=
  BitVec.ofBool r.w ++ BitVec.ofBool r.r ++ BitVec.ofBool r.x ++ BitVec.ofBool r.b

/-- The REX byte `0100WRXB` (30_encoding.md R54). -/
def Rex.byte (r : Rex) : Byte := 4#4 ++ r.nibble

/-- The byte of a segment override (30_encoding.md R52). -/
def Seg.byte : Seg → Byte
  | .es => 0x26#8
  | .cs => 0x2E#8
  | .ss => 0x36#8
  | .ds => 0x3E#8
  | .fs => 0x64#8
  | .gs => 0x65#8

/-- The byte of a legacy prefix (30_encoding.md R52). -/
def Prefix.byte : Prefix → Byte
  | .lock => 0xF0#8
  | .repne => 0xF2#8
  | .rep => 0xF3#8
  | .opSize => 0x66#8
  | .addrSize => 0x67#8
  | .seg s => s.byte
  | .rexIgnored r => r.byte

/-- The bytes before the escape or VEX prefix (30_encoding.md R50). -/
def encodePrefixes (ps : List Prefix) (rex : Option Rex) : List Byte :=
  ps.map Prefix.byte ++ (rex.map Rex.byte).toList

/-- A ModRM byte (30_encoding.md R61). -/
def modrmByte (md : BitVec 2) (reg rm : BitVec 3) : Byte := md ++ reg ++ rm

/-- The bytes of a value, least significant first (20_memory.md R30). -/
def leBytes {w : Nat} (n : Nat) (v : BitVec w) : List Byte := (List.range n).map fun i => v.extractLsb' (8 * i) 8

/-- The mod field a displacement calls for (30_encoding.md R63). -/
def Disp.mod {w : Nat} : Disp w → BitVec 2
  | .none => 0#2
  | .d8 _ => 1#2
  | .full _ => 2#2

/-- The bytes of a displacement (30_encoding.md R63). -/
def Disp.encode {w : Nat} : Disp w → List Byte
  | .none => []
  | .d8 d => [d]
  | .full d => leBytes (w / 8) d

/-- ModRM, SIB and displacement (30_encoding.md R61 to R63, R67, R68, R70). -/
def encodeRM {k : Nat} (reg : BitVec 3) : RM k → List Byte
  | .reg n => [modrmByte 3#2 reg (n.setWidth 3)]
  | .mem (.base b d) => modrmByte d.mod reg (b.setWidth 3) :: d.encode
  | .mem (.sib b i sc d) => modrmByte d.mod reg 4#3 :: modrmByte sc (i.setWidth 3) (b.setWidth 3) :: d.encode
  | .mem (.sibAbs i sc d) => modrmByte 0#2 reg 4#3 :: modrmByte sc (i.setWidth 3) 5#3 :: leBytes 4 d
  | .mem (.abs d) => modrmByte 0#2 reg 5#3 :: leBytes 4 d
  | .mem (.m16 rm d) => modrmByte d.mod reg rm :: d.encode
  | .mem (.m16abs d) => modrmByte 0#2 reg 6#3 :: leBytes 2 d

/-- The escape and opcode bytes of a legacy form (30_encoding.md R55). -/
def OpMap.escape : OpMap → List Byte
  | .m0F => [0x0F#8]
  | .m0F38 => [0x0F#8, 0x38#8]
  | .m0F3A => [0x0F#8, 0x3A#8]

/-- The bytes of a legacy form (30_encoding.md R50). -/
def encodeLegacy {k : Nat} (e : LegEnc) (map : OpMap) (opc : Byte) (reg : BitVec 3) (o : RM k) (imm : List Byte) : List Byte :=
  encodePrefixes e.prefixes e.rex ++ (map.escape ++ opc :: (encodeRM reg o ++ imm))

/-- The VEX.mmmmm field of a map (30_encoding.md R56). -/
def OpMap.mmmmm : OpMap → BitVec 5
  | .m0F => 1#5
  | .m0F38 => 2#5
  | .m0F3A => 3#5

/-- The bytes of the VEX prefix, two or three; R, X, B and vvvv are stored inverted (30_encoding.md R56, R57). -/
def encodeVexPrefix (e : VexEnc) (map : OpMap) (pp : BitVec 2) : List Byte :=
  if e.two then [0xC5#8, BitVec.ofBool (!e.r) ++ ~~~e.vvvv ++ BitVec.ofBool e.l ++ pp]
  else [0xC4#8, BitVec.ofBool (!e.r) ++ BitVec.ofBool (!e.x) ++ BitVec.ofBool (!e.b) ++ map.mmmmm,
    BitVec.ofBool e.w ++ ~~~e.vvvv ++ BitVec.ofBool e.l ++ pp]

/-- The bytes of a VEX form; `reg` is the register that ModRM.reg names (30_encoding.md R50). -/
def encodeVex (e : VexEnc) (map : OpMap) (pp : BitVec 2) (opc : Byte) (reg : BitVec 4) (o : RM 4) (imm : List Byte) : List Byte :=
  encodePrefixes e.prefixes e.rex ++ (encodeVexPrefix e map pp ++ opc :: (encodeRM (reg.setWidth 3) o ++ imm))

/-- The bytes of a well-formed instruction, from the rows of 30_encoding.md R71. -/
def encode : Instr → List Byte
  | .pextR32 e dst _ mask => encodeVex e .m0F38 2#2 0xF5#8 dst mask []
  | .pextR64 e dst _ mask => encodeVex e .m0F38 2#2 0xF5#8 dst mask []
  | .pextrb e dst src imm => encodeLegacy e .m0F3A 0x14#8 (src.setWidth 3) dst [imm]
  | .pextrd e dst src imm => encodeLegacy e .m0F3A 0x16#8 (src.setWidth 3) dst [imm]
  | .pextrq e dst src imm => encodeLegacy e .m0F3A 0x16#8 (src.setWidth 3) dst [imm]
  | .vpextrb e dst src imm => encodeVex e .m0F3A 1#2 0x14#8 src dst [imm]
  | .vpextrd e dst src imm => encodeVex e .m0F3A 1#2 0x16#8 src dst [imm]
  | .vpextrq e dst src imm => encodeVex e .m0F3A 1#2 0x16#8 src dst [imm]
  | .pextrwMmx e dst src imm => encodeLegacy e .m0F 0xC5#8 (dst.setWidth 3) src [imm]
  | .pextrwXmm e dst src imm => encodeLegacy e .m0F 0xC5#8 (dst.setWidth 3) src [imm]
  | .pextrwStore e dst src imm => encodeLegacy e .m0F3A 0x15#8 (src.setWidth 3) dst [imm]
  | .vpextrw e dst src imm => encodeVex e .m0F 1#2 0xC5#8 dst src [imm]
  | .vpextrwStore e dst src imm => encodeVex e .m0F3A 1#2 0x15#8 src dst [imm]
  | .phaddwMmx e dst src => encodeLegacy e .m0F38 0x01#8 dst src []
  | .phaddwXmm e dst src => encodeLegacy e .m0F38 0x01#8 (dst.setWidth 3) src []
  | .phadddMmx e dst src => encodeLegacy e .m0F38 0x02#8 dst src []
  | .phadddXmm e dst src => encodeLegacy e .m0F38 0x02#8 (dst.setWidth 3) src []
  | .vphaddwXmm e dst _ src => encodeVex e .m0F38 1#2 0x01#8 dst src []
  | .vphadddXmm e dst _ src => encodeVex e .m0F38 1#2 0x02#8 dst src []
  | .vphaddwYmm e dst _ src => encodeVex e .m0F38 1#2 0x01#8 dst src []
  | .vphadddYmm e dst _ src => encodeVex e .m0F38 1#2 0x02#8 dst src []
  | .phaddswMmx e dst src => encodeLegacy e .m0F38 0x03#8 dst src []
  | .phaddswXmm e dst src => encodeLegacy e .m0F38 0x03#8 (dst.setWidth 3) src []
  | .vphaddswXmm e dst _ src => encodeVex e .m0F38 1#2 0x03#8 dst src []
  | .vphaddswYmm e dst _ src => encodeVex e .m0F38 1#2 0x03#8 dst src []
  | .phminposuw e dst src => encodeLegacy e .m0F38 0x41#8 (dst.setWidth 3) src []
  | .vphminposuw e dst src => encodeVex e .m0F38 1#2 0x41#8 dst src []
  | .phsubwMmx e dst src => encodeLegacy e .m0F38 0x05#8 dst src []
  | .phsubwXmm e dst src => encodeLegacy e .m0F38 0x05#8 (dst.setWidth 3) src []
  | .phsubdMmx e dst src => encodeLegacy e .m0F38 0x06#8 dst src []
  | .phsubdXmm e dst src => encodeLegacy e .m0F38 0x06#8 (dst.setWidth 3) src []
  | .vphsubwXmm e dst _ src => encodeVex e .m0F38 1#2 0x05#8 dst src []
  | .vphsubdXmm e dst _ src => encodeVex e .m0F38 1#2 0x06#8 dst src []
  | .vphsubwYmm e dst _ src => encodeVex e .m0F38 1#2 0x05#8 dst src []
  | .vphsubdYmm e dst _ src => encodeVex e .m0F38 1#2 0x06#8 dst src []
  | .phsubswMmx e dst src => encodeLegacy e .m0F38 0x07#8 dst src []
  | .phsubswXmm e dst src => encodeLegacy e .m0F38 0x07#8 (dst.setWidth 3) src []
  | .vphsubswXmm e dst _ src => encodeVex e .m0F38 1#2 0x07#8 dst src []
  | .vphsubswYmm e dst _ src => encodeVex e .m0F38 1#2 0x07#8 dst src []
  | .pinsrb e dst src imm => encodeLegacy e .m0F3A 0x20#8 (dst.setWidth 3) src [imm]
  | .pinsrd e dst src imm => encodeLegacy e .m0F3A 0x22#8 (dst.setWidth 3) src [imm]
  | .pinsrq e dst src imm => encodeLegacy e .m0F3A 0x22#8 (dst.setWidth 3) src [imm]
  | .vpinsrb e dst _ src imm => encodeVex e .m0F3A 1#2 0x20#8 dst src [imm]
  | .vpinsrd e dst _ src imm => encodeVex e .m0F3A 1#2 0x22#8 dst src [imm]
  | .vpinsrq e dst _ src imm => encodeVex e .m0F3A 1#2 0x22#8 dst src [imm]
  | .pinsrwMmx e dst src imm => encodeLegacy e .m0F 0xC4#8 dst src [imm]
  | .pinsrwXmm e dst src imm => encodeLegacy e .m0F 0xC4#8 (dst.setWidth 3) src [imm]
  | .vpinsrw e dst _ src imm => encodeVex e .m0F 1#2 0xC4#8 dst src [imm]
  | .pmaddubswMmx e dst src => encodeLegacy e .m0F38 0x04#8 dst src []
  | .pmaddubswXmm e dst src => encodeLegacy e .m0F38 0x04#8 (dst.setWidth 3) src []
  | .vpmaddubswXmm e dst _ src => encodeVex e .m0F38 1#2 0x04#8 dst src []
  | .vpmaddubswYmm e dst _ src => encodeVex e .m0F38 1#2 0x04#8 dst src []
  | .pmaddwdMmx e dst src => encodeLegacy e .m0F 0xF5#8 dst src []
  | .pmaddwdXmm e dst src => encodeLegacy e .m0F 0xF5#8 (dst.setWidth 3) src []
  | .vpmaddwdXmm e dst _ src => encodeVex e .m0F 1#2 0xF5#8 dst src []
  | .vpmaddwdYmm e dst _ src => encodeVex e .m0F 1#2 0xF5#8 dst src []

/-! ## The host's question -/

/-- The bytes of a number, `n` of them, the first byte its least significant one. -/
def bytesOfNat : Nat → Nat → List Byte
  | 0, _ => []
  | n + 1, w => BitVec.ofNat 8 w :: bytesOfNat n (w / 256)

/-- The bytes of a table row's word: its own bytes, then zero bytes up to the longest instruction (30_encoding.md R51). -/
def tableBytes (nbits w : Nat) : List Byte := bytesOfNat 15 (w % 2 ^ (8 * (nbits / 8)))

/-- The instruction that the decoder reads from a row's word, in 64-bit mode, the mode in which all 56 rows exist
(30_encoding.md R71). -/
def decodeTableWord (nbits w : Nat) : Option Instr :=
  match decode true (tableBytes nbits w) with
  | .ok i _ => some i
  | _ => none

end Sys2Proof
end

