-- ==== Sys2Proof/Config.lean ====
section
/-! DEFINITION. What is fixed for the machine as a whole, and the one free value. -/

namespace Sys2Proof.Config

/-- The width of a YMM register, the source's VLMAX (00_scope.md R3; decision D2). -/
def vlmax : Nat := 256

/-- The longest instruction, in bytes (30_encoding.md R51). -/
def maxLen : Nat := 15

/-- FREE VALUE (notes/assumptions/8.md). When a page fault and an alignment-check fault both apply to one
operand "a model may report either; a proof must not depend on which" (60_exceptions.md R236). True means #AC is
reported. It may depend on the instruction's address, the operand's linear address and its width. It has no body:
nothing can be proved of its value. -/
opaque acBeforePf : (rip lin : Word) → (bytes : Nat) → Bool

end Sys2Proof.Config
end

