-- ==== Sys2Proof/Machine/State.lean ====
section
/-! DEFINITION. The state of the machine (spec/10_state.md, spec/00_scope.md R3), the reasons a step can stop, and the
launch state. Plain data throughout. -/

namespace Sys2Proof.Machine

/-! ## Exceptions and other stops -/

/-- The exceptions that the forms in scope can raise (60_exceptions.md R220); a page fault carries its error code and the
faulting linear address (R231). -/
inductive Exn where
  | ud
  | nm
  | ss
  | gp
  | pf (code : BitVec 32) (cr2 : Word)
  | mf
  | ac
  deriving DecidableEq, Repr

/-- The fault outcome `(vector, error code or none, CR2 if #PF, rip)` (60_exceptions.md R240). -/
structure FaultOutcome where
  vector : Nat
  errorCode : Option (BitVec 32)
  cr2 : Option Word
  rip : Word
  deriving DecidableEq, Repr

/-- Why a run stops with a fault. -/
inductive Fault where
  /-- An exception of 60_exceptions.md R220, raised by a meaning or by the fetch. Safe: the spec ends the run here (R240),
  and the state is the one before the step. -/
  | exception (o : FaultOutcome)
  /-- A read, by an operand or by the fetch, of a memory byte that neither the launch nor a store gave a value
  (10_state.md R22). Safe: the hardware would go on with some value. -/
  | unwrittenByte (address : Nat)
  /-- `rip` is the address just after the program text: the normal end of a run (70_reset_and_hazards.md R266).
  Raised by the step alone. Safe: the spec ends the run here. -/
  | endOfRun
  deriving DecidableEq, Repr

/-- Why the model gives a step no meaning. -/
inductive Refusal where
  /-- An instruction that has no meaning in this model yet; raised by `exec` alone. Safe. -/
  | notModelled (mnemonic : String)
  /-- The bytes at rip are not one of the forms in scope (30_encoding.md R72); raised by the step. Safe: the hardware may
  execute another instruction or raise #UD. -/
  | notInScope (why : DecodeReject)
  /-- VEX.W = 1 in 32-bit mode on VPEXTRB, VPEXTRW, VPINSRB or VPINSRW (93_implementation_defined.md U4); raised by their
  meanings. Safe. -/
  | vexWOutside64
  /-- A form that no byte sequence means in 32-bit mode (PEXT r64, PEXTRQ, PINSRQ; 93_implementation_defined.md U6, U7);
  raised by their meanings, and by no step, since the decoder does not answer them there. Safe. -/
  | notEncodable
  /-- An access, by an operand or by the fetch, to a byte outside PHYS_MEM (20_memory.md R41). Safe. -/
  | outsidePhysMem (address : Nat)
  /-- A store any byte of which lies in the program text (20_memory.md R44); raised by the PEXTRx stores. Safe. -/
  | storeIntoText (address : Nat)
  /-- A 32-bit mode instruction that straddles FFFF_FFFFH under a flat code segment (10_state.md R13); raised by the
  fetch. Safe. -/
  | fetchStraddles
  deriving DecidableEq, Repr

/-- A step, or a part of one, that ends without a next state. -/
inductive Stop where
  | fault (f : Fault)
  | refused (r : Refusal)
  deriving DecidableEq, Repr

/-- The result of a part of a step: a value, or a stop. -/
abbrev Res (α : Type) := Except Stop α

/-! ## Memory -/

/-- Memory: the bytes that have a value, by physical address, addresses strictly rising (`Memory.wf`). A byte that is not
listed is unwritten (10_state.md R22; notes/assumptions/3.md). -/
abbrev Memory := List Host.Cell

/-- A range of addresses. -/
structure Range where
  lo : Nat
  len : Nat
  deriving DecidableEq, Repr

/-! ## The parameters of a run (00_scope.md R3) -/

/-- What `SegLimitOK` answers for a segment in 32-bit mode (20_memory.md R32, R38; notes/assumptions/5.md): always true, or
usable, writable if the access writes, and the last byte within the limit. -/
inductive SegCheck where
  | flat
  | limited (limit : BitVec 32) (usable writable : Bool)
  deriving DecidableEq, Repr

/-- `SegBase` and `SegLimitOK` of one segment register (20_memory.md R38). -/
structure SegReg where
  base : Word
  check : SegCheck
  deriving DecidableEq, Repr

/-- The six segment registers. -/
structure Segs where
  es : SegReg
  cs : SegReg
  ss : SegReg
  ds : SegReg
  fs : SegReg
  gs : SegReg
  deriving DecidableEq, Repr

/-- The kinds of access that translation tells apart (20_memory.md R40, R44). -/
inductive Access where
  | read | write | fetch
  deriving DecidableEq, Repr

/-- What a translation rule answers: a physical address, or a page fault with its error code (20_memory.md R40). -/
inductive TransAnswer where
  | to (base : Nat)
  | pageFault (code : BitVec 32)
  deriving DecidableEq, Repr

/-- One rule of `Translate`: linear addresses of a range, for one kind of access at one privilege level
(20_memory.md R40; notes/assumptions/6.md). -/
structure TransRule where
  range : Range
  access : Access
  cpl : BitVec 2
  answer : TransAnswer
  deriving DecidableEq, Repr

/-- The program text given at launch: its first byte's offset in the code segment and its length (20_memory.md R44). -/
structure Text where
  start : Word
  len : Nat
  deriving DecidableEq, Repr

/-- The parameters: "each is fixed for a whole run; no instruction in scope writes any of them" (00_scope.md R3). -/
structure Env where
  /-- MODE64. -/
  mode64 : Bool
  /-- CPUID.01H:EDX (10_state.md R19). -/
  cpuid1Edx : BitVec 32
  /-- CPUID.01H:ECX (10_state.md R19). -/
  cpuid1Ecx : BitVec 32
  /-- CPUID.(EAX=07H,ECX=0):EBX (10_state.md R19). -/
  cpuid7Ebx : BitVec 32
  cr0 : Word
  cr4 : Word
  xcr0 : Word
  cpl : BitVec 2
  segs : Segs
  /-- `Translate`: the first rule that applies answers; where none does, the identity (20_memory.md R40). -/
  trans : List TransRule
  /-- Which of two faulting pages `Translate` reports: the one of the highest byte, or of the lowest (60_exceptions.md
  R231). -/
  pfReportLast : Bool
  x87Pending : Bool
  /-- PHYS_MEM (20_memory.md R41): ranges of physical addresses, or, by default, the bytes given at launch (decision D4). -/
  physMem : Option (List Range)
  vexM128Align : Bool
  text : Option Text
  deriving DecidableEq, Repr

/-! ## The state -/

/-- The state of the machine (10_state.md). -/
structure State where
  /-- The general registers (10_state.md R10). -/
  gpr : Vector Word 16
  /-- The instruction pointer (10_state.md R12). -/
  rip : Word
  /-- EFLAGS / RFLAGS (10_state.md R14). -/
  rflags : Word
  /-- The physical x87 registers; MMi is bits 63:0 of Ri (10_state.md R15, R16). -/
  x87 : Vector (BitVec 80) 8
  /-- FPU.TOP (10_state.md R16). -/
  fpuTop : BitVec 3
  /-- FPU.TAG, two bits for each register (10_state.md R16). -/
  fpuTag : BitVec 16
  /-- The vector registers; XMMi is bits 127:0 of YMMi (10_state.md R17). -/
  ymm : Vector (BitVec 256) 16
  /-- MXCSR, which nothing in scope reads or writes (10_state.md R20). -/
  mxcsr : BitVec 32
  mem : Memory
  env : Env
  deriving DecidableEq, Repr

/-- A flat segment: base 0, check always true (20_memory.md R38). -/
def SegReg.flat : SegReg := ⟨0#64, .flat⟩

/-- The parameters at launch: the defaults of 70_reset_and_hazards.md R260, and the values of notes/assumptions/2.md for
the parameters that have none. DESIGN CHOICE: `pfReportLast`, for which the spec gives no launch value, is false
(notes/assumptions/2.md, 7.md); `text` is none (notes/assumptions/4.md). -/
def Env.reset : Env where
  mode64 := true
  cpuid1Edx := 0x06800000#32
  cpuid1Ecx := 0x10080200#32
  cpuid7Ebx := 0x00000120#32
  cr0 := 0x60000010#64
  cr4 := 0x00040200#64
  xcr0 := 0x7#64
  cpl := 3#2
  segs := ⟨.flat, .flat, .flat, .flat, .flat, .flat⟩
  trans := []
  pfReportLast := false
  x87Pending := false
  physMem := none
  vexM128Align := false
  text := none

/-- The launch state with nothing loaded (70_reset_and_hazards.md R260; notes/assumptions/1.md and 2.md name the values
that the spec does not give). -/
def State.reset : State where
  gpr := Vector.replicate 16 0#64
  rip := 0#64
  rflags := 2#64
  x87 := Vector.replicate 8 0#80
  fpuTop := 0#3
  fpuTag := 0xFFFF#16
  ymm := Vector.replicate 16 0#256
  mxcsr := 0x1F80#32
  mem := []
  env := .reset

end Sys2Proof.Machine
end

