-- ==== Sys2Proof/Machine/Flags.lean ====
section
/-! DEFINITION. The flag and control bits that the rules read (spec/10_state.md R14, R19). No form in scope writes a flag
(R14) or a control register (R19), so there is no flag computation. -/

namespace Sys2Proof.Machine

/-- EFLAGS.AC, bit 18 (10_state.md R14, R19). -/
def rflagsAC (s : State) : Bool := s.rflags.getLsbD 18

/-- CR0.EM, bit 2 (10_state.md R19). -/
def cr0EM (s : State) : Bool := s.env.cr0.getLsbD 2

/-- CR0.TS, bit 3 (10_state.md R19). -/
def cr0TS (s : State) : Bool := s.env.cr0.getLsbD 3

/-- CR0.AM, bit 18 (10_state.md R19). -/
def cr0AM (s : State) : Bool := s.env.cr0.getLsbD 18

/-- CR4.OSFXSR, bit 9 (10_state.md R19). -/
def cr4OSFXSR (s : State) : Bool := s.env.cr4.getLsbD 9

/-- CR4.OSXSAVE, bit 18 (10_state.md R19). -/
def cr4OSXSAVE (s : State) : Bool := s.env.cr4.getLsbD 18

/-- XCR0.SSE, bit 1 (10_state.md R19). -/
def xcr0SSE (s : State) : Bool := s.env.xcr0.getLsbD 1

/-- XCR0.AVX, bit 2 (10_state.md R19). -/
def xcr0AVX (s : State) : Bool := s.env.xcr0.getLsbD 2

/-- The feature flags of the CPUID column (00_scope.md R1). -/
inductive Feature where
  | mmx | sse | sse2 | ssse3 | sse41 | avx | avx2 | bmi2
  deriving DecidableEq, Repr

/-- A CPUID feature flag, at its leaf and bit (10_state.md R19). -/
def cpuid (f : Feature) (s : State) : Bool :=
  match f with
  | .mmx => s.env.cpuid1Edx.getLsbD 23
  | .sse => s.env.cpuid1Edx.getLsbD 25
  | .sse2 => s.env.cpuid1Edx.getLsbD 26
  | .ssse3 => s.env.cpuid1Ecx.getLsbD 9
  | .sse41 => s.env.cpuid1Ecx.getLsbD 19
  | .avx => s.env.cpuid1Ecx.getLsbD 28
  | .avx2 => s.env.cpuid7Ebx.getLsbD 5
  | .bmi2 => s.env.cpuid7Ebx.getLsbD 8

end Sys2Proof.Machine
end

