-- ==== Sys2Proof/Machine/Ops.lean ====
section
/-! DEFINITION. The named operations: registers, memory, addresses, and raising an exception. -/

namespace Sys2Proof.Machine

/-! ## Raising an exception (60_exceptions.md R220, R240)

An exception in scope ends the run; nothing has been written, and `rip` is still the address of the faulting instruction.
Delivery and return are outside the spec (00_scope.md R2; 60_exceptions.md R240, R241). -/

/-- The vector numbers (60_exceptions.md R220). -/
def Exn.vector : Exn → Nat
  | .ud => 6
  | .nm => 7
  | .ss => 12
  | .gp => 13
  | .pf _ _ => 14
  | .mf => 16
  | .ac => 17

/-- The error codes: none, 0, or the page fault's (60_exceptions.md R220, R231). -/
def Exn.errorCode : Exn → Option (BitVec 32)
  | .ud | .nm | .mf => none
  | .ss | .gp | .ac => some 0#32
  | .pf code _ => some code

/-- The faulting linear address of a page fault (60_exceptions.md R231). -/
def Exn.cr2 : Exn → Option Word
  | .pf _ a => some a
  | _ => none

/-- The fault outcome of an exception raised in a state (60_exceptions.md R240). -/
def faultOutcome (x : Exn) (s : State) : FaultOutcome := ⟨x.vector, x.errorCode, x.cr2, s.rip⟩

/-- TAKING AN EXCEPTION, the one operation: the step ends with the fault outcome (60_exceptions.md R240, R242). -/
def raise {α : Type} (x : Exn) (s : State) : Res α := .error (.fault (.exception (faultOutcome x s)))

/-- A refusal, as the result of a part of a step. -/
def refuse {α : Type} (r : Refusal) : Res α := .error (.refused r)

/-! ## The instruction pointer -/

/-- The low 32 bits, zero-extended. -/
def low32 (a : Word) : Word := (a.setWidth 32).setWidth 64

/-- `rip + len`, modulo 2^32 in 32-bit mode (10_state.md R12). -/
def State.nextRip (s : State) (len : Nat) : Word :=
  if s.env.mode64 then s.rip + BitVec.ofNat 64 len else low32 (s.rip + BitVec.ofNat 64 len)

/-- `s` with another instruction pointer. -/
def State.setRip (s : State) (a : Word) : State := { s with rip := a }

/-- A stop as the outcome of a step. -/
def Stop.outcome : Stop → Host.Outcome State Fault Refusal
  | .fault f => .fault f
  | .refused r => .refused r

/-- The end of every meaning: with the state after the writes, `rip <- rip + len` (10_state.md R12); with a stop, the
stop, and none of the writes (60_exceptions.md R240). -/
def finish (len : Nat) (s : State) : Res State → Host.Outcome State Fault Refusal
  | .ok t => .next (t.setRip (s.nextRip len))
  | .error e => e.outcome

/-! ## Registers -/

/-- `GPR[n]` (10_state.md R10). -/
def State.reg64 (s : State) (n : BitVec 4) : Word := s.gpr[n.toNat]'n.isLt

/-- `GPR[n][31:0]` (10_state.md R10). -/
def State.reg32 (s : State) (n : BitVec 4) : BitVec 32 := (s.reg64 n).setWidth 32

/-- `GPR[n][15:0]` (10_state.md R10). -/
def State.reg16 (s : State) (n : BitVec 4) : BitVec 16 := (s.reg64 n).setWidth 16

/-- `GPR[n][7:0]`, never AH, CH, DH or BH (10_state.md R10). -/
def State.reg8 (s : State) (n : BitVec 4) : BitVec 8 := (s.reg64 n).setWidth 8

/-- `GPR[n] <- v`, all 64 bits (10_state.md R11). -/
def State.setReg64 (s : State) (n : BitVec 4) (v : Word) : State := { s with gpr := s.gpr.set n.toNat v n.isLt }

/-- `GPR32[n] <- v`: bits 31:0, and bits 63:32 become zero (10_state.md R11; in 32-bit mode those bits do not exist and the
model keeps them zero, notes/assumptions/10.md). -/
def State.setReg32 (s : State) (n : BitVec 4) (v : BitVec 32) : State := s.setReg64 n (v.setWidth 64)

/-- `YMM[n]` (10_state.md R17). -/
def State.ymmReg (s : State) (n : BitVec 4) : BitVec 256 := s.ymm[n.toNat]'n.isLt

/-- `XMM[n]`, bits 127:0 of `YMM[n]` (10_state.md R17). -/
def State.xmm (s : State) (n : BitVec 4) : BitVec 128 := (s.ymmReg n).setWidth 128

/-- `YMM[n] <- v`, all 256 bits: the write of a VEX.256 form (10_state.md R18). -/
def State.setYmm (s : State) (n : BitVec 4) (v : BitVec 256) : State := { s with ymm := s.ymm.set n.toNat v n.isLt }

/-- The write of a legacy SSE form: bits 127:0, bits 255:128 unchanged (10_state.md R18). -/
def State.setXmmKeep (s : State) (n : BitVec 4) (v : BitVec 128) : State :=
  s.setYmm n ((s.ymmReg n).extractLsb' 128 128 ++ v)

/-- The write of a VEX.128 form: bits 127:0, bits 255:128 zero (10_state.md R18). -/
def State.setXmmZero (s : State) (n : BitVec 4) (v : BitVec 128) : State := s.setYmm n (0#128 ++ v)

/-- `MM[n]`, bits 63:0 of the x87 register Rn (10_state.md R15, R16). -/
def State.mm (s : State) (n : BitVec 3) : BitVec 64 := (s.x87[n.toNat]'n.isLt).setWidth 64

/-- `MM[n] <- v`: bits 79:64 of Rn become all ones (10_state.md R16). -/
def State.setMm (s : State) (n : BitVec 3) (v : BitVec 64) : State :=
  { s with x87 := s.x87.set n.toNat (0xFFFF#16 ++ v) n.isLt }

/-- What every legacy MMX form does to the x87 state: FPU.TOP is 0 and every tag is 00B, valid (10_state.md R16). -/
def State.touchX87 (s : State) : State := { s with fpuTop := 0#3, fpuTag := 0#16 }

/-! ## Memory, byte by byte (20_memory.md R30) -/

/-- The byte at an address, where one has been given. -/
def Memory.read (a : Nat) : Memory → Option Byte
  | [] => none
  | (k, v) :: t => if k = a then some v else Memory.read a t

/-- Memory with a byte written; the addresses stay strictly rising. -/
def Memory.write (a : Nat) (v : Byte) : Memory → Memory
  | [] => [(a, v)]
  | (k, u) :: t =>
    if a < k then (a, v) :: (k, u) :: t
    else if a = k then (a, v) :: t
    else (k, u) :: Memory.write a v t

/-- The canonical form: addresses strictly rising. An unlisted address reads as no value, so no entry can equal it. -/
def Memory.wf : Memory → Bool
  | [] => true
  | [_] => true
  | (a, _) :: (b, v) :: t => decide (a < b) && Memory.wf ((b, v) :: t)

/-- The bytes written one after another at the addresses. -/
def Memory.writeAll (m : Memory) : List Nat → List Byte → Memory
  | a :: as, v :: vs => Memory.writeAll (m.write a v) as vs
  | _, _ => m

/-- The bytes at the addresses; one that nothing has written is a fault (10_state.md R22). -/
def Memory.readAll (m : Memory) : List Nat → Res (List Byte)
  | [] => .ok []
  | a :: as =>
    match m.read a with
    | none => .error (.fault (.unwrittenByte a))
    | some v => (Memory.readAll m as).map (v :: ·)

/-- The value of bytes, the first its least significant (20_memory.md R30). -/
def ofBytes (w : Nat) : List Byte → BitVec w
  | [] => 0#w
  | v :: vs => v.setWidth w ||| (ofBytes w vs <<< 8)

/-! ## Linear addresses (20_memory.md R31, R32) -/

/-- A linear address as wide as the mode: modulo 2^64, or modulo 2^32 (20_memory.md R31). -/
def State.wrapLin (s : State) (a : Word) : Word := if s.env.mode64 then a else low32 a

/-- `SegBase` and the check of a segment register (20_memory.md R38). -/
def State.seg (s : State) : Seg → SegReg
  | .es => s.env.segs.es
  | .cs => s.env.segs.cs
  | .ss => s.env.segs.ss
  | .ds => s.env.segs.ds
  | .fs => s.env.segs.fs
  | .gs => s.env.segs.gs

/-- The base that counts: in 64-bit mode that of FS and GS only (20_memory.md R31). -/
def State.segBase (s : State) (g : Seg) : Word :=
  if s.env.mode64 && !(g == .fs || g == .gs) then 0#64 else (s.seg g).base

/-- The linear address of an offset in a segment (20_memory.md R31). -/
def State.linear (s : State) (g : Seg) (off : Word) : Word := s.wrapLin (s.segBase g + off)

/-- The linear addresses of `n` bytes from one on (notes/assumptions/11.md: they wrap with the mode's address width). -/
def State.linBytes (s : State) (lin : Word) (n : Nat) : List Word :=
  (List.range n).map fun i => s.wrapLin (lin + BitVec.ofNat 64 i)

/-- Bits 63:47 are all equal (20_memory.md R32). -/
def canonical (a : Word) : Bool := a.extractLsb' 47 17 == 0#17 || a.extractLsb' 47 17 == BitVec.allOnes 17

/-- `SegLimitOK(seg, off, n, write)` (20_memory.md R32, R38). -/
def SegCheck.ok (off : Word) (n : Nat) (write : Bool) : SegCheck → Bool
  | .flat => true
  | .limited limit usable writable => usable && (!write || writable) && decide (off.toNat + n ≤ limit.toNat + 1)

/-- The segment check: in 64-bit mode every byte canonical, in 32-bit mode `SegLimitOK` (20_memory.md R32, step 1). -/
def State.segOk (s : State) (g : Seg) (off : Word) (n : Nat) (write : Bool) : Bool :=
  if s.env.mode64 then (s.linBytes (s.linear g off) n).all canonical else (s.seg g).check.ok off n write

/-! ## Translation (20_memory.md R40) -/

/-- An address lies in a range. -/
def Range.has (r : Range) (a : Nat) : Bool := decide (r.lo ≤ a) && decide (a < r.lo + r.len)

/-- The rule of `Translate` that applies to a byte: the first for its address, its kind of access and the CPL. -/
def State.transRule (s : State) (k : Access) (a : Word) : Option TransRule :=
  s.env.trans.find? fun r => r.access == k && r.cpl == s.env.cpl && r.range.has a.toNat

/-- The physical address of a byte; none where translation faults; the identity where no rule applies (20_memory.md R40). -/
def State.physical (s : State) (k : Access) (a : Word) : Option Nat :=
  match s.transRule k a with
  | none => some a.toNat
  | some ⟨r, _, _, .to base⟩ => some (base + (a.toNat - r.lo))
  | some ⟨_, _, _, .pageFault _⟩ => none

/-- The bytes for which translation faults, each with its rule and the error code. -/
def State.faultingBytes (s : State) (k : Access) (as : List Word) : List (Word × TransRule × BitVec 32) :=
  as.filterMap fun a =>
    match s.transRule k a with
    | some ⟨r, x, c, .pageFault code⟩ => some (a, ⟨r, x, c, .pageFault code⟩, code)
    | _ => none

/-- The page fault of an access, if any of its bytes faults: the error code, and the lowest faulting byte of the page
that is reported; which of two faulting pages that is, is the parameter `pfReportLast` (60_exceptions.md R231). DESIGN
CHOICE (notes/assumptions/7.md): the bytes to which one and the same rule of `Translate` applies count as one page. -/
def State.pageFault (s : State) (k : Access) (as : List Word) : Option Exn :=
  let fs := s.faultingBytes k as
  match (if s.env.pfReportLast then fs.getLast? else fs.head?) with
  | none => none
  | some f => (fs.find? fun g => g.2.1 == f.2.1).map fun g => .pf g.2.2 g.1

/-- Alignment checking applies to the operand (60_exceptions.md R232): CR0.AM, EFLAGS.AC, CPL 3, and 2, 4 or 8 bytes at a
linear address that is not a multiple of their number. -/
def State.misaligned (s : State) (lin : Word) (n : Nat) : Bool :=
  cr0AM s && rflagsAC s && s.env.cpl == 3#2 && (n == 2 || n == 4 || n == 8) && lin.toNat % n != 0

/-- The physical addresses of an operand after the checks of 20_memory.md R32, in the order of 60_exceptions.md R235:
segment or canonical, 16-byte alignment where the form asks for it (20_memory.md R35, R36), translation, alignment check. Where both of the last two apply, which
is reported is free (60_exceptions.md R236; notes/assumptions/8.md). -/
def State.operandAddrs (s : State) (g : Seg) (off : Word) (n : Nat) (k : Access) (align16 : Bool) : Res (List Nat) :=
  let lin := s.linear g off
  let as := s.linBytes lin n
  if !s.segOk g off n (k == .write) then raise (if g == .ss then .ss else .gp) s
  else if align16 && lin.toNat % 16 != 0 then raise .gp s
  else
    match s.pageFault k as, s.misaligned lin n with
    | none, false => .ok (as.filterMap (s.physical k))
    | none, true => raise .ac s
    | some pf, false => raise pf s
    | some pf, true => if Config.acBeforePf s.rip lin n then raise .ac s else raise pf s

/-! ## Access (20_memory.md R33, R34, R41, R44) -/

/-- The physical address is in PHYS_MEM (20_memory.md R41). By default that is the set of bytes given at launch (decision
D4): the bytes that memory lists, since a store outside PHYS_MEM is refused and none unlists a byte. -/
def State.inPhysMem (s : State) (a : Nat) : Bool :=
  match s.env.physMem with
  | none => (s.mem.read a).isSome
  | some rs => rs.any (·.has a)

/-- The bytes at physical addresses: refused outside PHYS_MEM (20_memory.md R41). -/
def State.readBytes (s : State) (as : List Nat) : Res (List Byte) :=
  match as.find? fun a => !s.inPhysMem a with
  | some a => refuse (.outsidePhysMem a)
  | none => s.mem.readAll as

/-- `MemRead(seg, off, w/8)` (20_memory.md R33). -/
def State.memRead (w : Nat) (align16 : Bool) (s : State) (g : Seg) (off : Word) : Res (BitVec w) := do
  let as ← s.operandAddrs g off (w / 8) .read align16
  let vs ← s.readBytes as
  return ofBytes w vs

/-- The physical addresses of the program text (20_memory.md R44). DESIGN CHOICE (notes/assumptions/31.md): the text is located
by the translation of its execute accesses, and a text byte for which that faults has no address here. -/
def State.textAddrs (s : State) : List Nat :=
  match s.env.text with
  | none => []
  | some t => (List.range t.len).filterMap fun i => s.physical .fetch (s.linear .cs (t.start + BitVec.ofNat 64 i))

/-- Bytes stored at physical addresses: refused outside PHYS_MEM (20_memory.md R41) and into the program text (R44). -/
def State.writeBytes (s : State) (as : List Nat) (vs : List Byte) : Res State :=
  match as.find? fun a => !s.inPhysMem a with
  | some a => refuse (.outsidePhysMem a)
  | none =>
    match as.find? fun a => s.textAddrs.contains a with
    | some a => refuse (.storeIntoText a)
    | none => .ok { s with mem := s.mem.writeAll as vs }

/-- `MemWrite(seg, off, w/8, v)`: every check first, then exactly `w/8` bytes, little-endian (20_memory.md R34). -/
def State.memWrite {w : Nat} (s : State) (g : Seg) (off : Word) (v : BitVec w) : Res State := do
  let as ← s.operandAddrs g off (w / 8) .write false
  s.writeBytes as (leBytes (w / 8) v)

end Sys2Proof.Machine
end

