-- ==== Sys2Proof/Machine/Operands.lean ====
section
/-! DEFINITION. Operands and what comes before them: the effective address (spec/30_encoding.md R66 to R70), the checks that
a class of forms makes before it touches an operand (spec/60_exceptions.md R221 to R229, R233, R235), the r/m operand, and the
four encoding kinds of a two-source form (spec/43_phadd.md R143). -/

namespace Sys2Proof.Machine

/-! ## Effective address -/

/-- Address sizes (30_encoding.md R66). -/
inductive AddrSize where
  | a16 | a32 | a64
  deriving DecidableEq, Repr

/-- The address size: 64, or 32 with a 67 prefix; in 32-bit mode 32, or 16 with a 67 prefix (30_encoding.md R66). -/
def addrSize (mode64 : Bool) (ps : List Prefix) : AddrSize :=
  match mode64, hasAddrSize ps with
  | true, false => .a64
  | true, true => .a32
  | false, false => .a32
  | false, true => .a16

/-- A value modulo 2^A, zero-extended (30_encoding.md R66). -/
def AddrSize.trunc : AddrSize → Word → Word
  | .a16, v => (v.setWidth 16).setWidth 64
  | .a32, v => low32 v
  | .a64, v => v

/-- A displacement, sign-extended (30_encoding.md R63). -/
def dispValue {w : Nat} : Disp w → Word
  | .none => 0#64
  | .d8 d => d.signExtend 64
  | .full d => d.signExtend 64

/-- `reg_A(n)`, the low A bits of a general register (30_encoding.md R67). -/
def State.regA (s : State) (a : AddrSize) (n : BitVec 4) : Word := a.trunc (s.reg64 n)

/-- The index of a SIB byte: number 4 is none, else the register times 2^scale (30_encoding.md R67). -/
def State.sibIndex (s : State) (a : AddrSize) (idx : BitVec 4) (scale : BitVec 2) : Word :=
  if idx == 4#4 then 0#64 else s.regA a idx <<< scale.toNat

/-- The default segment of a base register: SS for rSP and rBP (30_encoding.md R67). -/
def baseSeg (b : BitVec 4) : Seg := if b == 4#4 || b == 5#4 then .ss else .ds

/-- The sum of registers of a 16-bit form (30_encoding.md R70): BX = 3, BP = 5, SI = 6, DI = 7. -/
def State.sum16 (s : State) (rm : BitVec 3) : Word :=
  match rm.toNat with
  | 0 => s.reg64 3#4 + s.reg64 6#4
  | 1 => s.reg64 3#4 + s.reg64 7#4
  | 2 => s.reg64 5#4 + s.reg64 6#4
  | 3 => s.reg64 5#4 + s.reg64 7#4
  | 4 => s.reg64 6#4
  | 5 => s.reg64 7#4
  | 6 => s.reg64 5#4
  | _ => s.reg64 3#4

/-- The default segment of a 16-bit form: SS where BP takes part (30_encoding.md R70). -/
def seg16 (rm : BitVec 3) : Seg := if rm == 2#3 || rm == 3#3 || rm == 6#3 then .ss else .ds

/-- The default segment of a memory operand (30_encoding.md R67, R68, R70). -/
def defaultSeg : MemOp → Seg
  | .base b _ => baseSeg b
  | .sib b _ _ _ => baseSeg b
  | .sibAbs _ _ _ => .ds
  | .abs _ => .ds
  | .m16 rm _ => seg16 rm
  | .m16abs _ => .ds

/-- A segment override that counts: all six in 32-bit mode, FS and GS in 64-bit mode (30_encoding.md R52, R69). -/
def overrideSeg (mode64 : Bool) : Prefix → Option Seg
  | .seg g => if mode64 && !(g == .fs || g == .gs) then none else some g
  | _ => none

/-- The segment of a memory operand: the last override that counts, else the default (30_encoding.md R52, R69). -/
def operandSeg (mode64 : Bool) (ps : List Prefix) (o : MemOp) : Seg :=
  ((ps.filterMap (overrideSeg mode64)).getLast?).getD (defaultSeg o)

/-- The offset of a memory operand before it is cut to A bits; `len` is the instruction's length, which RIP-relative
addressing in 64-bit mode counts (30_encoding.md R67, R68, R70). -/
def State.offsetSum (s : State) (a : AddrSize) (len : Nat) : MemOp → Word
  | .base b d => s.regA a b + dispValue d
  | .sib b idx sc d => s.regA a b + s.sibIndex a idx sc + dispValue d
  | .sibAbs idx sc d => s.sibIndex a idx sc + d.signExtend 64
  | .abs d => if s.env.mode64 then s.nextRip len + d.signExtend 64 else d.signExtend 64
  | .m16 rm d => s.sum16 rm + dispValue d
  | .m16abs d => d.signExtend 64

/-- The effective offset, an A-bit value, zero-extended (30_encoding.md R66). -/
def State.offset (s : State) (ps : List Prefix) (len : Nat) (o : MemOp) : Word :=
  let a := addrSize s.env.mode64 ps
  a.trunc (s.offsetSum a len o)

/-- `MemRead` at the effective address (20_memory.md R33; 30_encoding.md R66 to R70). -/
def State.loadMem (w : Nat) (align16 : Bool) (ps : List Prefix) (len : Nat) (o : MemOp) (s : State) : Res (BitVec w) :=
  s.memRead w align16 (operandSeg s.env.mode64 ps o) (s.offset ps len o)

/-- `MemWrite` at the effective address (20_memory.md R34; 30_encoding.md R66 to R70). -/
def State.storeMem {w : Nat} (ps : List Prefix) (len : Nat) (o : MemOp) (v : BitVec w) (s : State) : Res State :=
  s.memWrite (operandSeg s.env.mode64 ps o) (s.offset ps len o) v

/-- An r/m source: the register, as `reg` reads it, or `w/8` bytes of memory (30_encoding.md R61). -/
def loadRM {k : Nat} (w : Nat) (align16 : Bool) (ps : List Prefix) (len : Nat) (reg : BitVec k → BitVec w) (o : RM k)
    (s : State) : Res (BitVec w) :=
  match o with
  | .reg n => .ok (reg n)
  | .mem m => s.loadMem w align16 ps len m

/-- An r/m destination of up to 32 bits: the whole general register, zero-extended, or exactly `w/8` bytes of memory
(41_pextrb_pextrd_pextrq.md R117; 42_pextrw.md R126). -/
def storeRM32 {w : Nat} (ps : List Prefix) (len : Nat) (v : BitVec w) (o : RM 4) (s : State) : Res State :=
  match o with
  | .reg n => .ok (s.setReg32 n (v.setWidth 32))
  | .mem m => s.storeMem ps len m v

/-- An r/m destination of 64 bits (41_pextrb_pextrd_pextrq.md R117). -/
def storeRM64 (ps : List Prefix) (len : Nat) (v : Word) (o : RM 4) (s : State) : Res State :=
  match o with
  | .reg n => .ok (s.setReg64 n v)
  | .mem m => s.storeMem ps len m v

/-- The r/m operand is in memory, which a form that takes a register only answers with #UD (30_encoding.md R73 item 7). -/
def rmIsMem {k : Nat} : RM k → Bool
  | .reg _ => false
  | .mem _ => true

/-! ## Checks before the operands, in the order #UD, #NM, #MF (60_exceptions.md R235) -/

/-- The rest of the checks after #UD: #NM if CR0.TS = 1 (60_exceptions.md R228). -/
def checkNM (s : State) : Res Unit := if cr0TS s then raise .nm s else .ok ()

/-- A legacy SSE form (60_exceptions.md R221, R222, R224, R228, R233); `ud` is a further #UD condition of the form. -/
def checkSse (f : Feature) (ud : Bool) (e : LegEnc) (s : State) : Res Unit :=
  if hasLock e.prefixes || ud || !cpuid f s || cr0EM s || !cr4OSFXSR s then raise .ud s else checkNM s

/-- A legacy MMX form (60_exceptions.md R221, R222, R226, R228, R229, R233, class D). -/
def checkMmx (f : Feature) (ud : Bool) (e : LegEnc) (s : State) : Res Unit :=
  if hasLock e.prefixes || ud || !cpuid f s || cr0EM s then raise .ud s
  else if cr0TS s then raise .nm s
  else if s.env.x87Pending then raise .mf s
  else .ok ()

/-- A VEX vector form (60_exceptions.md R222, R225, R228, R233; 30_encoding.md R59, R73); `ud` is a further #UD condition of
the form, `w0` says that VEX.W = 1 in 32-bit mode is refused (93_implementation_defined.md U4). -/
def checkVex (f : Feature) (ud w0 : Bool) (e : VexEnc) (s : State) : Res Unit :=
  if vexForbidden e.prefixes e.rex || ud || !cpuid f s || !cr4OSXSAVE s || !(xcr0SSE s && xcr0AVX s) then raise .ud s
  else if w0 && e.w && !s.env.mode64 then refuse .vexWOutside64
  else checkNM s

/-- PEXT (60_exceptions.md R227): no control bit is examined. -/
def checkPext (e : VexEnc) (s : State) : Res Unit :=
  if vexForbidden e.prefixes e.rex || e.l || !cpuid .bmi2 s then raise .ud s else .ok ()

/-- VEX.vvvv is not 1111B, where it is reserved; in 32-bit mode the low three stored bits count (30_encoding.md R73). -/
def vvvvUsed (e : VexEnc) (s : State) : Bool := vvvvReg s.env.mode64 e.vvvv != 0#4

/-! ## The four encoding kinds of a form with two sources (43_phadd.md R143; 45_phsub.md R173; 48_pmaddubsw.md R205;
49_pmaddwd.md R215) -/

/-- Legacy MMX: `MM[dst] <- g(MM[dst], src)`, with the x87 side effects. -/
def mmxForm (f : Feature) (g : BitVec 64 → BitVec 64 → BitVec 64) (e : LegEnc) (dst : BitVec 3) (src : RM 3) (s : State) :
    Host.Outcome State Fault Refusal :=
  finish e.len s do
    checkMmx f false e s
    let b ← loadRM 64 false e.prefixes e.len s.mm src s
    return (s.setMm dst (g (s.mm dst) b)).touchX87

/-- Legacy SSE: `XMM[dst] <- g(XMM[dst], src)`, a memory source 16-byte aligned, bits 255:128 unchanged. -/
def sseForm (f : Feature) (g : BitVec 128 → BitVec 128 → BitVec 128) (e : LegEnc) (dst : BitVec 4) (src : RM 4)
    (s : State) : Host.Outcome State Fault Refusal :=
  finish e.len s do
    checkSse f false e s
    let b ← loadRM 128 true e.prefixes e.len s.xmm src s
    return s.setXmmKeep dst (g (s.xmm dst) b)

/-- VEX.128: `XMM[dst] <- g(XMM[src1], src2)`, bits 255:128 zero; a memory source is aligned only if VEX_M128_ALIGN. -/
def vex128Form (f : Feature) (g : BitVec 128 → BitVec 128 → BitVec 128) (e : VexEnc) (dst src1 : BitVec 4) (src2 : RM 4)
    (s : State) : Host.Outcome State Fault Refusal :=
  finish e.len s do
    checkVex f false false e s
    let b ← loadRM 128 s.env.vexM128Align e.prefixes e.len s.xmm src2 s
    return s.setXmmZero dst (g (s.xmm src1) b)

/-- VEX.256: `YMM[dst] <- g(YMM[src1], src2)`, a memory source at any address. -/
def vex256Form (f : Feature) (g : BitVec 256 → BitVec 256 → BitVec 256) (e : VexEnc) (dst src1 : BitVec 4) (src2 : RM 4)
    (s : State) : Host.Outcome State Fault Refusal :=
  finish e.len s do
    checkVex f false false e s
    let b ← loadRM 256 false e.prefixes e.len s.ymmReg src2 s
    return s.setYmm dst (g (s.ymmReg src1) b)

end Sys2Proof.Machine
end

