-- ==== Sys2Proof/Machine/Pext.lean ====
section
/-! DEFINITION. PEXT (spec/40_pext.md). -/

namespace Sys2Proof.Machine

/-- PEXT r32a, r32b, r/m32 (40_pext.md R100). -/
def execPextR32 (e : VexEnc) (dst src : BitVec 4) (mask : RM 4) (s : State) : Host.Outcome State Fault Refusal :=
  finish e.len s do
    checkPext e s
    let m ← loadRM 32 false e.prefixes e.len s.reg32 mask s
    return s.setReg32 dst (pext (s.reg32 src) m)

/-- PEXT r64a, r64b, r/m64 (40_pext.md R101): 64-bit mode only, where no bytes mean it otherwise. -/
def execPextR64 (e : VexEnc) (dst src : BitVec 4) (mask : RM 4) (s : State) : Host.Outcome State Fault Refusal :=
  finish e.len s do
    if !s.env.mode64 then refuse .notEncodable
    checkPext e s
    let m ← loadRM 64 false e.prefixes e.len s.reg64 mask s
    return s.setReg64 dst (pext (s.reg64 src) m)

end Sys2Proof.Machine
end

