-- ==== Sys2Proof/Machine/Pextr.lean ====
section
/-! DEFINITION. PEXTRB, PEXTRD, PEXTRQ and their VEX forms (spec/41_pextrb_pextrd_pextrq.md). -/

namespace Sys2Proof.Machine

/-- `imm8` modulo the number of elements: the selector (41_pextrb_pextrd_pextrq.md R116; 42_pextrw.md R126;
46_pinsrb_pinsrd_pinsrq.md R187; 47_pinsrw.md R190). -/
def sel (elements : Nat) (imm : Byte) : Nat := imm.toNat % elements

/-- PEXTRB reg/m8, xmm2, imm8 (41_pextrb_pextrd_pextrq.md R110). -/
def execPextrb (e : LegEnc) (dst : RM 4) (src : BitVec 4) (imm : Byte) (s : State) : Host.Outcome State Fault Refusal :=
  finish e.len s do
    checkSse .sse41 false e s
    storeRM32 e.prefixes e.len (elem 8 (s.xmm src) (sel 16 imm)) dst s

/-- PEXTRD r/m32, xmm2, imm8 (41_pextrb_pextrd_pextrq.md R111). -/
def execPextrd (e : LegEnc) (dst : RM 4) (src : BitVec 4) (imm : Byte) (s : State) : Host.Outcome State Fault Refusal :=
  finish e.len s do
    checkSse .sse41 false e s
    storeRM32 e.prefixes e.len (elem 32 (s.xmm src) (sel 4 imm)) dst s

/-- PEXTRQ r/m64, xmm2, imm8 (41_pextrb_pextrd_pextrq.md R112): 64-bit mode only, not encodable otherwise. -/
def execPextrq (e : LegEnc) (dst : RM 4) (src : BitVec 4) (imm : Byte) (s : State) : Host.Outcome State Fault Refusal :=
  finish e.len s do
    if !s.env.mode64 then refuse .notEncodable
    checkSse .sse41 false e s
    storeRM64 e.prefixes e.len (elem 64 (s.xmm src) (sel 2 imm)) dst s

/-- VPEXTRB reg/m8, xmm2, imm8 (41_pextrb_pextrd_pextrq.md R113; 30_encoding.md R73 items 1, 2). -/
def execVpextrb (e : VexEnc) (dst : RM 4) (src : BitVec 4) (imm : Byte) (s : State) : Host.Outcome State Fault Refusal :=
  finish e.len s do
    checkVex .avx (e.l || vvvvUsed e s) true e s
    storeRM32 e.prefixes e.len (elem 8 (s.xmm src) (sel 16 imm)) dst s

/-- VPEXTRD r32/m32, xmm2, imm8 (41_pextrb_pextrd_pextrq.md R114; 30_encoding.md R73 items 1, 2). -/
def execVpextrd (e : VexEnc) (dst : RM 4) (src : BitVec 4) (imm : Byte) (s : State) : Host.Outcome State Fault Refusal :=
  finish e.len s do
    checkVex .avx (e.l || vvvvUsed e s) false e s
    storeRM32 e.prefixes e.len (elem 32 (s.xmm src) (sel 4 imm)) dst s

/-- VPEXTRQ r64/m64, xmm2, imm8 (41_pextrb_pextrd_pextrq.md R115): #UD outside 64-bit mode (30_encoding.md R73 items 1, 2, 4). -/
def execVpextrq (e : VexEnc) (dst : RM 4) (src : BitVec 4) (imm : Byte) (s : State) : Host.Outcome State Fault Refusal :=
  finish e.len s do
    checkVex .avx (e.l || vvvvUsed e s || !s.env.mode64) false e s
    storeRM64 e.prefixes e.len (elem 64 (s.xmm src) (sel 2 imm)) dst s

end Sys2Proof.Machine
end

