-- ==== Sys2Proof/Machine/Pextrw.lean ====
section
/-! DEFINITION. PEXTRW and VPEXTRW (spec/42_pextrw.md). -/

namespace Sys2Proof.Machine

/-- The register source of an RMI form; a memory operand has been answered with #UD before (42_pextrw.md R120). -/
def regSource {k : Nat} : RM k → BitVec k
  | .reg n => n
  | .mem _ => 0#k

/-- PEXTRW reg, mm, imm8, opcode 0F C5 (42_pextrw.md R121). -/
def execPextrwMmx (e : LegEnc) (dst : BitVec 4) (src : RM 3) (imm : Byte) (s : State) : Host.Outcome State Fault Refusal :=
  finish e.len s do
    checkMmx .sse (rmIsMem src) e s
    return (s.setReg32 dst ((elem 16 (s.mm (regSource src)) (sel 4 imm)).setWidth 32)).touchX87

/-- PEXTRW reg, xmm, imm8, opcode 66 0F C5 (42_pextrw.md R122). -/
def execPextrwXmm (e : LegEnc) (dst : BitVec 4) (src : RM 4) (imm : Byte) (s : State) : Host.Outcome State Fault Refusal :=
  finish e.len s do
    checkSse .sse2 (rmIsMem src) e s
    return s.setReg32 dst ((elem 16 (s.xmm (regSource src)) (sel 8 imm)).setWidth 32)

/-- PEXTRW reg/m16, xmm, imm8, opcode 66 0F 3A 15 (42_pextrw.md R123). -/
def execPextrwStore (e : LegEnc) (dst : RM 4) (src : BitVec 4) (imm : Byte) (s : State) : Host.Outcome State Fault Refusal :=
  finish e.len s do
    checkSse .sse41 false e s
    storeRM32 e.prefixes e.len (elem 16 (s.xmm src) (sel 8 imm)) dst s

/-- VPEXTRW reg, xmm1, imm8, opcode VEX 0F C5 (42_pextrw.md R124; 30_encoding.md R73 items 1, 2, 7). -/
def execVpextrw (e : VexEnc) (dst : BitVec 4) (src : RM 4) (imm : Byte) (s : State) : Host.Outcome State Fault Refusal :=
  finish e.len s do
    checkVex .avx (e.l || vvvvUsed e s || rmIsMem src) true e s
    return s.setReg32 dst ((elem 16 (s.xmm (regSource src)) (sel 8 imm)).setWidth 32)

/-- VPEXTRW reg/m16, xmm2, imm8, opcode VEX 0F3A 15 (42_pextrw.md R125; 30_encoding.md R73 items 1, 2). -/
def execVpextrwStore (e : VexEnc) (dst : RM 4) (src : BitVec 4) (imm : Byte) (s : State) : Host.Outcome State Fault Refusal :=
  finish e.len s do
    checkVex .avx (e.l || vvvvUsed e s) true e s
    storeRM32 e.prefixes e.len (elem 16 (s.xmm src) (sel 8 imm)) dst s

end Sys2Proof.Machine
end

