-- ==== Sys2Proof/Machine/Phadd.lean ====
section
/-! DEFINITION. PHADDW, PHADDD, PHADDSW and their VEX forms (spec/43_phadd.md). -/

namespace Sys2Proof.Machine

/-- PHADDW mm1, mm2/m64 (43_phadd.md R131). -/
def execPhaddwMmx (e : LegEnc) (dst : BitVec 3) (src : RM 3) (s : State) : Host.Outcome State Fault Refusal :=
  mmxForm .ssse3 (hpair (w := 16) addW) e dst src s

/-- PHADDW xmm1, xmm2/m128 (43_phadd.md R132). -/
def execPhaddwXmm (e : LegEnc) (dst : BitVec 4) (src : RM 4) (s : State) : Host.Outcome State Fault Refusal :=
  sseForm .ssse3 (hpair (w := 16) addW) e dst src s

/-- PHADDD mm1, mm2/m64 (43_phadd.md R133). -/
def execPhadddMmx (e : LegEnc) (dst : BitVec 3) (src : RM 3) (s : State) : Host.Outcome State Fault Refusal :=
  mmxForm .ssse3 (hpair (w := 32) addW) e dst src s

/-- PHADDD xmm1, xmm2/m128 (43_phadd.md R134). -/
def execPhadddXmm (e : LegEnc) (dst : BitVec 4) (src : RM 4) (s : State) : Host.Outcome State Fault Refusal :=
  sseForm .ssse3 (hpair (w := 32) addW) e dst src s

/-- VPHADDW xmm1, xmm2, xmm3/m128 (43_phadd.md R135). -/
def execVphaddwXmm (e : VexEnc) (dst src1 : BitVec 4) (src2 : RM 4) (s : State) : Host.Outcome State Fault Refusal :=
  vex128Form .avx (hpair (w := 16) addW) e dst src1 src2 s

/-- VPHADDD xmm1, xmm2, xmm3/m128 (43_phadd.md R136). -/
def execVphadddXmm (e : VexEnc) (dst src1 : BitVec 4) (src2 : RM 4) (s : State) : Host.Outcome State Fault Refusal :=
  vex128Form .avx (hpair (w := 32) addW) e dst src1 src2 s

/-- VPHADDW ymm1, ymm2, ymm3/m256 (43_phadd.md R137). -/
def execVphaddwYmm (e : VexEnc) (dst src1 : BitVec 4) (src2 : RM 4) (s : State) : Host.Outcome State Fault Refusal :=
  vex256Form .avx2 (hpair (w := 16) addW) e dst src1 src2 s

/-- VPHADDD ymm1, ymm2, ymm3/m256 (43_phadd.md R138). -/
def execVphadddYmm (e : VexEnc) (dst src1 : BitVec 4) (src2 : RM 4) (s : State) : Host.Outcome State Fault Refusal :=
  vex256Form .avx2 (hpair (w := 32) addW) e dst src1 src2 s

/-- PHADDSW mm1, mm2/m64 (43_phadd.md R139). -/
def execPhaddswMmx (e : LegEnc) (dst : BitVec 3) (src : RM 3) (s : State) : Host.Outcome State Fault Refusal :=
  mmxForm .ssse3 (hpair addS16) e dst src s

/-- PHADDSW xmm1, xmm2/m128 (43_phadd.md R140). -/
def execPhaddswXmm (e : LegEnc) (dst : BitVec 4) (src : RM 4) (s : State) : Host.Outcome State Fault Refusal :=
  sseForm .ssse3 (hpair addS16) e dst src s

/-- VPHADDSW xmm1, xmm2, xmm3/m128 (43_phadd.md R141). -/
def execVphaddswXmm (e : VexEnc) (dst src1 : BitVec 4) (src2 : RM 4) (s : State) : Host.Outcome State Fault Refusal :=
  vex128Form .avx (hpair addS16) e dst src1 src2 s

/-- VPHADDSW ymm1, ymm2, ymm3/m256; VEX.L = 1 is this form (90_conflicts.md C3) (43_phadd.md R142). -/
def execVphaddswYmm (e : VexEnc) (dst src1 : BitVec 4) (src2 : RM 4) (s : State) : Host.Outcome State Fault Refusal :=
  vex256Form .avx2 (hpair addS16) e dst src1 src2 s

end Sys2Proof.Machine
end

