-- ==== Sys2Proof/Machine/Phminposuw.lean ====
section
/-! DEFINITION. PHMINPOSUW and VPHMINPOSUW (spec/44_phminposuw.md). -/

namespace Sys2Proof.Machine

/-- PHMINPOSUW xmm1, xmm2/m128 (44_phminposuw.md R150): the destination is written only. -/
def execPhminposuw (e : LegEnc) (dst : BitVec 4) (src : RM 4) (s : State) : Host.Outcome State Fault Refusal :=
  sseForm .sse41 (fun _ v => minpos v) e dst src s

/-- VPHMINPOSUW xmm1, xmm2/m128 (44_phminposuw.md R151; 30_encoding.md R73 items 2, 3). -/
def execVphminposuw (e : VexEnc) (dst : BitVec 4) (src : RM 4) (s : State) : Host.Outcome State Fault Refusal :=
  finish e.len s do
    checkVex .avx (e.l || vvvvUsed e s) false e s
    let v ← loadRM 128 s.env.vexM128Align e.prefixes e.len s.xmm src s
    return s.setXmmZero dst (minpos v)

end Sys2Proof.Machine
end

