-- ==== Sys2Proof/Machine/Phsub.lean ====
section
/-! DEFINITION. PHSUBW, PHSUBD, PHSUBSW and their VEX forms (spec/45_phsub.md). -/

namespace Sys2Proof.Machine

/-- PHSUBW mm1, mm2/m64 (45_phsub.md R161). -/
def execPhsubwMmx (e : LegEnc) (dst : BitVec 3) (src : RM 3) (s : State) : Host.Outcome State Fault Refusal :=
  mmxForm .ssse3 (hpair (w := 16) subW) e dst src s

/-- PHSUBW xmm1, xmm2/m128 (45_phsub.md R162). -/
def execPhsubwXmm (e : LegEnc) (dst : BitVec 4) (src : RM 4) (s : State) : Host.Outcome State Fault Refusal :=
  sseForm .ssse3 (hpair (w := 16) subW) e dst src s

/-- PHSUBD mm1, mm2/m64 (45_phsub.md R163). -/
def execPhsubdMmx (e : LegEnc) (dst : BitVec 3) (src : RM 3) (s : State) : Host.Outcome State Fault Refusal :=
  mmxForm .ssse3 (hpair (w := 32) subW) e dst src s

/-- PHSUBD xmm1, xmm2/m128 (45_phsub.md R164). -/
def execPhsubdXmm (e : LegEnc) (dst : BitVec 4) (src : RM 4) (s : State) : Host.Outcome State Fault Refusal :=
  sseForm .ssse3 (hpair (w := 32) subW) e dst src s

/-- VPHSUBW xmm1, xmm2, xmm3/m128 (45_phsub.md R165). -/
def execVphsubwXmm (e : VexEnc) (dst src1 : BitVec 4) (src2 : RM 4) (s : State) : Host.Outcome State Fault Refusal :=
  vex128Form .avx (hpair (w := 16) subW) e dst src1 src2 s

/-- VPHSUBD xmm1, xmm2, xmm3/m128 (45_phsub.md R166). -/
def execVphsubdXmm (e : VexEnc) (dst src1 : BitVec 4) (src2 : RM 4) (s : State) : Host.Outcome State Fault Refusal :=
  vex128Form .avx (hpair (w := 32) subW) e dst src1 src2 s

/-- VPHSUBW ymm1, ymm2, ymm3/m256 (45_phsub.md R167). -/
def execVphsubwYmm (e : VexEnc) (dst src1 : BitVec 4) (src2 : RM 4) (s : State) : Host.Outcome State Fault Refusal :=
  vex256Form .avx2 (hpair (w := 16) subW) e dst src1 src2 s

/-- VPHSUBD ymm1, ymm2, ymm3/m256 (45_phsub.md R168). -/
def execVphsubdYmm (e : VexEnc) (dst src1 : BitVec 4) (src2 : RM 4) (s : State) : Host.Outcome State Fault Refusal :=
  vex256Form .avx2 (hpair (w := 32) subW) e dst src1 src2 s

/-- PHSUBSW mm1, mm2/m64 (45_phsub.md R169). -/
def execPhsubswMmx (e : LegEnc) (dst : BitVec 3) (src : RM 3) (s : State) : Host.Outcome State Fault Refusal :=
  mmxForm .ssse3 (hpair subS16) e dst src s

/-- PHSUBSW xmm1, xmm2/m128 (45_phsub.md R170). -/
def execPhsubswXmm (e : LegEnc) (dst : BitVec 4) (src : RM 4) (s : State) : Host.Outcome State Fault Refusal :=
  sseForm .ssse3 (hpair subS16) e dst src s

/-- VPHSUBSW xmm1, xmm2, xmm3/m128 (45_phsub.md R171). -/
def execVphsubswXmm (e : VexEnc) (dst src1 : BitVec 4) (src2 : RM 4) (s : State) : Host.Outcome State Fault Refusal :=
  vex128Form .avx (hpair subS16) e dst src1 src2 s

/-- VPHSUBSW ymm1, ymm2, ymm3/m256; VEX.L = 1 is this form (90_conflicts.md C3) (45_phsub.md R172). -/
def execVphsubswYmm (e : VexEnc) (dst src1 : BitVec 4) (src2 : RM 4) (s : State) : Host.Outcome State Fault Refusal :=
  vex256Form .avx2 (hpair subS16) e dst src1 src2 s

end Sys2Proof.Machine
end

