-- ==== Sys2Proof/Machine/Pinsr.lean ====
section
/-! DEFINITION. PINSRB, PINSRD, PINSRQ and their VEX forms (spec/46_pinsrb_pinsrd_pinsrq.md). -/

namespace Sys2Proof.Machine

/-- The legacy write pattern: one element of `XMM[dst]` replaced, bits 255:128 unchanged (46_pinsrb_pinsrd_pinsrq.md R180). -/
def insertKeep {w : Nat} (s : State) (dst : BitVec 4) (i : Nat) (t : BitVec w) : State :=
  s.setXmmKeep dst (insertElem (s.xmm dst) i t)

/-- The VEX write pattern: `XMM[src1]` with one element replaced, bits 255:128 zero (46_pinsrb_pinsrd_pinsrq.md R180). -/
def insertZero {w : Nat} (s : State) (dst src1 : BitVec 4) (i : Nat) (t : BitVec w) : State :=
  s.setXmmZero dst (insertElem (s.xmm src1) i t)

/-- PINSRB xmm1, r32/m8, imm8 (46_pinsrb_pinsrd_pinsrq.md R181). -/
def execPinsrb (e : LegEnc) (dst : BitVec 4) (src : RM 4) (imm : Byte) (s : State) : Host.Outcome State Fault Refusal :=
  finish e.len s do
    checkSse .sse41 false e s
    let t ← loadRM 8 false e.prefixes e.len s.reg8 src s
    return insertKeep s dst (sel 16 imm) t

/-- PINSRD xmm1, r/m32, imm8 (46_pinsrb_pinsrd_pinsrq.md R182). -/
def execPinsrd (e : LegEnc) (dst : BitVec 4) (src : RM 4) (imm : Byte) (s : State) : Host.Outcome State Fault Refusal :=
  finish e.len s do
    checkSse .sse41 false e s
    let t ← loadRM 32 false e.prefixes e.len s.reg32 src s
    return insertKeep s dst (sel 4 imm) t

/-- PINSRQ xmm1, r/m64, imm8 (46_pinsrb_pinsrd_pinsrq.md R183): 64-bit mode only, not encodable otherwise. -/
def execPinsrq (e : LegEnc) (dst : BitVec 4) (src : RM 4) (imm : Byte) (s : State) : Host.Outcome State Fault Refusal :=
  finish e.len s do
    if !s.env.mode64 then refuse .notEncodable
    checkSse .sse41 false e s
    let t ← loadRM 64 false e.prefixes e.len s.reg64 src s
    return insertKeep s dst (sel 2 imm) t

/-- VPINSRB xmm1, xmm2, r32/m8, imm8 (46_pinsrb_pinsrd_pinsrq.md R184; 30_encoding.md R73 item 3). -/
def execVpinsrb (e : VexEnc) (dst src1 : BitVec 4) (src2 : RM 4) (imm : Byte) (s : State) :
    Host.Outcome State Fault Refusal :=
  finish e.len s do
    checkVex .avx e.l true e s
    let t ← loadRM 8 false e.prefixes e.len s.reg8 src2 s
    return insertZero s dst src1 (sel 16 imm) t

/-- VPINSRD xmm1, xmm2, r/m32, imm8 (46_pinsrb_pinsrd_pinsrq.md R185; 30_encoding.md R73 item 3). -/
def execVpinsrd (e : VexEnc) (dst src1 : BitVec 4) (src2 : RM 4) (imm : Byte) (s : State) :
    Host.Outcome State Fault Refusal :=
  finish e.len s do
    checkVex .avx e.l false e s
    let t ← loadRM 32 false e.prefixes e.len s.reg32 src2 s
    return insertZero s dst src1 (sel 4 imm) t

/-- VPINSRQ xmm1, xmm2, r/m64, imm8 (46_pinsrb_pinsrd_pinsrq.md R186): #UD outside 64-bit mode (30_encoding.md R73 items 3, 5). -/
def execVpinsrq (e : VexEnc) (dst src1 : BitVec 4) (src2 : RM 4) (imm : Byte) (s : State) :
    Host.Outcome State Fault Refusal :=
  finish e.len s do
    checkVex .avx (e.l || !s.env.mode64) false e s
    let t ← loadRM 64 false e.prefixes e.len s.reg64 src2 s
    return insertZero s dst src1 (sel 2 imm) t

end Sys2Proof.Machine
end

