-- ==== Sys2Proof/Machine/Pinsrw.lean ====
section
/-! DEFINITION. PINSRW and VPINSRW (spec/47_pinsrw.md). -/

namespace Sys2Proof.Machine

/-- PINSRW mm, r32/m16, imm8 (47_pinsrw.md R191). -/
def execPinsrwMmx (e : LegEnc) (dst : BitVec 3) (src : RM 4) (imm : Byte) (s : State) : Host.Outcome State Fault Refusal :=
  finish e.len s do
    checkMmx .sse false e s
    let t ← loadRM 16 false e.prefixes e.len s.reg16 src s
    return (s.setMm dst (insertElem (s.mm dst) (sel 4 imm) t)).touchX87

/-- PINSRW xmm, r32/m16, imm8 (47_pinsrw.md R192). -/
def execPinsrwXmm (e : LegEnc) (dst : BitVec 4) (src : RM 4) (imm : Byte) (s : State) : Host.Outcome State Fault Refusal :=
  finish e.len s do
    checkSse .sse2 false e s
    let t ← loadRM 16 false e.prefixes e.len s.reg16 src s
    return insertKeep s dst (sel 8 imm) t

/-- VPINSRW xmm1, xmm2, r32/m16, imm8 (47_pinsrw.md R193; 30_encoding.md R73 item 3). -/
def execVpinsrw (e : VexEnc) (dst src1 : BitVec 4) (src2 : RM 4) (imm : Byte) (s : State) :
    Host.Outcome State Fault Refusal :=
  finish e.len s do
    checkVex .avx e.l true e s
    let t ← loadRM 16 false e.prefixes e.len s.reg16 src2 s
    return insertZero s dst src1 (sel 8 imm) t

end Sys2Proof.Machine
end

