-- ==== Sys2Proof/Machine/Pmaddubsw.lean ====
section
/-! DEFINITION. PMADDUBSW and VPMADDUBSW (spec/48_pmaddubsw.md). -/

namespace Sys2Proof.Machine

/-- PMADDUBSW mm1, mm2/m64 (48_pmaddubsw.md R201). -/
def execPmaddubswMmx (e : LegEnc) (dst : BitVec 3) (src : RM 3) (s : State) : Host.Outcome State Fault Refusal :=
  mmxForm .ssse3 maddubs e dst src s

/-- PMADDUBSW xmm1, xmm2/m128 (48_pmaddubsw.md R202). -/
def execPmaddubswXmm (e : LegEnc) (dst : BitVec 4) (src : RM 4) (s : State) : Host.Outcome State Fault Refusal :=
  sseForm .ssse3 maddubs e dst src s

/-- VPMADDUBSW xmm1, xmm2, xmm3/m128 (48_pmaddubsw.md R203). -/
def execVpmaddubswXmm (e : VexEnc) (dst src1 : BitVec 4) (src2 : RM 4) (s : State) : Host.Outcome State Fault Refusal :=
  vex128Form .avx maddubs e dst src1 src2 s

/-- VPMADDUBSW ymm1, ymm2, ymm3/m256 (48_pmaddubsw.md R204). -/
def execVpmaddubswYmm (e : VexEnc) (dst src1 : BitVec 4) (src2 : RM 4) (s : State) : Host.Outcome State Fault Refusal :=
  vex256Form .avx2 maddubs e dst src1 src2 s

end Sys2Proof.Machine
end

