-- ==== Sys2Proof/Machine/Pmaddwd.lean ====
section
/-! DEFINITION. PMADDWD and VPMADDWD (spec/49_pmaddwd.md). -/

namespace Sys2Proof.Machine

/-- PMADDWD mm, mm/m64 (49_pmaddwd.md R211). -/
def execPmaddwdMmx (e : LegEnc) (dst : BitVec 3) (src : RM 3) (s : State) : Host.Outcome State Fault Refusal :=
  mmxForm .mmx maddwd e dst src s

/-- PMADDWD xmm1, xmm2/m128 (49_pmaddwd.md R212). -/
def execPmaddwdXmm (e : LegEnc) (dst : BitVec 4) (src : RM 4) (s : State) : Host.Outcome State Fault Refusal :=
  sseForm .sse2 maddwd e dst src s

/-- VPMADDWD xmm1, xmm2, xmm3/m128 (49_pmaddwd.md R213). -/
def execVpmaddwdXmm (e : VexEnc) (dst src1 : BitVec 4) (src2 : RM 4) (s : State) : Host.Outcome State Fault Refusal :=
  vex128Form .avx maddwd e dst src1 src2 s

/-- VPMADDWD ymm1, ymm2, ymm3/m256 (49_pmaddwd.md R214). -/
def execVpmaddwdYmm (e : VexEnc) (dst src1 : BitVec 4) (src2 : RM 4) (s : State) : Host.Outcome State Fault Refusal :=
  vex256Form .avx2 maddwd e dst src1 src2 s

end Sys2Proof.Machine
end

