-- ==== Sys2Proof/Machine/Dispatch.lean ====
section
/-! DEFINITION. One arm for each instruction, in the order of spec/30_encoding.md R71. -/

namespace Sys2Proof.Machine

/-- The meaning of an instruction (30_encoding.md R72 step 8). -/
def exec (i : Instr) (s : State) : Host.Outcome State Fault Refusal :=
  match i with
  | .pextR32 e dst src mask => Sys2Proof.Machine.execPextR32 e dst src mask s
  | .pextR64 e dst src mask => Sys2Proof.Machine.execPextR64 e dst src mask s
  | .pextrb e dst src imm => Sys2Proof.Machine.execPextrb e dst src imm s
  | .pextrd e dst src imm => Sys2Proof.Machine.execPextrd e dst src imm s
  | .pextrq e dst src imm => Sys2Proof.Machine.execPextrq e dst src imm s
  | .vpextrb e dst src imm => Sys2Proof.Machine.execVpextrb e dst src imm s
  | .vpextrd e dst src imm => Sys2Proof.Machine.execVpextrd e dst src imm s
  | .vpextrq e dst src imm => Sys2Proof.Machine.execVpextrq e dst src imm s
  | .pextrwMmx e dst src imm => Sys2Proof.Machine.execPextrwMmx e dst src imm s
  | .pextrwXmm e dst src imm => Sys2Proof.Machine.execPextrwXmm e dst src imm s
  | .pextrwStore e dst src imm => Sys2Proof.Machine.execPextrwStore e dst src imm s
  | .vpextrw e dst src imm => Sys2Proof.Machine.execVpextrw e dst src imm s
  | .vpextrwStore e dst src imm => Sys2Proof.Machine.execVpextrwStore e dst src imm s
  | .phaddwMmx e dst src => Sys2Proof.Machine.execPhaddwMmx e dst src s
  | .phaddwXmm e dst src => Sys2Proof.Machine.execPhaddwXmm e dst src s
  | .phadddMmx e dst src => Sys2Proof.Machine.execPhadddMmx e dst src s
  | .phadddXmm e dst src => Sys2Proof.Machine.execPhadddXmm e dst src s
  | .vphaddwXmm e dst src1 src2 => Sys2Proof.Machine.execVphaddwXmm e dst src1 src2 s
  | .vphadddXmm e dst src1 src2 => Sys2Proof.Machine.execVphadddXmm e dst src1 src2 s
  | .vphaddwYmm e dst src1 src2 => Sys2Proof.Machine.execVphaddwYmm e dst src1 src2 s
  | .vphadddYmm e dst src1 src2 => Sys2Proof.Machine.execVphadddYmm e dst src1 src2 s
  | .phaddswMmx e dst src => Sys2Proof.Machine.execPhaddswMmx e dst src s
  | .phaddswXmm e dst src => Sys2Proof.Machine.execPhaddswXmm e dst src s
  | .vphaddswXmm e dst src1 src2 => Sys2Proof.Machine.execVphaddswXmm e dst src1 src2 s
  | .vphaddswYmm e dst src1 src2 => Sys2Proof.Machine.execVphaddswYmm e dst src1 src2 s
  | .phminposuw e dst src => Sys2Proof.Machine.execPhminposuw e dst src s
  | .vphminposuw e dst src => Sys2Proof.Machine.execVphminposuw e dst src s
  | .phsubwMmx e dst src => Sys2Proof.Machine.execPhsubwMmx e dst src s
  | .phsubwXmm e dst src => Sys2Proof.Machine.execPhsubwXmm e dst src s
  | .phsubdMmx e dst src => Sys2Proof.Machine.execPhsubdMmx e dst src s
  | .phsubdXmm e dst src => Sys2Proof.Machine.execPhsubdXmm e dst src s
  | .vphsubwXmm e dst src1 src2 => Sys2Proof.Machine.execVphsubwXmm e dst src1 src2 s
  | .vphsubdXmm e dst src1 src2 => Sys2Proof.Machine.execVphsubdXmm e dst src1 src2 s
  | .vphsubwYmm e dst src1 src2 => Sys2Proof.Machine.execVphsubwYmm e dst src1 src2 s
  | .vphsubdYmm e dst src1 src2 => Sys2Proof.Machine.execVphsubdYmm e dst src1 src2 s
  | .phsubswMmx e dst src => Sys2Proof.Machine.execPhsubswMmx e dst src s
  | .phsubswXmm e dst src => Sys2Proof.Machine.execPhsubswXmm e dst src s
  | .vphsubswXmm e dst src1 src2 => Sys2Proof.Machine.execVphsubswXmm e dst src1 src2 s
  | .vphsubswYmm e dst src1 src2 => Sys2Proof.Machine.execVphsubswYmm e dst src1 src2 s
  | .pinsrb e dst src imm => Sys2Proof.Machine.execPinsrb e dst src imm s
  | .pinsrd e dst src imm => Sys2Proof.Machine.execPinsrd e dst src imm s
  | .pinsrq e dst src imm => Sys2Proof.Machine.execPinsrq e dst src imm s
  | .vpinsrb e dst src1 src2 imm => Sys2Proof.Machine.execVpinsrb e dst src1 src2 imm s
  | .vpinsrd e dst src1 src2 imm => Sys2Proof.Machine.execVpinsrd e dst src1 src2 imm s
  | .vpinsrq e dst src1 src2 imm => Sys2Proof.Machine.execVpinsrq e dst src1 src2 imm s
  | .pinsrwMmx e dst src imm => Sys2Proof.Machine.execPinsrwMmx e dst src imm s
  | .pinsrwXmm e dst src imm => Sys2Proof.Machine.execPinsrwXmm e dst src imm s
  | .vpinsrw e dst src1 src2 imm => Sys2Proof.Machine.execVpinsrw e dst src1 src2 imm s
  | .pmaddubswMmx e dst src => Sys2Proof.Machine.execPmaddubswMmx e dst src s
  | .pmaddubswXmm e dst src => Sys2Proof.Machine.execPmaddubswXmm e dst src s
  | .vpmaddubswXmm e dst src1 src2 => Sys2Proof.Machine.execVpmaddubswXmm e dst src1 src2 s
  | .vpmaddubswYmm e dst src1 src2 => Sys2Proof.Machine.execVpmaddubswYmm e dst src1 src2 s
  | .pmaddwdMmx e dst src => Sys2Proof.Machine.execPmaddwdMmx e dst src s
  | .pmaddwdXmm e dst src => Sys2Proof.Machine.execPmaddwdXmm e dst src s
  | .vpmaddwdXmm e dst src1 src2 => Sys2Proof.Machine.execVpmaddwdXmm e dst src1 src2 s
  | .vpmaddwdYmm e dst src1 src2 => Sys2Proof.Machine.execVpmaddwdYmm e dst src1 src2 s

end Sys2Proof.Machine
end

