-- ==== Sys2Proof/Machine/Fetch.lean ====
section
/-! DEFINITION. Fetching the instruction at `rip` (spec/20_memory.md R44; spec/10_state.md R12, R13; spec/60_exceptions.md
R235; spec/70_reset_and_hazards.md R266), and placing one there from outside. -/

namespace Sys2Proof.Machine

/-- The linear address of byte `i` of the instruction, after the checks of the code segment: in 64-bit mode #GP(0) if it is
not canonical; in 32-bit mode #GP(0) beyond the limit, or, with a flat segment, the model's refusal of an instruction that
straddles FFFF_FFFFH (10_state.md R13). DESIGN CHOICE (notes/assumptions/29.md): in 64-bit mode an instruction that runs past
FFFF_FFFF_FFFF_FFFFH goes on at address 0. -/
def State.fetchLinear (s : State) (i : Nat) : Res Word :=
  if s.env.mode64 then
    let a := s.linear .cs (s.rip + BitVec.ofNat 64 i)
    if canonical a then .ok a else raise .gp s
  else
    let off := s.rip.toNat + i
    match (s.seg .cs).check with
    | .flat => if 2 ^ 32 ≤ off then refuse .fetchStraddles else .ok (s.linear .cs (BitVec.ofNat 64 off))
    | .limited limit usable _ =>
      if usable && decide (off ≤ limit.toNat) then .ok (s.linear .cs (BitVec.ofNat 64 off)) else raise .gp s

/-- Byte `i` of the instruction at `rip`, read through CS by `Translate` with an execute access (20_memory.md R44). -/
def State.fetchByte (s : State) (i : Nat) : Res Byte := do
  let a ← s.fetchLinear i
  match s.pageFault .fetch [a] with
  | some pf => raise pf s
  | none =>
    let vs ← s.readBytes ((s.physical .fetch a).toList)
    return vs.headD 0#8

/-- The bytes i, i+1, …, at most `n`, and the stop of the first that cannot be fetched. DESIGN CHOICE
(notes/assumptions/32.md): where several cannot, for different reasons, that of the lowest is the one reported. -/
def State.fetchFrom (s : State) : (n i : Nat) → List Byte × Option Stop
  | 0, _ => ([], none)
  | n + 1, i =>
    match s.fetchByte i with
    | .error e => ([], some e)
    | .ok v => let r := s.fetchFrom n (i + 1); (v :: r.1, r.2)

/-- `rip` is the address just after the program text (70_reset_and_hazards.md R266). DESIGN CHOICE (notes/assumptions/30.md):
only this address ends a run; any other `rip` outside the text does not. -/
def State.atEnd (s : State) : Bool :=
  match s.env.text with
  | none => false
  | some t => s.rip == s.wrapLin (t.start + BitVec.ofNat 64 t.len)

/-- The instruction at `rip`. A byte that cannot be fetched matters only if the instruction needs it; one that needs a
sixteenth byte raises #GP(0) (30_encoding.md R51, R72; 60_exceptions.md R235 item 1). DESIGN CHOICE
(notes/assumptions/30.md): bytes outside the program text are fetched and executed like those in it. -/
def State.fetchInstr (s : State) : Res Instr :=
  if s.atEnd then .error (.fault .endOfRun)
  else
    let r := s.fetchFrom Config.maxLen 0
    match decode s.env.mode64 r.1 with
    | .ok i _ => .ok i
    | .truncated =>
      match r.2 with
      | some e => .error e
      | none => raise .gp s
    | .undefined => raise .ud s
    | .reject why => refuse (.notInScope why)

/-- The physical address where byte `i` of the next instruction is fetched (the linear one where translation faults). -/
def State.fetchPhysical (s : State) (i : Nat) : Nat :=
  let a := s.linear .cs (s.rip + BitVec.ofNat 64 i)
  (s.physical .fetch a).getD a.toNat

/-- `s` with bytes placed from outside where the step fetches: the bytes, PHYS_MEM, where it is given as ranges, extended by
those of their addresses that it lacks, and the program text dropped if its end is `rip` (notes/assumptions/4.md). -/
def State.placeAtRip (s : State) (vs : List Byte) : State :=
  let as := (List.range vs.length).map s.fetchPhysical
  let more := (as.filter fun a => !s.inPhysMem a).map fun a => (⟨a, 1⟩ : Range)
  { s with
    mem := s.mem.writeAll as vs
    env := { s.env with
      physMem := s.env.physMem.map (· ++ more)
      text := if s.atEnd then none else s.env.text } }

end Sys2Proof.Machine
end

