-- ==== Sys2Proof/Machine/Step.lean ====
section
/-! DEFINITION. One step: fetch, decode, execute (spec/30_encoding.md R72). -/

namespace Sys2Proof.Machine

/-- One step of the machine. -/
def step (s : State) : Host.Outcome State Fault Refusal :=
  match s.fetchInstr with
  | .error e => e.outcome
  | .ok i => exec i s

/-- `s` with a table row's instruction, followed by zero bytes up to the longest instruction, placed where the step fetches
its next instruction. -/
def State.withFetchWord (s : State) (nbits w : Nat) : State := s.placeAtRip (tableBytes nbits w)

end Sys2Proof.Machine
end

