-- ==== Sys2Proof/Safety.lean ====
section
/-! DEFINITION. The terms that the statements use: what the tables of the spec say of each form, when an instruction
completes, what it may change, and which states are good. -/

namespace Sys2Proof

/-! ## The tables of the spec, row by row -/

/-- The columns of the class table (60_exceptions.md R233): general registers, MMX, legacy SSE, VEX vector. -/
inductive Kind where
  | pext | mmx | sse | vex
  deriving DecidableEq, Repr

/-- What the tables say of one form: 30_encoding.md R71 (CPUID flag), R60 and R73 (constraints), 20_memory.md R37 (bytes of
the memory operand, 0 where there is none; whether it is stored to), R35 and R36 (alignment). -/
structure Row where
  kind : Kind
  feature : Machine.Feature
  bytes : Nat
  store : Bool := false
  /-- VEX.L = 1 raises #UD (R73 items 1, 3, 6). -/
  vexL0 : Bool := false
  /-- VEX.vvvv names no register and must be 1111B (R73 item 2). -/
  vvvvNone : Bool := false
  /-- VEX.W = 1 in 32-bit mode is not stated (93_implementation_defined.md U4). -/
  vexW0 : Bool := false
  /-- #UD outside 64-bit mode (R73 items 4, 5). -/
  only64 : Bool := false
  /-- A memory operand raises #UD (R73 item 7). -/
  regOnly : Bool := false
  /-- A legacy SSE form with an m128 operand, aligned to 16 bytes (R35). -/
  align16 : Bool := false
  /-- A VEX.128 form with an m128 operand, aligned only if VEX_M128_ALIGN (R36). -/
  vexM128 : Bool := false
  deriving DecidableEq, Repr

/-- The row of a form (30_encoding.md R60, R71, R73; 20_memory.md R35, R37; 60_exceptions.md R233). -/
def Instr.row : Instr → Row
  | .pextR32 _ _ _ _ => { kind := .pext, feature := .bmi2, bytes := 4, vexL0 := true }
  | .pextR64 _ _ _ _ => { kind := .pext, feature := .bmi2, bytes := 8, vexL0 := true }
  | .pextrb _ _ _ _ => { kind := .sse, feature := .sse41, bytes := 1, store := true }
  | .pextrd _ _ _ _ => { kind := .sse, feature := .sse41, bytes := 4, store := true }
  | .pextrq _ _ _ _ => { kind := .sse, feature := .sse41, bytes := 8, store := true }
  | .vpextrb _ _ _ _ => { kind := .vex, feature := .avx, bytes := 1, store := true, vexL0 := true, vvvvNone := true, vexW0 := true }
  | .vpextrd _ _ _ _ => { kind := .vex, feature := .avx, bytes := 4, store := true, vexL0 := true, vvvvNone := true }
  | .vpextrq _ _ _ _ => { kind := .vex, feature := .avx, bytes := 8, store := true, vexL0 := true, vvvvNone := true, only64 := true }
  | .pextrwMmx _ _ _ _ => { kind := .mmx, feature := .sse, bytes := 0, regOnly := true }
  | .pextrwXmm _ _ _ _ => { kind := .sse, feature := .sse2, bytes := 0, regOnly := true }
  | .pextrwStore _ _ _ _ => { kind := .sse, feature := .sse41, bytes := 2, store := true }
  | .vpextrw _ _ _ _ => { kind := .vex, feature := .avx, bytes := 0, regOnly := true, vexL0 := true, vvvvNone := true, vexW0 := true }
  | .vpextrwStore _ _ _ _ => { kind := .vex, feature := .avx, bytes := 2, store := true, vexL0 := true, vvvvNone := true, vexW0 := true }
  | .phaddwMmx _ _ _ => { kind := .mmx, feature := .ssse3, bytes := 8 }
  | .phaddwXmm _ _ _ => { kind := .sse, feature := .ssse3, bytes := 16, align16 := true }
  | .phadddMmx _ _ _ => { kind := .mmx, feature := .ssse3, bytes := 8 }
  | .phadddXmm _ _ _ => { kind := .sse, feature := .ssse3, bytes := 16, align16 := true }
  | .vphaddwXmm _ _ _ _ => { kind := .vex, feature := .avx, bytes := 16, vexM128 := true }
  | .vphadddXmm _ _ _ _ => { kind := .vex, feature := .avx, bytes := 16, vexM128 := true }
  | .vphaddwYmm _ _ _ _ => { kind := .vex, feature := .avx2, bytes := 32 }
  | .vphadddYmm _ _ _ _ => { kind := .vex, feature := .avx2, bytes := 32 }
  | .phaddswMmx _ _ _ => { kind := .mmx, feature := .ssse3, bytes := 8 }
  | .phaddswXmm _ _ _ => { kind := .sse, feature := .ssse3, bytes := 16, align16 := true }
  | .vphaddswXmm _ _ _ _ => { kind := .vex, feature := .avx, bytes := 16, vexM128 := true }
  | .vphaddswYmm _ _ _ _ => { kind := .vex, feature := .avx2, bytes := 32 }
  | .phminposuw _ _ _ => { kind := .sse, feature := .sse41, bytes := 16, align16 := true }
  | .vphminposuw _ _ _ => { kind := .vex, feature := .avx, bytes := 16, vexM128 := true, vexL0 := true, vvvvNone := true }
  | .phsubwMmx _ _ _ => { kind := .mmx, feature := .ssse3, bytes := 8 }
  | .phsubwXmm _ _ _ => { kind := .sse, feature := .ssse3, bytes := 16, align16 := true }
  | .phsubdMmx _ _ _ => { kind := .mmx, feature := .ssse3, bytes := 8 }
  | .phsubdXmm _ _ _ => { kind := .sse, feature := .ssse3, bytes := 16, align16 := true }
  | .vphsubwXmm _ _ _ _ => { kind := .vex, feature := .avx, bytes := 16, vexM128 := true }
  | .vphsubdXmm _ _ _ _ => { kind := .vex, feature := .avx, bytes := 16, vexM128 := true }
  | .vphsubwYmm _ _ _ _ => { kind := .vex, feature := .avx2, bytes := 32 }
  | .vphsubdYmm _ _ _ _ => { kind := .vex, feature := .avx2, bytes := 32 }
  | .phsubswMmx _ _ _ => { kind := .mmx, feature := .ssse3, bytes := 8 }
  | .phsubswXmm _ _ _ => { kind := .sse, feature := .ssse3, bytes := 16, align16 := true }
  | .vphsubswXmm _ _ _ _ => { kind := .vex, feature := .avx, bytes := 16, vexM128 := true }
  | .vphsubswYmm _ _ _ _ => { kind := .vex, feature := .avx2, bytes := 32 }
  | .pinsrb _ _ _ _ => { kind := .sse, feature := .sse41, bytes := 1 }
  | .pinsrd _ _ _ _ => { kind := .sse, feature := .sse41, bytes := 4 }
  | .pinsrq _ _ _ _ => { kind := .sse, feature := .sse41, bytes := 8 }
  | .vpinsrb _ _ _ _ _ => { kind := .vex, feature := .avx, bytes := 1, vexL0 := true, vexW0 := true }
  | .vpinsrd _ _ _ _ _ => { kind := .vex, feature := .avx, bytes := 4, vexL0 := true }
  | .vpinsrq _ _ _ _ _ => { kind := .vex, feature := .avx, bytes := 8, vexL0 := true, only64 := true }
  | .pinsrwMmx _ _ _ _ => { kind := .mmx, feature := .sse, bytes := 2 }
  | .pinsrwXmm _ _ _ _ => { kind := .sse, feature := .sse2, bytes := 2 }
  | .vpinsrw _ _ _ _ _ => { kind := .vex, feature := .avx, bytes := 2, vexL0 := true, vexW0 := true }
  | .pmaddubswMmx _ _ _ => { kind := .mmx, feature := .ssse3, bytes := 8 }
  | .pmaddubswXmm _ _ _ => { kind := .sse, feature := .ssse3, bytes := 16, align16 := true }
  | .vpmaddubswXmm _ _ _ _ => { kind := .vex, feature := .avx, bytes := 16, vexM128 := true }
  | .vpmaddubswYmm _ _ _ _ => { kind := .vex, feature := .avx2, bytes := 32 }
  | .pmaddwdMmx _ _ _ => { kind := .mmx, feature := .mmx, bytes := 8 }
  | .pmaddwdXmm _ _ _ => { kind := .sse, feature := .sse2, bytes := 16, align16 := true }
  | .vpmaddwdXmm _ _ _ _ => { kind := .vex, feature := .avx, bytes := 16, vexM128 := true }
  | .vpmaddwdYmm _ _ _ _ => { kind := .vex, feature := .avx2, bytes := 32 }

/-- The encoding of a form: legacy or VEX. -/
inductive Enc where
  | leg (e : LegEnc)
  | vex (e : VexEnc)
  deriving DecidableEq, Repr

/-- The encoding kept in an instruction. -/
def Instr.enc : Instr → Enc
  | .pextR32 e _ _ _ => .vex e
  | .pextR64 e _ _ _ => .vex e
  | .pextrb e _ _ _ => .leg e
  | .pextrd e _ _ _ => .leg e
  | .pextrq e _ _ _ => .leg e
  | .vpextrb e _ _ _ => .vex e
  | .vpextrd e _ _ _ => .vex e
  | .vpextrq e _ _ _ => .vex e
  | .pextrwMmx e _ _ _ => .leg e
  | .pextrwXmm e _ _ _ => .leg e
  | .pextrwStore e _ _ _ => .leg e
  | .vpextrw e _ _ _ => .vex e
  | .vpextrwStore e _ _ _ => .vex e
  | .phaddwMmx e _ _ => .leg e
  | .phaddwXmm e _ _ => .leg e
  | .phadddMmx e _ _ => .leg e
  | .phadddXmm e _ _ => .leg e
  | .vphaddwXmm e _ _ _ => .vex e
  | .vphadddXmm e _ _ _ => .vex e
  | .vphaddwYmm e _ _ _ => .vex e
  | .vphadddYmm e _ _ _ => .vex e
  | .phaddswMmx e _ _ => .leg e
  | .phaddswXmm e _ _ => .leg e
  | .vphaddswXmm e _ _ _ => .vex e
  | .vphaddswYmm e _ _ _ => .vex e
  | .phminposuw e _ _ => .leg e
  | .vphminposuw e _ _ => .vex e
  | .phsubwMmx e _ _ => .leg e
  | .phsubwXmm e _ _ => .leg e
  | .phsubdMmx e _ _ => .leg e
  | .phsubdXmm e _ _ => .leg e
  | .vphsubwXmm e _ _ _ => .vex e
  | .vphsubdXmm e _ _ _ => .vex e
  | .vphsubwYmm e _ _ _ => .vex e
  | .vphsubdYmm e _ _ _ => .vex e
  | .phsubswMmx e _ _ => .leg e
  | .phsubswXmm e _ _ => .leg e
  | .vphsubswXmm e _ _ _ => .vex e
  | .vphsubswYmm e _ _ _ => .vex e
  | .pinsrb e _ _ _ => .leg e
  | .pinsrd e _ _ _ => .leg e
  | .pinsrq e _ _ _ => .leg e
  | .vpinsrb e _ _ _ _ => .vex e
  | .vpinsrd e _ _ _ _ => .vex e
  | .vpinsrq e _ _ _ _ => .vex e
  | .pinsrwMmx e _ _ _ => .leg e
  | .pinsrwXmm e _ _ _ => .leg e
  | .vpinsrw e _ _ _ _ => .vex e
  | .pmaddubswMmx e _ _ => .leg e
  | .pmaddubswXmm e _ _ => .leg e
  | .vpmaddubswXmm e _ _ _ => .vex e
  | .vpmaddubswYmm e _ _ _ => .vex e
  | .pmaddwdMmx e _ _ => .leg e
  | .pmaddwdXmm e _ _ => .leg e
  | .vpmaddwdXmm e _ _ _ => .vex e
  | .vpmaddwdYmm e _ _ _ => .vex e

/-- The memory operand, where the r/m operand is one. -/
def RM.mem? {k : Nat} : RM k → Option MemOp
  | .reg _ => none
  | .mem o => some o

/-- The memory operand of an instruction, if it has one. -/
def Instr.memOp : Instr → Option MemOp
  | .pextR32 _ _ _ o => o.mem?
  | .pextR64 _ _ _ o => o.mem?
  | .pextrb _ o _ _ => o.mem?
  | .pextrd _ o _ _ => o.mem?
  | .pextrq _ o _ _ => o.mem?
  | .vpextrb _ o _ _ => o.mem?
  | .vpextrd _ o _ _ => o.mem?
  | .vpextrq _ o _ _ => o.mem?
  | .pextrwMmx _ _ o _ => o.mem?
  | .pextrwXmm _ _ o _ => o.mem?
  | .pextrwStore _ o _ _ => o.mem?
  | .vpextrw _ _ o _ => o.mem?
  | .vpextrwStore _ o _ _ => o.mem?
  | .phaddwMmx _ _ o => o.mem?
  | .phaddwXmm _ _ o => o.mem?
  | .phadddMmx _ _ o => o.mem?
  | .phadddXmm _ _ o => o.mem?
  | .vphaddwXmm _ _ _ o => o.mem?
  | .vphadddXmm _ _ _ o => o.mem?
  | .vphaddwYmm _ _ _ o => o.mem?
  | .vphadddYmm _ _ _ o => o.mem?
  | .phaddswMmx _ _ o => o.mem?
  | .phaddswXmm _ _ o => o.mem?
  | .vphaddswXmm _ _ _ o => o.mem?
  | .vphaddswYmm _ _ _ o => o.mem?
  | .phminposuw _ _ o => o.mem?
  | .vphminposuw _ _ o => o.mem?
  | .phsubwMmx _ _ o => o.mem?
  | .phsubwXmm _ _ o => o.mem?
  | .phsubdMmx _ _ o => o.mem?
  | .phsubdXmm _ _ o => o.mem?
  | .vphsubwXmm _ _ _ o => o.mem?
  | .vphsubdXmm _ _ _ o => o.mem?
  | .vphsubwYmm _ _ _ o => o.mem?
  | .vphsubdYmm _ _ _ o => o.mem?
  | .phsubswMmx _ _ o => o.mem?
  | .phsubswXmm _ _ o => o.mem?
  | .vphsubswXmm _ _ _ o => o.mem?
  | .vphsubswYmm _ _ _ o => o.mem?
  | .pinsrb _ _ o _ => o.mem?
  | .pinsrd _ _ o _ => o.mem?
  | .pinsrq _ _ o _ => o.mem?
  | .vpinsrb _ _ _ o _ => o.mem?
  | .vpinsrd _ _ _ o _ => o.mem?
  | .vpinsrq _ _ _ o _ => o.mem?
  | .pinsrwMmx _ _ o _ => o.mem?
  | .pinsrwXmm _ _ o _ => o.mem?
  | .vpinsrw _ _ _ o _ => o.mem?
  | .pmaddubswMmx _ _ o => o.mem?
  | .pmaddubswXmm _ _ o => o.mem?
  | .vpmaddubswXmm _ _ _ o => o.mem?
  | .vpmaddubswYmm _ _ _ o => o.mem?
  | .pmaddwdMmx _ _ o => o.mem?
  | .pmaddwdXmm _ _ o => o.mem?
  | .vpmaddwdXmm _ _ _ o => o.mem?
  | .vpmaddwdYmm _ _ _ o => o.mem?

/-- The legacy prefixes of an instruction (30_encoding.md R52). -/
def Instr.prefixes (i : Instr) : List Prefix :=
  match i.enc with
  | .leg e => e.prefixes
  | .vex e => e.prefixes

/-- The length of an instruction in bytes (30_encoding.md R51). -/
def Instr.len (i : Instr) : Nat :=
  match i.enc with
  | .leg e => e.len
  | .vex e => e.len

namespace Machine

/-! ## The checks before the operands -/

/-- Some #UD condition of 60_exceptions.md R221 to R227 or 30_encoding.md R59, R73 holds. -/
def udCond (i : Instr) (s : State) : Bool :=
  (match i.enc with
    | .leg e => hasLock e.prefixes || cr0EM s || (i.row.kind == .sse && !cr4OSFXSR s)
    | .vex e =>
      vexForbidden e.prefixes e.rex || (i.row.vexL0 && e.l) || (i.row.vvvvNone && e.srcReg s.env.mode64 != 0#4) ||
        (i.row.kind == .vex && !(cr4OSXSAVE s && xcr0SSE s && xcr0AVX s))) ||
  !cpuid i.row.feature s || (i.row.only64 && !s.env.mode64) || (i.row.regOnly && i.memOp.isSome)

/-- VEX.W = 1 in 32-bit mode on a form for which the source is silent (93_implementation_defined.md U4). -/
def vexWOpen (i : Instr) (s : State) : Bool :=
  match i.enc with
  | .leg _ => false
  | .vex e => i.row.vexW0 && e.w && !s.env.mode64

/-- #NM applies to the form: CR0.TS = 1, and it is not PEXT (60_exceptions.md R228). -/
def nmCond (i : Instr) (s : State) : Bool := i.row.kind != .pext && cr0TS s

/-- #MF applies to the form (60_exceptions.md R229). -/
def mfCond (i : Instr) (s : State) : Bool := i.row.kind == .mmx && s.env.x87Pending

/-- No check before the operands stops the instruction. -/
def passesChecks (i : Instr) (s : State) : Bool := !udCond i s && !vexWOpen i s && !nmCond i s && !mfCond i s

/-! ## Memory operands -/

/-- The physical address of byte `i` of an operand, where translation gives one (20_memory.md R31, R40; its linear address
wraps as notes/assumptions/11.md says). -/
def State.operandByte (s : State) (k : Access) (g : Seg) (off : Word) (i : Nat) : Option Nat :=
  s.physical k (s.wrapLin (s.linear g off + BitVec.ofNat 64 i))

/-- An access of `n` bytes passes every check of 20_memory.md R32, with the 16-byte alignment of R35 where `align16`. -/
def accepts (k : Access) (align16 : Bool) (n : Nat) (g : Seg) (off : Word) (s : State) : Prop :=
  s.segOk g off n (k == .write) = true ∧ (align16 = true → (s.linear g off).toNat % 16 = 0) ∧
    s.misaligned (s.linear g off) n = false ∧ ∀ i < n, (s.operandByte k g off i).isSome = true

/-- The `w/8` bytes of an operand are in PHYS_MEM and hold `v`, least significant byte first (20_memory.md R30, R41). -/
def holds {w : Nat} (v : BitVec w) (g : Seg) (off : Word) (s : State) : Prop :=
  ∀ i < w / 8, ∃ a, s.operandByte .read g off i = some a ∧ s.inPhysMem a = true ∧
    s.mem.read a = some (v.extractLsb' (8 * i) 8)

/-- Every byte of an operand may be stored to: in PHYS_MEM and outside the program text (20_memory.md R41, R44). -/
def storable (n : Nat) (g : Seg) (off : Word) (s : State) : Prop :=
  ∀ i < n, ∃ a, s.operandByte .write g off i = some a ∧ s.inPhysMem a = true ∧ a ∉ s.textAddrs

/-- The r/m source of an instruction with these prefixes and this length is a register that holds `v` (as `reg` reads it),
or a memory operand that may be read and holds `v`. -/
def sourceIs {k w : Nat} (align16 : Bool) (ps : List Prefix) (len : Nat) (reg : BitVec k → BitVec w) (o : RM k)
    (v : BitVec w) (s : State) : Prop :=
  match o with
  | .reg n => v = reg n
  | .mem m =>
    let g := operandSeg s.env.mode64 ps m
    let off := s.offset ps len m
    accepts .read align16 (w / 8) g off s ∧ holds v g off s

/-- An instruction's m128 operand must be aligned to 16 bytes (20_memory.md R35, R36). -/
def mustAlign16 (i : Instr) (s : State) : Bool := i.row.align16 || (i.row.vexM128 && s.env.vexM128Align)

/-- How an instruction uses its memory operand (20_memory.md R37). -/
def accessOf (i : Instr) : Access := if i.row.store then .write else .read

/-- An instruction's memory operand, if it has one, passes the checks of 20_memory.md R32, and its bytes can be read and
have been written, or can be stored to (R41, R44; 10_state.md R22). -/
def operandReady (i : Instr) (s : State) : Prop :=
  match i.memOp with
  | none => True
  | some m =>
    let g := operandSeg s.env.mode64 i.prefixes m
    let off := s.offset i.prefixes i.len m
    accepts (accessOf i) (mustAlign16 i s) i.row.bytes g off s ∧
      if i.row.store then storable i.row.bytes g off s
      else ∀ j < i.row.bytes, ∃ a, s.operandByte .read g off j = some a ∧ s.inPhysMem a = true ∧ (s.mem.read a).isSome = true

/-! ## When each kind of form gets past its checks (60_exceptions.md R233) -/

/-- A legacy MMX form with the feature flag (class D). -/
def mmxReady (f : Feature) (e : LegEnc) (s : State) : Prop :=
  hasLock e.prefixes = false ∧ cpuid f s = true ∧ cr0EM s = false ∧ cr0TS s = false ∧ s.env.x87Pending = false

/-- A legacy SSE form with the feature flag (classes B and C). -/
def sseReady (f : Feature) (e : LegEnc) (s : State) : Prop :=
  hasLock e.prefixes = false ∧ cpuid f s = true ∧ cr0EM s = false ∧ cr4OSFXSR s = true ∧ cr0TS s = false

/-- A VEX vector form with the feature flag (classes B and C). -/
def vexReady (f : Feature) (e : VexEnc) (s : State) : Prop :=
  vexForbidden e.prefixes e.rex = false ∧ cpuid f s = true ∧ cr4OSXSAVE s = true ∧ xcr0SSE s = true ∧ xcr0AVX s = true ∧
    cr0TS s = false

/-- PEXT (class A). -/
def pextReady (e : VexEnc) (s : State) : Prop :=
  vexForbidden e.prefixes e.rex = false ∧ cpuid .bmi2 s = true ∧ e.l = false

/-- VEX.W = 0, or 64-bit mode, where the forms written W0 ignore it (30_encoding.md R60). -/
def vexWFine (e : VexEnc) (s : State) : Prop := e.w = true → s.env.mode64 = true

/-! ## What an instruction changes -/

/-- The step's outcome is a next state with the property. -/
def completes (o : Host.Outcome State Fault Refusal) (P : State → Prop) : Prop := ∃ t, o = .next t ∧ P t

/-- An outcome with its next state, if it is one, replaced. -/
def mapNext (f : State → State) : Host.Outcome State Fault Refusal → Host.Outcome State Fault Refusal
  | .next t => .next (f t)
  | .fault x => .fault x
  | .refused x => .refused x

/-- The outcome is the exception, with the fault outcome of 60_exceptions.md R220 and R240 in this state. -/
def raises (o : Host.Outcome State Fault Refusal) (x : Exn) (s : State) : Prop :=
  o = .fault (.exception ⟨x.vector, x.errorCode, x.cr2, s.rip⟩)

/-- Flags, MXCSR and the parameters of the run are unchanged (10_state.md R14, R19, R20; 00_scope.md R3). -/
def keepsSystem (s t : State) : Prop := t.rflags = s.rflags ∧ t.mxcsr = s.mxcsr ∧ t.env = s.env

/-- Every byte of memory reads as before. -/
def keepsMemory (s t : State) : Prop := ∀ a, t.mem.read a = s.mem.read a

/-- Every general register is unchanged, but for those in the list. -/
def keepsGprBut (ds : List (BitVec 4)) (s t : State) : Prop := ∀ n, n ∉ ds → t.reg64 n = s.reg64 n

/-- Every vector register is unchanged, all 256 bits, but for those in the list. -/
def keepsYmmBut (ds : List (BitVec 4)) (s t : State) : Prop := ∀ n, n ∉ ds → t.ymmReg n = s.ymmReg n

/-- Every x87 data register is unchanged, all 80 bits, but for those in the list. -/
def keepsX87But (ds : List (BitVec 3)) (s t : State) : Prop :=
  ∀ n : BitVec 3, n ∉ ds → t.x87[n.toNat]'n.isLt = s.x87[n.toNat]'n.isLt

/-- The x87 top-of-stack and tag word are unchanged. -/
def keepsX87Status (s t : State) : Prop := t.fpuTop = s.fpuTop ∧ t.fpuTag = s.fpuTag

/-- An instruction of `len` bytes changed a general register at most, besides `rip`. -/
def changesGprOnly (d : BitVec 4) (len : Nat) (s t : State) : Prop :=
  t.rip = s.nextRip len ∧ keepsGprBut [d] s t ∧ keepsYmmBut [] s t ∧ keepsX87But [] s t ∧ keepsX87Status s t ∧
    keepsMemory s t ∧ keepsSystem s t

/-- An instruction of `len` bytes changed a vector register at most, besides `rip`. -/
def changesYmmOnly (d : BitVec 4) (len : Nat) (s t : State) : Prop :=
  t.rip = s.nextRip len ∧ keepsGprBut [] s t ∧ keepsYmmBut [d] s t ∧ keepsX87But [] s t ∧ keepsX87Status s t ∧
    keepsMemory s t ∧ keepsSystem s t

/-- A legacy MMX form of `len` bytes wrote `v` to MM[d], set bits 79:64 of the x87 register, FPU.TOP and FPU.TAG
(10_state.md R16), and changed nothing else but `rip`. -/
def writesMm (d : BitVec 3) (v : BitVec 64) (len : Nat) (s t : State) : Prop :=
  t.x87[d.toNat]'d.isLt = 0xFFFF#16 ++ v ∧ t.fpuTop = 0#3 ∧ t.fpuTag = 0#16 ∧
    t.rip = s.nextRip len ∧ keepsGprBut [] s t ∧ keepsYmmBut [] s t ∧ keepsX87But [d] s t ∧ keepsMemory s t ∧
    keepsSystem s t

/-- A legacy SSE form wrote `v` to bits 127:0 of YMM[d], kept bits 255:128 (10_state.md R18), and changed nothing else but
`rip`. -/
def writesXmmKeep (d : BitVec 4) (v : BitVec 128) (len : Nat) (s t : State) : Prop :=
  t.ymmReg d = (s.ymmReg d).extractLsb' 128 128 ++ v ∧ changesYmmOnly d len s t

/-- A VEX.128 form wrote `v` to bits 127:0 of YMM[d], cleared bits 255:128 (10_state.md R18), and changed nothing else but
`rip`. -/
def writesXmmZero (d : BitVec 4) (v : BitVec 128) (len : Nat) (s t : State) : Prop :=
  t.ymmReg d = 0#128 ++ v ∧ changesYmmOnly d len s t

/-- A VEX.256 form wrote YMM[d] (10_state.md R18), and changed nothing else but `rip`. -/
def writesYmm (d : BitVec 4) (v : BitVec 256) (len : Nat) (s t : State) : Prop :=
  t.ymmReg d = v ∧ changesYmmOnly d len s t

/-- A form wrote `v`, zero-extended to the whole register, to GPR[d] (10_state.md R11), and changed nothing else but `rip`. -/
def writesGpr {w : Nat} (d : BitVec 4) (v : BitVec w) (len : Nat) (s t : State) : Prop :=
  t.reg64 d = v.setWidth 64 ∧ changesGprOnly d len s t

/-- A store of the bytes of `v` to an operand: each byte's address holds it after (the highest byte, where translation
gives two bytes one address: notes/assumptions/25.md), every other address reads as before, and nothing else changed but `rip` (20_memory.md R34). -/
def storesTo {w : Nat} (v : BitVec w) (g : Seg) (off : Word) (len : Nat) (s t : State) : Prop :=
  (∀ i < w / 8, ∀ a, s.operandByte .write g off i = some a →
      (∀ j < w / 8, i < j → s.operandByte .write g off j ≠ some a) → t.mem.read a = some (v.extractLsb' (8 * i) 8)) ∧
    (∀ a, (∀ i < w / 8, s.operandByte .write g off i ≠ some a) → t.mem.read a = s.mem.read a) ∧
    t.rip = s.nextRip len ∧ keepsGprBut [] s t ∧ keepsYmmBut [] s t ∧ keepsX87But [] s t ∧ keepsX87Status s t ∧
    keepsSystem s t

/-! ## Good states -/

/-- What every step keeps: memory is in its canonical form, and in 32-bit mode, where registers have 32 bits (10_state.md
R10, R12), `rip` and the general registers are zero above (notes/assumptions/10.md). -/
def State.good (s : State) : Prop :=
  Memory.wf s.mem = true ∧
    (s.env.mode64 = false → low32 s.rip = s.rip ∧ ∀ n, low32 (s.reg64 n) = s.reg64 n)

end Machine

end Sys2Proof
end

