-- ==== Sys2Proof/Certificates/Slice0/Obligations.lean ====
section
/-! DEFINITION. The statements for the provers. Each docstring says what its statement formalises; the basis and the
cited rules of spec/ are in OBLIGATIONS.json. -/

section

open Sys2Proof Sys2Proof.Machine

/-- In either mode, for every well-formed instruction of the 56 forms and any bytes after it, the decoder reads from the
encoder's bytes that instruction and leaves the bytes after it. (R50, R54, R55, R56, R57, R58, R61, R62, R63, R64,
R71, R72.) -/
def Obligations.EncodeThenDecode : Prop :=
  ∀ (m : Bool) (i : Instr) (rest : List Byte), i.wf m = true → decode m (encode i ++ rest) = .ok i rest

/-- If the decoder answers an instruction, the encoder writes exactly the bytes it consumed, and the instruction is well-
formed for the mode if those bytes are at most 15. (R50, R51, R54, R55, R56, R57, R58, R61, R62, R63, R64, R72.) -/
def Obligations.DecodeThenEncode : Prop :=
  ∀ (m : Bool) (bs rest : List Byte) (i : Instr), decode m bs = .ok i rest →
    encode i ++ rest = bs ∧ (bs.length ≤ rest.length + 15 → i.wf m = true)

/-- Eleven byte sequences of 95_test_vectors.md section 3 (legacy, REX, two- and three-byte VEX, RIP-relative, SIB, segment
override; both modes) decode to the instruction the vector names. (R54, R56, R57, R61, R62, R64, R68, R71,
95_test_vectors.md section 3.) -/
def Obligations.SpecWordsDecode : Prop :=
  decode true [0x66#8, 0x48#8, 0x0F#8, 0x3A#8, 0x16#8, 0xC8#8, 0x01#8] =
      .ok (.pextrq ⟨[.opSize], some ⟨true, false, false, false⟩, 7⟩ (.reg 0#4) 1#4 0x01#8) [] ∧
    decode false [0x66#8, 0x0F#8, 0x3A#8, 0x16#8, 0xC8#8, 0x01#8] =
      .ok (.pextrd ⟨[.opSize], none, 6⟩ (.reg 0#4) 1#4 0x01#8) [] ∧
    decode false [0xC4#8, 0xE2#8, 0x6A#8, 0xF5#8, 0x03#8] =
      .ok (.pextR32 ⟨[], none, false, false, false, false, false, 2#4, false, 5⟩ 0#4 2#4 (.mem (.base 3#4 .none))) [] ∧
    decode true [0x0F#8, 0xC4#8, 0xC1#8, 0x01#8] = .ok (.pinsrwMmx ⟨[], none, 4⟩ 0#3 (.reg 1#4) 0x01#8) [] ∧
    decode true [0xC5#8, 0xF9#8, 0xC5#8, 0xC3#8, 0x01#8] =
      .ok (.vpextrw ⟨[], none, true, false, false, false, false, 0#4, false, 5⟩ 0#4 (.reg 3#4) 0x01#8) [] ∧
    decode true [0xC4#8, 0x43#8, 0x29#8, 0x22#8, 0xCB#8, 0x03#8] =
      .ok (.vpinsrd ⟨[], none, false, true, false, true, false, 10#4, false, 6⟩ 9#4 10#4 (.reg 11#4) 0x03#8) [] ∧
    decode false [0xC5#8, 0xDD#8, 0xF5#8, 0xDD#8] =
      .ok (.vpmaddwdYmm ⟨[], none, true, false, false, false, false, 4#4, true, 4⟩ 3#4 4#4 (.reg 5#4)) [] ∧
    decode true [0xC4#8, 0x02#8, 0x31#8, 0x05#8, 0x44#8, 0x9A#8, 0x20#8] =
      .ok (.vphsubwXmm ⟨[], none, false, true, true, true, false, 9#4, false, 7⟩ 8#4 9#4
        (.mem (.sib 10#4 11#4 2#2 (.d8 0x20#8)))) [] ∧
    decode true [0x66#8, 0x41#8, 0x0F#8, 0x38#8, 0x41#8, 0xC7#8] =
      .ok (.phminposuw ⟨[.opSize], some ⟨false, false, false, true⟩, 6⟩ 0#4 (.reg 15#4)) [] ∧
    decode true [0x65#8, 0x66#8, 0x0F#8, 0xF5#8, 0x04#8, 0x25#8, 0x00#8, 0x10#8, 0x00#8, 0x00#8] =
      .ok (.pmaddwdXmm ⟨[.seg .gs, .opSize], none, 10⟩ 0#4 (.mem (.sibAbs 4#4 0#2 0x1000#32))) [] ∧
    decode true [0xC4#8, 0xE3#8, 0x71#8, 0x20#8, 0x05#8, 0x10#8, 0x00#8, 0x00#8, 0x00#8, 0x00#8] =
      .ok (.vpinsrb ⟨[], none, false, false, false, false, false, 1#4, false, 10⟩ 0#4 1#4 (.mem (.abs 0x10#32)) 0x00#8) []

/-- Whatever the decoder reads as a legacy form has no F2 or F3 among its prefixes, and has a 66 byte exactly if it is a
legacy SSE form (and none if it is an MMX form). (R53, 93_implementation_defined.md U8.) -/
def Obligations.MandatoryPrefixSelectsForm : Prop :=
  ∀ (m : Bool) (bs rest : List Byte) (i : Instr) (e : LegEnc), decode m bs = .ok i rest → i.enc = .leg e →
    hasRep e.prefixes = false ∧ hasOpSize e.prefixes = (i.row.kind == .sse)

/-- EM = TS = AM = 0, OSFXSR = OSXSAVE = 1, XCR0.SSE = XCR0.AVX = 1, CPL = 3, AC = 0, flat segments, identity translation,
X87_PENDING false, VEX_M128_ALIGN false, memory unwritten, PHYS_MEM the bytes given. (R260, R3, 92_eei_decisions.md
D3, D4, D10.) -/
def Obligations.ResetHasLaunchDefaults : Prop :=
  let s := State.reset
  cr0EM s = false ∧ cr0TS s = false ∧ cr0AM s = false ∧ cr4OSFXSR s = true ∧ cr4OSXSAVE s = true ∧ xcr0SSE s = true ∧
    xcr0AVX s = true ∧ s.env.cpl = 3#2 ∧ rflagsAC s = false ∧ (∀ g, s.seg g = ⟨0#64, .flat⟩) ∧
    (∀ k a, s.physical k a = some a.toNat) ∧ s.env.x87Pending = false ∧ s.env.vexM128Align = false ∧
    ∀ a, s.mem.read a = none ∧ s.inPhysMem a = false

/-- State.reset satisfies the invariant State.good: canonical memory, and 32-bit registers and rip in 32-bit mode (the
model's way to hold R10 and R12, log 10; the canonical form is the model's own). (R10, R12, R30.) -/
def Obligations.ResetIsGood : Prop :=
  State.reset.good

/-- From every state, reached or not, that is good (memory in canonical form; in 32-bit mode rip and every general
register zero above bit 31, which is how the model holds that bits 63:32 do not exist, log 10), a step that answers a
next state answers a good one. (R10, R11, R12, R30.) -/
def Obligations.StepKeepsGood : Prop :=
  ∀ s t : State, s.good → step s = .next t → t.good

/-- Where rip is the address just after the program text the step stops with the normal end of the run; that this end is a
fault of the step, and its name endOfRun, are the model's (log 9). Elsewhere, inside the text or not (log 30), with
the bytes that can be fetched from rip on, at most 15: where they decode to an instruction, the step is exec of that
instruction in the same state and nothing else happens around it; where they are not in scope, the step is refused and
says why; where they raise #UD whatever follows, it raises #UD; where they end before the instruction does, the step
stops as the fetch of the byte after them does, or, if they are 15, raises #GP(0). That the fetch comes before every
other check is log 12, that the byte reported is the lowest that cannot be fetched is log 32, and that bytes in no map or
row are answered without the bytes after them is log 33. (R51, R59, R72, R230, R235, R266.) -/
def Obligations.StepRunsTheDecodedInstruction : Prop :=
  (∀ (s : State) (x : Text), s.env.text = some x → s.rip = s.wrapLin (x.start + BitVec.ofNat 64 x.len) →
    step s = .fault .endOfRun) ∧
  ∀ (s : State), s.atEnd = false →
    let bs := (s.fetchFrom Config.maxLen 0).1
    (∀ j, (hj : j < bs.length) → s.fetchByte j = .ok bs[j]) ∧
    (∀ i rest, decode s.env.mode64 bs = .ok i rest → step s = exec i s) ∧
    (∀ why, decode s.env.mode64 bs = .reject why → step s = .refused (.notInScope why)) ∧
    (decode s.env.mode64 bs = .undefined → raises (step s) .ud s) ∧
    (decode s.env.mode64 bs = .truncated →
      (bs.length < 15 → ∃ e, s.fetchByte bs.length = .error e ∧ step s = e.outcome) ∧
      (bs.length = 15 → raises (step s) .gp s))

/-- If rip is not the end of the text and the fetch at rip gives the bytes that the encoder writes for a well-formed
instruction, whatever stands after them, the step is exec of that instruction. That bytes outside the program text run
like those in it is log 30. (R44, R51, R72.) -/
def Obligations.StepRunsTheEncodedInstruction : Prop :=
  ∀ (s : State) (i : Instr), s.atEnd = false → i.wf s.env.mode64 = true →
    (∀ j, (hj : j < (encode i).length) → s.fetchByte j = .ok (encode i)[j]) → step s = exec i s

/-- In 64-bit mode byte j is fetched exactly from a canonical address rip + j, in 32-bit mode exactly within the code
segment (for a flat one, below 2^32), through translation for execution, from PHYS_MEM, from a byte that has a value.
The model's choices in it: that a segment check is flat or a limit with a usable bit is log 5, that a segment that is
not usable stops the fetch is log 27, that byte j of a 64-bit instruction at the top of the address space wraps to
address 0 is log 29. (R13, R22, R31, R38, R41, R44.) -/
def Obligations.FetchReadsMemoryThroughCs : Prop :=
  ∀ (s : State) (j : Nat) (b : Byte),
    let cell (a : Word) : Prop := ∃ p, s.physical .fetch a = some p ∧ s.inPhysMem p = true ∧ s.mem.read p = some b
    if s.env.mode64 then
      s.fetchByte j = .ok b ↔ canonical (s.rip + BitVec.ofNat 64 j) = true ∧ cell (s.rip + BitVec.ofNat 64 j)
    else
      s.fetchByte j = .ok b ↔
        (match (s.seg .cs).check with
          | .flat => s.rip.toNat + j < 2 ^ 32
          | .limited limit usable _ => usable = true ∧ s.rip.toNat + j ≤ limit.toNat) ∧
        cell (low32 ((s.seg .cs).base + BitVec.ofNat 64 (s.rip.toNat + j)))

/-- If bytes that decode to an instruction of more than 15 bytes stand at rip, and the first 15 of them can be fetched,
the step raises #GP(0). That the length comes before any #UD condition is log 12. (R51, R230.) -/
def Obligations.OverlongInstructionRaisesGp : Prop :=
  ∀ (s : State) (bs rest : List Byte) (i : Instr), s.atEnd = false → decode s.env.mode64 bs = .ok i rest →
    15 < i.len → (∀ j < 15, ∃ b, bs[j]? = some b ∧ s.fetchByte j = .ok b) → raises (step s) .gp s

/-- From every state, a step that answers a next state leaves the addresses of the program text and every byte at them as
they were. The text is located by the translation of its execute accesses (log 31), and a store to it refused by
physical address (log 9). (R44.) -/
def Obligations.StepKeepsProgramText : Prop :=
  ∀ s t : State, step s = .next t → t.textAddrs = s.textAddrs ∧ ∀ a ∈ s.textAddrs, t.mem.read a = s.mem.read a

/-- From every state in 32-bit mode, a step that answers a next state leaves general registers 8 to 15 and all 256 bits of
YMM8 to YMM15 as they were. (R10, R17, R58, R64.) -/
def Obligations.HighRegistersUntouchedIn32BitMode : Prop :=
  ∀ s t : State, s.env.mode64 = false → step s = .next t →
    ∀ n : BitVec 4, 8 ≤ n.toNat → t.reg64 n = s.reg64 n ∧ t.ymmReg n = s.ymmReg n

/-- For every instruction that answers a next state: rip is rip + len, modulo 2^32 in 32-bit mode, len being the number of
bytes of its encoding if it is well-formed; RFLAGS, MXCSR and every parameter of the run (PHYS_MEM too, where it is
the bytes given at launch) are unchanged. An instruction that raises an exception reports the unchanged rip. (R3, R12,
R14, R19, R20, R41.) -/
def Obligations.RipAdvancesAndSystemStateStays : Prop :=
  ∀ (i : Instr) (s : State),
    (i.wf s.env.mode64 = true → i.len = (encode i).length) ∧
    (∀ t, exec i s = .next t → keepsSystem s t ∧ (∀ a, t.inPhysMem a = s.inPhysMem a) ∧
      t.rip = if s.env.mode64 then s.rip + BitVec.ofNat 64 i.len else low32 (s.rip + BitVec.ofNat 64 i.len)) ∧
    ∀ o, exec i s = .fault (.exception o) → o.rip = s.rip

/-- Replacing MXCSR and RFLAGS by other values with the same AC bit changes nothing in what any instruction does, but that
the next state holds the replaced values. (R14, R20.) -/
def Obligations.FlagsAndMxcsrAreNotRead : Prop :=
  ∀ (i : Instr) (s : State) (f : Word) (x : BitVec 32), f.getLsbD 18 = s.rflags.getLsbD 18 →
    exec i { s with rflags := f, mxcsr := x } =
      mapNext (fun t => { t with rflags := f, mxcsr := x }) (exec i s)

/-- Where CR0.AM = 0 and translation is the identity, replacing CPL changes nothing in what any instruction does, but that
the next state holds the replaced CPL. (R243, R232, R40.) -/
def Obligations.CplMattersOnlyThroughChecks : Prop :=
  ∀ (i : Instr) (s : State) (c : BitVec 2), cr0AM s = false → s.env.trans = [] →
    exec i { s with env := { s.env with cpl := c } } =
      mapNext (fun t => { t with env := { t.env with cpl := c } }) (exec i s)

/-- For every instruction that is no PEXTRx store form, or has no memory operand, every byte of memory reads as before in
the next state it answers. (R34, R46.) -/
def Obligations.MemoryChangesOnlyByStores : Prop :=
  ∀ (i : Instr) (s t : State), exec i s = .next t → (i.row.store = false ∨ i.memOp = none) → keepsMemory s t

/-- In the next state of a legacy MMX form FPU.TOP is 0, FPU.TAG is all valid, and each x87 register is unchanged or has
bits 79:64 all ones; any other form leaves all of it unchanged. (R15, R16.) -/
def Obligations.X87StateChangesOnlyByMmxForms : Prop :=
  ∀ (i : Instr) (s t : State), exec i s = .next t →
    if i.row.kind = .mmx then
      t.fpuTop = 0#3 ∧ t.fpuTag = 0#16 ∧
        ∀ n : BitVec 3, t.x87[n.toNat]'n.isLt = s.x87[n.toNat]'n.isLt ∨
          (t.x87[n.toNat]'n.isLt).extractLsb' 64 16 = 0xFFFF#16
    else keepsX87But [] s t ∧ keepsX87Status s t

/-- In the next state: a legacy SSE form has kept bits 255:128 of all vector registers; a VEX vector form that is no
VEX.256 form (those read 256 bits) has left each vector register whole or with bits 255:128 zero; MMX forms and PEXT
have left every vector register whole. (R18, R263.) -/
def Obligations.UpperHalvesByEncoding : Prop :=
  ∀ (i : Instr) (s t : State), exec i s = .next t →
    match i.row.kind with
    | .sse => ∀ n, (t.ymmReg n).extractLsb' 128 128 = (s.ymmReg n).extractLsb' 128 128
    | .vex =>
      i.row.bytes ≤ 16 → ∀ n, t.ymmReg n = s.ymmReg n ∨ (t.ymmReg n).extractLsb' 128 128 = 0#128
    | _ => ∀ n, t.ymmReg n = s.ymmReg n

/-- A well-formed instruction raises #UD exactly if it has a LOCK prefix, its CPUID flag is 0, the control bits its class
examines disable it, a forbidden prefix precedes VEX, or its row of the illegal-encoding table applies (VEX.L,
VEX.vvvv, 64-bit mode only, register operand only). That an ignored REX byte is none before VEX is log 13. (R59, R60,
R73, R221, R222, R224, R225, R226, R227, R233.) -/
def Obligations.UdRaisedExactly : Prop :=
  ∀ (i : Instr) (s : State), i.wf s.env.mode64 = true → (raises (exec i s) .ud s ↔ udCond i s = true)

/-- A well-formed instruction without a #UD condition (and without the open VEX.W case) raises #NM exactly if it is not
PEXT and CR0.TS = 1, and #MF exactly if that is not so, it is a legacy MMX form and X87_PENDING is true. (R228, R229.) -/
def Obligations.NmAndMfRaisedExactly : Prop :=
  ∀ (i : Instr) (s : State), i.wf s.env.mode64 = true → udCond i s = false → vexWOpen i s = false →
    (raises (exec i s) .nm s ↔ i.row.kind ≠ .pext ∧ cr0TS s = true) ∧
      (raises (exec i s) .mf s ↔ ¬(i.row.kind ≠ .pext ∧ cr0TS s = true) ∧ i.row.kind = .mmx ∧ s.env.x87Pending = true)

/-- For every well-formed instruction with a memory operand that passes the checks before it: a failing segment or
canonical check raises #SS(0) through SS and #GP(0) otherwise; else a misaligned m128 of a form that must be aligned
raises #GP(0); else a page fault and a misalignment under alignment checking raise #PF and #AC(0), and either of the
two where both apply (the free value of log 8). That these come before the model's own stops for PHYS_MEM, the text
and unwritten bytes is log 25; how byte addresses wrap is log 11. (R32, R35, R36, R230, R232, R235, R236.) -/
def Obligations.MemoryOperandFaultsInOrder : Prop :=
  ∀ (i : Instr) (s : State) (o : MemOp), i.wf s.env.mode64 = true → passesChecks i s = true → i.memOp = some o →
    let g := operandSeg s.env.mode64 i.prefixes o
    let off := s.offset i.prefixes i.len o
    let lin := s.linear g off
    let n := i.row.bytes
    if s.segOk g off n i.row.store = false then raises (exec i s) (if g = .ss then .ss else .gp) s
    else if mustAlign16 i s = true ∧ lin.toNat % 16 ≠ 0 then raises (exec i s) .gp s
    else
      match s.pageFault (accessOf i) (s.linBytes lin n) with
      | some pf => if s.misaligned lin n then raises (exec i s) pf s ∨ raises (exec i s) .ac s else raises (exec i s) pf s
      | none => s.misaligned lin n = true → raises (exec i s) .ac s

/-- If the access to a list of bytes page-faults, the fault carries the error code of a translation rule that applies to
the address reported, and no earlier byte of the list falls under that rule. An operand's list is its bytes from the
lowest up, so this is the lowest one. The model's choices in it: Translate is a list of rules (log 6), the bytes under
one rule are a page, and which of two is reported is the parameter pfReportLast (log 7). (R40, R231.) -/
def Obligations.PageFaultReportsItsPage : Prop :=
  ∀ (s : State) (k : Access) (as : List Word) (x : Exn), s.pageFault k as = some x →
    ∃ code a before after rule, x = .pf code a ∧ as = before ++ a :: after ∧ s.transRule k a = some rule ∧
      rule.answer = .pageFault code ∧ ∀ b ∈ before, s.transRule k b ≠ some rule

/-- An operand of n bytes is misaligned for #AC exactly if CR0.AM = 1, EFLAGS.AC = 1, CPL = 3, n is 2, 4 or 8 and its
linear address is no multiple of n; so operands of 1, 16 and 32 bytes never are. (R232.) -/
def Obligations.AlignmentCheckCondition : Prop :=
  ∀ (s : State) (lin : Word) (n : Nat), s.misaligned lin n = true ↔
    s.env.cr0.getLsbD 18 = true ∧ s.rflags.getLsbD 18 = true ∧ s.env.cpl = 3#2 ∧ (n = 2 ∨ n = 4 ∨ n = 8) ∧ ¬ n ∣ lin.toNat

/-- An exception that a step ends in has the rip of the state before; vector 6, 7 or 16 without error code, 12, 13 or 17
with error code 0, or 14 with an error code and a CR2, which the others do not have. (R220, R231, R240, R242.) -/
def Obligations.FaultOutcomeOfEveryStep : Prop :=
  ∀ (s : State) (o : FaultOutcome), step s = .fault (.exception o) →
    o.rip = s.rip ∧
      ((o.vector ∈ [6, 7, 16] ∧ o.errorCode = none ∧ o.cr2 = none) ∨
        (o.vector ∈ [12, 13, 17] ∧ o.errorCode = some 0#32 ∧ o.cr2 = none) ∨
        (o.vector = 14 ∧ o.errorCode.isSome = true ∧ o.cr2.isSome = true))

/-- For each of the 56 forms, well-formed for the mode: exec answers a next state exactly if no #UD, #NM or #MF condition
and no open VEX.W case holds and, with a memory operand, the operand passes the segment, alignment and translation
checks and its bytes lie in PHYS_MEM and have values (or, for a store, lie outside the program text). That the open
VEX.W case (U4) stops is log 16, that a byte without a value stops a load is log 3, that the text is compared by
physical address is log 9, how byte addresses wrap is log 11. (R22, R32, R33, R34, R41, R44, R233, R235,
93_implementation_defined.md U4.) -/
def Obligations.CompletesExactly : Prop :=
  ∀ (i : Instr) (s : State), i.wf s.env.mode64 = true →
    ((∃ t, exec i s = .next t) ↔ passesChecks i s = true ∧ operandReady i s)

/-- For a well-formed instruction past its checks whose memory operand is accepted: a byte outside PHYS_MEM refuses the
step; else a store to a byte of the program text refuses it; else a load of a byte that nothing has written is the
fault unwrittenByte (log 3). Each names the address. The rules ask for each stop; their order is log 25, and the
comparison with the text by physical address is log 9. (R22, R41, R44.) -/
def Obligations.UnreadyOperandStopsByName : Prop :=
  ∀ (i : Instr) (s : State) (o : MemOp), i.wf s.env.mode64 = true → passesChecks i s = true → i.memOp = some o →
    let g := operandSeg s.env.mode64 i.prefixes o
    let off := s.offset i.prefixes i.len o
    let isByte (a : Nat) : Prop := ∃ j < i.row.bytes, s.operandByte (accessOf i) g off j = some a
    accepts (accessOf i) (mustAlign16 i s) i.row.bytes g off s →
      ((∃ a, isByte a ∧ s.inPhysMem a = false) →
        ∃ a, isByte a ∧ s.inPhysMem a = false ∧ exec i s = .refused (.outsidePhysMem a)) ∧
      ((∀ a, isByte a → s.inPhysMem a = true) → i.row.store = true → (∃ a, isByte a ∧ a ∈ s.textAddrs) →
        ∃ a, isByte a ∧ a ∈ s.textAddrs ∧ exec i s = .refused (.storeIntoText a)) ∧
      ((∀ a, isByte a → s.inPhysMem a = true) → i.row.store = false → (∃ a, isByte a ∧ s.mem.read a = none) →
        ∃ a, isByte a ∧ s.mem.read a = none ∧ exec i s = .fault (.unwrittenByte a))

/-- In 32-bit mode no bytes decode to PEXT r64, PEXTRQ or PINSRQ, and their meanings refuse by name; a form written W0
with VEX.W = 1 that has no #UD condition is refused (U4). The model's choices in it: that the three meanings, which no
step reaches there, refuse is log 17; that PEXT with VEX.W = 1 decodes to the 32-bit form is log 20; that the refusal
for VEX.W stands also where CR0.TS = 1, before #NM, is log 16. (R54, R60, R101, R112, R183,
93_implementation_defined.md U4, U6, U7.) -/
def Obligations.StatedRefusalsIn32BitMode : Prop :=
  (∀ (bs rest : List Byte) (i : Instr), decode false bs = .ok i rest →
    (∀ e dst src mask, i ≠ .pextR64 e dst src mask) ∧ (∀ e dst src imm, i ≠ .pextrq e dst src imm) ∧
      ∀ e dst src imm, i ≠ .pinsrq e dst src imm) ∧
  ∀ s : State, s.env.mode64 = false →
    (∀ e dst src mask, exec (.pextR64 e dst src mask) s = .refused .notEncodable) ∧
    (∀ e dst src imm, exec (.pextrq e dst src imm) s = .refused .notEncodable) ∧
    (∀ e dst src imm, exec (.pinsrq e dst src imm) s = .refused .notEncodable) ∧
    ∀ i : Instr, udCond i s = false → vexWOpen i s = true → exec i s = .refused .vexWOutside64

/-- A displacement has the value of its 8, 16 or 32 bits as a signed number, or 0 where there is none. With 64-bit
addresses, and with 32-bit ones (67 in 64-bit mode, or 32-bit mode): base and displacement, base, index and
displacement, index and displacement without a base, and the displacement alone, which in 64-bit mode counts from the
next instruction; index number 4 is none. With 16-bit addresses: the eight rows of registers and displacement, modulo
2^16, and the displacement alone. (R63, R66, R67, R68, R70.) -/
def Obligations.EffectiveOffset : Prop :=
  (∀ w : Nat, w ≤ 64 → dispValue (.none : Disp w) = 0#64 ∧
    (∀ d : BitVec 8, (dispValue (.d8 d : Disp w)).toInt = d.toInt) ∧
    ∀ d : BitVec w, (dispValue (.full d)).toInt = d.toInt) ∧
  ∀ (s : State) (ps : List Prefix) (len : Nat),
    let index (i : BitVec 4) (sc : BitVec 2) (r : Word) : Word := if i = 4#4 then 0#64 else r <<< sc.toNat
    (s.env.mode64 = true → hasAddrSize ps = false →
      (∀ b d, s.offset ps len (.base b d) = s.reg64 b + dispValue d) ∧
      (∀ b i sc d, s.offset ps len (.sib b i sc d) = s.reg64 b + index i sc (s.reg64 i) + dispValue d) ∧
      (∀ i sc d, s.offset ps len (.sibAbs i sc d) = index i sc (s.reg64 i) + d.signExtend 64) ∧
      (∀ d, s.offset ps len (.abs d) = s.rip + BitVec.ofNat 64 len + d.signExtend 64)) ∧
    (hasAddrSize ps = s.env.mode64 →
      (∀ b d, s.offset ps len (.base b d) = low32 (low32 (s.reg64 b) + dispValue d)) ∧
      (∀ b i sc d, s.offset ps len (.sib b i sc d) =
        low32 (low32 (s.reg64 b) + index i sc (low32 (s.reg64 i)) + dispValue d)) ∧
      (∀ i sc d, s.offset ps len (.sibAbs i sc d) = low32 (index i sc (low32 (s.reg64 i)) + d.signExtend 64)) ∧
      (∀ d, s.offset ps len (.abs d) =
        if s.env.mode64 then low32 (s.rip + BitVec.ofNat 64 len + d.signExtend 64) else d.setWidth 64)) ∧
    (s.env.mode64 = false → hasAddrSize ps = true →
      let bx := (s.reg64 3#4).toNat
      let bp := (s.reg64 5#4).toNat
      let si := (s.reg64 6#4).toNat
      let di := (s.reg64 7#4).toNat
      let row (rm : BitVec 3) (sum : Nat) : Prop :=
        ∀ d, (s.offset ps len (.m16 rm d)).toNat = (sum + (dispValue d).toNat) % 2 ^ 16
      row 0#3 (bx + si) ∧ row 1#3 (bx + di) ∧ row 2#3 (bp + si) ∧ row 3#3 (bp + di) ∧ row 4#3 si ∧ row 5#3 di ∧
        row 6#3 bp ∧ row 7#3 bx ∧ ∀ d, s.offset ps len (.m16abs d) = d.setWidth 64)

/-- In 64-bit mode the linear address is the offset, plus the base for FS and GS alone; in 32-bit mode base plus offset
modulo 2^32. Without an override that counts (in 64-bit mode only FS and GS do), an rSP or rBP base, with a SIB byte
or without, means SS, the 16-bit rows with BP mean SS, and every other form means DS. The last override that counts is
the segment; other prefixes do not matter. That an ignored override after FS or GS in 64-bit mode does not displace it
is log 14. (R31, R52, R67, R68, R69, R70.) -/
def Obligations.LinearAddressAndSegment : Prop :=
  (∀ (s : State) (g : Seg) (off : Word),
    s.linear g off =
      if s.env.mode64 then (if g = .fs ∨ g = .gs then (s.seg g).base + off else off)
      else low32 ((s.seg g).base + off)) ∧
  ∀ (m : Bool) (ps : List Prefix),
    ((∀ h, .seg h ∈ ps → m = true ∧ h ≠ .fs ∧ h ≠ .gs) →
      (∀ b d, operandSeg m ps (.base b d) = if b = 4#4 ∨ b = 5#4 then .ss else .ds) ∧
      (∀ b i sc d, operandSeg m ps (.sib b i sc d) = if b = 4#4 ∨ b = 5#4 then .ss else .ds) ∧
      (∀ i sc d, operandSeg m ps (.sibAbs i sc d) = .ds) ∧
      (∀ d, operandSeg m ps (.abs d) = .ds) ∧
      (∀ rm d, operandSeg m ps (.m16 rm d) = if rm = 2#3 ∨ rm = 3#3 ∨ rm = 6#3 then .ss else .ds) ∧
      ∀ d, operandSeg m ps (.m16abs d) = .ds) ∧
    ∀ o : MemOp,
      (∀ g, operandSeg m (ps ++ [.seg g]) o = if m = true ∧ g ≠ .fs ∧ g ≠ .gs then operandSeg m ps o else g) ∧
      ∀ p : Prefix, (∀ g, p ≠ .seg g) → operandSeg m (ps ++ [p]) o = operandSeg m ps o

/-- For every width: the bit of src at a position where the mask is 1 lands at the number of mask bits below it; every
result bit from the number of mask bits up is 0. (R102.) -/
def Obligations.PextGathersInOrder : Prop :=
  ∀ (N : Nat) (src mask : BitVec N),
    let rank (m : Nat) : Nat := ((List.range m).filter fun j => mask.getLsbD j).length
    (∀ m < N, mask.getLsbD m = true → (pext src mask).getLsbD (rank m) = src.getLsbD m) ∧
      ∀ j, rank N ≤ j → (pext src mask).getLsbD j = false

/-- For operand widths 64, 128, 256 and element widths 16, 32, every lane and every pair: element i of the lane is f of
elements 2i and 2i+1 of A's lane, element h + i is f of elements 2i and 2i+1 of B's lane, the lower-numbered element
first. (R130.) -/
def Obligations.HpairLayout : Prop :=
  ∀ (W w : Nat), W ∈ [64, 128, 256] → w ∈ [16, 32] → ∀ (f : BitVec w → BitVec w → BitVec w) (a b : BitVec W),
    let n := min W 128 / w
    ∀ lane < W / min W 128, ∀ i < n / 2,
      elem w (hpair f a b) (n * lane + i) = f (elem w a (n * lane + 2 * i)) (elem w a (n * lane + 2 * i + 1)) ∧
      elem w (hpair f a b) (n * lane + n / 2 + i) =
        f (elem w b (n * lane + 2 * i)) (elem w b (n * lane + 2 * i + 1))

/-- add_w and sub_w are the sum and difference modulo 2^w; adds_16 and subs_16 are the signed sum and difference clamped
to [-32768, 32767]. (R145, R146, R175, R176.) -/
def Obligations.HorizontalElementFunctions : Prop :=
  (∀ (w : Nat) (x y : BitVec w), (addW x y).toNat = (x.toNat + y.toNat) % 2 ^ w ∧
    ((subW x y).toNat : Int) = ((x.toNat : Int) - y.toNat) % 2 ^ w) ∧
  ∀ x y : BitVec 16, (addS16 x y).toInt = max (-32768) (min (x.toInt + y.toInt) 32767) ∧
    (subS16 x y).toInt = max (-32768) (min (x.toInt - y.toInt) 32767)

/-- There is an index at which the word is at most every other word and less than every earlier one; the result has that
word in bits 15:0, the index in bits 18:16, and 0 in bits 127:19. (R152.) -/
def Obligations.MinposIsTheFirstMinimum : Prop :=
  ∀ v : BitVec 128, ∃ k < 8,
    (∀ j < 8, (elem 16 v k).toNat ≤ (elem 16 v j).toNat) ∧ (∀ j < k, (elem 16 v k).toNat < (elem 16 v j).toNat) ∧
      (minpos v).extractLsb' 0 16 = elem 16 v k ∧ ((minpos v).extractLsb' 16 3).toNat = k ∧
      (minpos v).extractLsb' 19 109 = 0#109

/-- For operand widths 64, 128, 256: word i, as a signed number, is the sum of bytes 2i and 2i+1 of A (unsigned) times
those of B (signed), clamped to [-32768, 32767]. (R200.) -/
def Obligations.MaddubsWords : Prop :=
  ∀ (W : Nat), W ∈ [64, 128, 256] → ∀ (a b : BitVec W), ∀ i < W / 16,
    (elem 16 (maddubs a b) i).toInt =
      max (-32768) (min (((elem 8 a (2 * i)).toNat : Int) * (elem 8 b (2 * i)).toInt +
        ((elem 8 a (2 * i + 1)).toNat : Int) * (elem 8 b (2 * i + 1)).toInt) 32767)

/-- For operand widths 64, 128, 256: dword i is 80000000H if the four words are all 8000H, and otherwise, as a signed
number, the exact sum of the products of words 2i and of words 2i+1 of A and B. (R210.) -/
def Obligations.MaddwdDwords : Prop :=
  ∀ (W : Nat), W ∈ [64, 128, 256] → ∀ (a b : BitVec W), ∀ i < W / 32,
    if elem 16 a (2 * i) = 0x8000#16 ∧ elem 16 b (2 * i) = 0x8000#16 ∧ elem 16 a (2 * i + 1) = 0x8000#16 ∧
        elem 16 b (2 * i + 1) = 0x8000#16 then
      elem 32 (maddwd a b) i = 0x80000000#32
    else
      (elem 32 (maddwd a b) i).toInt = (elem 16 a (2 * i)).toInt * (elem 16 b (2 * i)).toInt +
        (elem 16 a (2 * i + 1)).toInt * (elem 16 b (2 * i + 1)).toInt

/-- For every element that lies within the value: after the insertion the element is the inserted value, and every bit
outside it is as before. (R180.) -/
def Obligations.InsertReplacesOneElement : Prop :=
  ∀ (W w : Nat) (v : BitVec W) (k : Nat) (t : BitVec w), w * k + w ≤ W →
    elem w (insertElem v k t) k = t ∧
      ∀ j, (j < w * k ∨ w * k + w ≤ j) → (insertElem v k t).getLsbD j = v.getLsbD j

/-- With the BMI2 flag, VEX.L = 0 and no forbidden prefix, whatever the control registers: the 32-bit form (both modes)
writes pext_32, zero-extended to the whole register, the 64-bit form (64-bit mode) pext_64, from the register named by
vvvv and a register or memory mask; only the destination and rip change. (R11, R100, R101, R227.) -/
def Obligations.PextResult : Prop :=
  ∀ (e : VexEnc) (dst src : BitVec 4) (o : RM 4) (s : State), pextReady e s →
    (∀ m : BitVec 32, sourceIs false e.prefixes e.len s.reg32 o m s →
      completes (exec (.pextR32 e dst src o) s) (writesGpr dst (pext (s.reg32 src) m) e.len s)) ∧
    ∀ m : BitVec 64, s.env.mode64 = true → sourceIs false e.prefixes e.len s.reg64 o m s →
      completes (exec (.pextR64 e dst src o) s) (writesGpr dst (pext (s.reg64 src) m) e.len s)

/-- The legacy forms with a register destination: imm8[3:0], imm8[1:0] and imm8[0] select a byte, dword, qword of the XMM
source; the whole register is written; only it and rip change. PEXTRQ in 64-bit mode. (R110, R111, R112, R116, R117.) -/
def Obligations.PextrToRegister : Prop :=
  ∀ (e : LegEnc) (d src : BitVec 4) (imm : Byte) (s : State), sseReady .sse41 e s →
    completes (exec (.pextrb e (.reg d) src imm) s)
      (writesGpr d (elem 8 (s.xmm src) (imm.extractLsb' 0 4).toNat) e.len s) ∧
    completes (exec (.pextrd e (.reg d) src imm) s)
      (writesGpr d (elem 32 (s.xmm src) (imm.extractLsb' 0 2).toNat) e.len s) ∧
    (s.env.mode64 = true → completes (exec (.pextrq e (.reg d) src imm) s)
      (writesGpr d (elem 64 (s.xmm src) (imm.extractLsb' 0 1).toNat) e.len s))

/-- The VEX forms with a register destination, VEX.L = 0 and VEX.vvvv naming no register: as the legacy forms; VPEXTRB
with VEX.W = 1 in 64-bit mode only, VPEXTRQ in 64-bit mode only. (R113, R114, R115, R116, R117.) -/
def Obligations.VpextrToRegister : Prop :=
  ∀ (e : VexEnc) (d src : BitVec 4) (imm : Byte) (s : State), vexReady .avx e s → e.l = false →
    e.srcReg s.env.mode64 = 0#4 →
    (vexWFine e s → completes (exec (.vpextrb e (.reg d) src imm) s)
      (writesGpr d (elem 8 (s.xmm src) (imm.extractLsb' 0 4).toNat) e.len s)) ∧
    completes (exec (.vpextrd e (.reg d) src imm) s)
      (writesGpr d (elem 32 (s.xmm src) (imm.extractLsb' 0 2).toNat) e.len s) ∧
    (s.env.mode64 = true → completes (exec (.vpextrq e (.reg d) src imm) s)
      (writesGpr d (elem 64 (s.xmm src) (imm.extractLsb' 0 1).toNat) e.len s))

/-- The legacy MRI forms with a memory destination whose bytes may be stored to: the bytes at the effective address hold
the element, least significant first; every other byte of memory, every register and flag is unchanged. That of two
bytes with one physical address the higher stays is log 25, how byte addresses wrap is log 11. (R30, R34, R110, R111,
R112, R123.) -/
def Obligations.PextrToMemory : Prop :=
  ∀ (e : LegEnc) (o : MemOp) (src : BitVec 4) (imm : Byte) (s : State), sseReady .sse41 e s →
    let g := operandSeg s.env.mode64 e.prefixes o
    let off := s.offset e.prefixes e.len o
    let ready (n : Nat) : Prop := accepts .write false n g off s ∧ storable n g off s
    (ready 1 → completes (exec (.pextrb e (.mem o) src imm) s)
      (storesTo (elem 8 (s.xmm src) (imm.extractLsb' 0 4).toNat) g off e.len s)) ∧
    (ready 4 → completes (exec (.pextrd e (.mem o) src imm) s)
      (storesTo (elem 32 (s.xmm src) (imm.extractLsb' 0 2).toNat) g off e.len s)) ∧
    (s.env.mode64 = true → ready 8 → completes (exec (.pextrq e (.mem o) src imm) s)
      (storesTo (elem 64 (s.xmm src) (imm.extractLsb' 0 1).toNat) g off e.len s)) ∧
    (ready 2 → completes (exec (.pextrwStore e (.mem o) src imm) s)
      (storesTo (elem 16 (s.xmm src) (imm.extractLsb' 0 3).toNat) g off e.len s))

/-- The VEX MRI forms with a memory destination, VEX.L = 0 and VEX.vvvv naming no register: as the legacy forms; the W0
forms with VEX.W = 1 in 64-bit mode only, VPEXTRQ in 64-bit mode only. That of two bytes with one physical address the
higher stays is log 25, how byte addresses wrap is log 11. (R30, R34, R113, R114, R115, R125.) -/
def Obligations.VpextrToMemory : Prop :=
  ∀ (e : VexEnc) (o : MemOp) (src : BitVec 4) (imm : Byte) (s : State), vexReady .avx e s → e.l = false →
    e.srcReg s.env.mode64 = 0#4 →
    let g := operandSeg s.env.mode64 e.prefixes o
    let off := s.offset e.prefixes e.len o
    let ready (n : Nat) : Prop := accepts .write false n g off s ∧ storable n g off s
    (vexWFine e s → ready 1 → completes (exec (.vpextrb e (.mem o) src imm) s)
      (storesTo (elem 8 (s.xmm src) (imm.extractLsb' 0 4).toNat) g off e.len s)) ∧
    (ready 4 → completes (exec (.vpextrd e (.mem o) src imm) s)
      (storesTo (elem 32 (s.xmm src) (imm.extractLsb' 0 2).toNat) g off e.len s)) ∧
    (s.env.mode64 = true → ready 8 → completes (exec (.vpextrq e (.mem o) src imm) s)
      (storesTo (elem 64 (s.xmm src) (imm.extractLsb' 0 1).toNat) g off e.len s)) ∧
    (vexWFine e s → ready 2 → completes (exec (.vpextrwStore e (.mem o) src imm) s)
      (storesTo (elem 16 (s.xmm src) (imm.extractLsb' 0 3).toNat) g off e.len s))

/-- With a register source: imm8[1:0] selects the word; the whole destination register is written; FPU.TOP is 0 and all
tags are valid; the x87 data registers, the other registers, memory and flags are unchanged. (R11, R16, R121, R126.) -/
def Obligations.PextrwFromMmx : Prop :=
  ∀ (e : LegEnc) (d : BitVec 4) (n : BitVec 3) (imm : Byte) (s : State), mmxReady .sse e s →
    completes (exec (.pextrwMmx e d (.reg n) imm) s) fun t =>
      t.reg64 d = (elem 16 (s.mm n) (imm.extractLsb' 0 2).toNat).setWidth 64 ∧ t.fpuTop = 0#3 ∧ t.fpuTag = 0#16 ∧
        t.rip = s.nextRip e.len ∧ keepsGprBut [d] s t ∧ keepsYmmBut [] s t ∧ keepsX87But [] s t ∧ keepsMemory s t ∧
        keepsSystem s t

/-- The forms 66 0F C5 and 66 0F 3A 15 with a register destination, and their VEX counterparts (VEX.L = 0, no vvvv
register, VEX.W = 1 in 64-bit mode only): imm8[2:0] selects the word; the whole register is written; only it and rip
change. (R11, R122, R123, R124, R125, R126.) -/
def Obligations.PextrwFromXmm : Prop :=
  ∀ (d n : BitVec 4) (imm : Byte) (s : State),
    let w := elem 16 (s.xmm n) (imm.extractLsb' 0 3).toNat
    (∀ e : LegEnc, sseReady .sse2 e s → completes (exec (.pextrwXmm e d (.reg n) imm) s) (writesGpr d w e.len s)) ∧
    (∀ e : LegEnc, sseReady .sse41 e s → completes (exec (.pextrwStore e (.reg d) n imm) s) (writesGpr d w e.len s)) ∧
    ∀ e : VexEnc, vexReady .avx e s → e.l = false → e.srcReg s.env.mode64 = 0#4 → vexWFine e s →
      completes (exec (.vpextrw e d (.reg n) imm) s) (writesGpr d w e.len s) ∧
      completes (exec (.vpextrwStore e (.reg d) n imm) s) (writesGpr d w e.len s)

/-- The legacy MMX forms with a register or m64 source: MM[reg] becomes hpair of its old value and the source with the
form's element function, bits 79:64 of the x87 register all ones, FPU.TOP 0, FPU.TAG all valid; nothing else but rip
changes. (R131, R133, R139, R143, R16.) -/
def Obligations.PhaddMmxForms : Prop :=
  ∀ (e : LegEnc) (dst : BitVec 3) (src : RM 3) (s : State) (b : BitVec 64), mmxReady .ssse3 e s →
    sourceIs false e.prefixes e.len s.mm src b s →
    completes (exec (.phaddwMmx e dst src) s) (writesMm dst (hpair (w := 16) addW (s.mm dst) b) e.len s) ∧
    completes (exec (.phadddMmx e dst src) s) (writesMm dst (hpair (w := 32) addW (s.mm dst) b) e.len s) ∧
    completes (exec (.phaddswMmx e dst src) s) (writesMm dst (hpair addS16 (s.mm dst) b) e.len s)

/-- The legacy SSE forms with a register or 16-byte aligned m128 source: bits 127:0 of YMM[reg] become hpair of their old
value and the source with the form's element function, bits 255:128 stay; nothing else but rip changes. (R132, R134,
R140, R143, R18.) -/
def Obligations.PhaddSseForms : Prop :=
  ∀ (e : LegEnc) (dst : BitVec 4) (src : RM 4) (s : State) (b : BitVec 128), sseReady .ssse3 e s →
    sourceIs true e.prefixes e.len s.xmm src b s →
    completes (exec (.phaddwXmm e dst src) s) (writesXmmKeep dst (hpair (w := 16) addW (s.xmm dst) b) e.len s) ∧
    completes (exec (.phadddXmm e dst src) s) (writesXmmKeep dst (hpair (w := 32) addW (s.xmm dst) b) e.len s) ∧
    completes (exec (.phaddswXmm e dst src) s) (writesXmmKeep dst (hpair addS16 (s.xmm dst) b) e.len s)

/-- The VEX.128 forms with a register or m128 source (aligned only if VEX_M128_ALIGN): bits 127:0 of YMM[reg] become hpair
of XMM[vvvv] and the source, bits 255:128 zero; nothing else but rip changes. (R135, R136, R141, R143, R18.) -/
def Obligations.VphaddXmmForms : Prop :=
  ∀ (e : VexEnc) (dst src1 : BitVec 4) (src2 : RM 4) (s : State) (b : BitVec 128), vexReady .avx e s →
    sourceIs s.env.vexM128Align e.prefixes e.len s.xmm src2 b s →
    completes (exec (.vphaddwXmm e dst src1 src2) s)
      (writesXmmZero dst (hpair (w := 16) addW (s.xmm src1) b) e.len s) ∧
    completes (exec (.vphadddXmm e dst src1 src2) s)
      (writesXmmZero dst (hpair (w := 32) addW (s.xmm src1) b) e.len s) ∧
    completes (exec (.vphaddswXmm e dst src1 src2) s) (writesXmmZero dst (hpair addS16 (s.xmm src1) b) e.len s)

/-- The VEX.256 forms with a register or m256 source at any address: YMM[reg] becomes hpair of YMM[vvvv] and the source;
nothing else but rip changes. (R137, R138, R142, R143, R18.) -/
def Obligations.VphaddYmmForms : Prop :=
  ∀ (e : VexEnc) (dst src1 : BitVec 4) (src2 : RM 4) (s : State) (b : BitVec 256), vexReady .avx2 e s →
    sourceIs false e.prefixes e.len s.ymmReg src2 b s →
    completes (exec (.vphaddwYmm e dst src1 src2) s)
      (writesYmm dst (hpair (w := 16) addW (s.ymmReg src1) b) e.len s) ∧
    completes (exec (.vphadddYmm e dst src1 src2) s)
      (writesYmm dst (hpair (w := 32) addW (s.ymmReg src1) b) e.len s) ∧
    completes (exec (.vphaddswYmm e dst src1 src2) s) (writesYmm dst (hpair addS16 (s.ymmReg src1) b) e.len s)

/-- The legacy MMX forms with a register or m64 source: MM[reg] becomes hpair of its old value and the source with the
form's element function, bits 79:64 of the x87 register all ones, FPU.TOP 0, FPU.TAG all valid; nothing else but rip
changes. (R161, R163, R169, R173, R16.) -/
def Obligations.PhsubMmxForms : Prop :=
  ∀ (e : LegEnc) (dst : BitVec 3) (src : RM 3) (s : State) (b : BitVec 64), mmxReady .ssse3 e s →
    sourceIs false e.prefixes e.len s.mm src b s →
    completes (exec (.phsubwMmx e dst src) s) (writesMm dst (hpair (w := 16) subW (s.mm dst) b) e.len s) ∧
    completes (exec (.phsubdMmx e dst src) s) (writesMm dst (hpair (w := 32) subW (s.mm dst) b) e.len s) ∧
    completes (exec (.phsubswMmx e dst src) s) (writesMm dst (hpair subS16 (s.mm dst) b) e.len s)

/-- The legacy SSE forms with a register or 16-byte aligned m128 source: bits 127:0 of YMM[reg] become hpair of their old
value and the source with the form's element function, bits 255:128 stay; nothing else but rip changes. (R162, R164,
R170, R173, R18.) -/
def Obligations.PhsubSseForms : Prop :=
  ∀ (e : LegEnc) (dst : BitVec 4) (src : RM 4) (s : State) (b : BitVec 128), sseReady .ssse3 e s →
    sourceIs true e.prefixes e.len s.xmm src b s →
    completes (exec (.phsubwXmm e dst src) s) (writesXmmKeep dst (hpair (w := 16) subW (s.xmm dst) b) e.len s) ∧
    completes (exec (.phsubdXmm e dst src) s) (writesXmmKeep dst (hpair (w := 32) subW (s.xmm dst) b) e.len s) ∧
    completes (exec (.phsubswXmm e dst src) s) (writesXmmKeep dst (hpair subS16 (s.xmm dst) b) e.len s)

/-- The VEX.128 forms with a register or m128 source (aligned only if VEX_M128_ALIGN): bits 127:0 of YMM[reg] become hpair
of XMM[vvvv] and the source, bits 255:128 zero; nothing else but rip changes. (R165, R166, R171, R173, R18.) -/
def Obligations.VphsubXmmForms : Prop :=
  ∀ (e : VexEnc) (dst src1 : BitVec 4) (src2 : RM 4) (s : State) (b : BitVec 128), vexReady .avx e s →
    sourceIs s.env.vexM128Align e.prefixes e.len s.xmm src2 b s →
    completes (exec (.vphsubwXmm e dst src1 src2) s)
      (writesXmmZero dst (hpair (w := 16) subW (s.xmm src1) b) e.len s) ∧
    completes (exec (.vphsubdXmm e dst src1 src2) s)
      (writesXmmZero dst (hpair (w := 32) subW (s.xmm src1) b) e.len s) ∧
    completes (exec (.vphsubswXmm e dst src1 src2) s) (writesXmmZero dst (hpair subS16 (s.xmm src1) b) e.len s)

/-- The VEX.256 forms with a register or m256 source at any address: YMM[reg] becomes hpair of YMM[vvvv] and the source;
nothing else but rip changes. (R167, R168, R172, R173, R18.) -/
def Obligations.VphsubYmmForms : Prop :=
  ∀ (e : VexEnc) (dst src1 : BitVec 4) (src2 : RM 4) (s : State) (b : BitVec 256), vexReady .avx2 e s →
    sourceIs false e.prefixes e.len s.ymmReg src2 b s →
    completes (exec (.vphsubwYmm e dst src1 src2) s)
      (writesYmm dst (hpair (w := 16) subW (s.ymmReg src1) b) e.len s) ∧
    completes (exec (.vphsubdYmm e dst src1 src2) s)
      (writesYmm dst (hpair (w := 32) subW (s.ymmReg src1) b) e.len s) ∧
    completes (exec (.vphsubswYmm e dst src1 src2) s) (writesYmm dst (hpair subS16 (s.ymmReg src1) b) e.len s)

/-- The legacy form (aligned m128) keeps bits 255:128 of its destination, the VEX form (VEX.L = 0, no vvvv register)
zeroes them; bits 127:0 become minpos of the register or memory source; nothing else but rip changes. (R18, R150,
R151.) -/
def Obligations.PhminposuwForms : Prop :=
  ∀ (dst : BitVec 4) (src : RM 4) (s : State) (v : BitVec 128),
    (∀ e : LegEnc, sseReady .sse41 e s → sourceIs true e.prefixes e.len s.xmm src v s →
      completes (exec (.phminposuw e dst src) s) (writesXmmKeep dst (minpos v) e.len s)) ∧
    ∀ e : VexEnc, vexReady .avx e s → e.l = false → e.srcReg s.env.mode64 = 0#4 →
      sourceIs s.env.vexM128Align e.prefixes e.len s.xmm src v s →
      completes (exec (.vphminposuw e dst src) s) (writesXmmZero dst (minpos v) e.len s)

/-- The legacy forms with a register source (its low byte, dword, qword) or a memory source of 1, 4, 8 bytes: the element
that imm8[3:0], imm8[1:0], imm8[0] selects is replaced, bits 255:128 stay; nothing else but rip changes. PINSRQ in
64-bit mode. (R180, R181, R182, R183, R187.) -/
def Obligations.PinsrForms : Prop :=
  ∀ (e : LegEnc) (dst : BitVec 4) (src : RM 4) (imm : Byte) (s : State), sseReady .sse41 e s →
    (∀ t : BitVec 8, sourceIs false e.prefixes e.len s.reg8 src t s →
      completes (exec (.pinsrb e dst src imm) s)
        (writesXmmKeep dst (insertElem (s.xmm dst) (imm.extractLsb' 0 4).toNat t) e.len s)) ∧
    (∀ t : BitVec 32, sourceIs false e.prefixes e.len s.reg32 src t s →
      completes (exec (.pinsrd e dst src imm) s)
        (writesXmmKeep dst (insertElem (s.xmm dst) (imm.extractLsb' 0 2).toNat t) e.len s)) ∧
    ∀ t : BitVec 64, s.env.mode64 = true → sourceIs false e.prefixes e.len s.reg64 src t s →
      completes (exec (.pinsrq e dst src imm) s)
        (writesXmmKeep dst (insertElem (s.xmm dst) (imm.extractLsb' 0 1).toNat t) e.len s)

/-- The VEX forms with VEX.L = 0: bits 127:0 of the destination become XMM[vvvv] with the selected element replaced, bits
255:128 zero; nothing else but rip changes. VPINSRB with VEX.W = 1 and VPINSRQ in 64-bit mode only. (R180, R184, R185,
R186, R187.) -/
def Obligations.VpinsrForms : Prop :=
  ∀ (e : VexEnc) (dst src1 : BitVec 4) (src2 : RM 4) (imm : Byte) (s : State), vexReady .avx e s → e.l = false →
    (∀ t : BitVec 8, vexWFine e s → sourceIs false e.prefixes e.len s.reg8 src2 t s →
      completes (exec (.vpinsrb e dst src1 src2 imm) s)
        (writesXmmZero dst (insertElem (s.xmm src1) (imm.extractLsb' 0 4).toNat t) e.len s)) ∧
    (∀ t : BitVec 32, sourceIs false e.prefixes e.len s.reg32 src2 t s →
      completes (exec (.vpinsrd e dst src1 src2 imm) s)
        (writesXmmZero dst (insertElem (s.xmm src1) (imm.extractLsb' 0 2).toNat t) e.len s)) ∧
    ∀ t : BitVec 64, s.env.mode64 = true → sourceIs false e.prefixes e.len s.reg64 src2 t s →
      completes (exec (.vpinsrq e dst src1 src2 imm) s)
        (writesXmmZero dst (insertElem (s.xmm src1) (imm.extractLsb' 0 1).toNat t) e.len s)

/-- With the low word of a register or an m16: the MMX form replaces word imm8[1:0] of MM[reg] with the x87 side effects,
the SSE form word imm8[2:0] of XMM[reg] and keeps bits 255:128, the VEX form (VEX.L = 0; VEX.W = 1 in 64-bit mode
only) merges into XMM[vvvv] and zeroes them; nothing else but rip changes. (R16, R18, R190, R191, R192, R193.) -/
def Obligations.PinsrwForms : Prop :=
  ∀ (src : RM 4) (imm : Byte) (s : State) (t : BitVec 16),
    (∀ (e : LegEnc) (dst : BitVec 3), mmxReady .sse e s → sourceIs false e.prefixes e.len s.reg16 src t s →
      completes (exec (.pinsrwMmx e dst src imm) s)
        (writesMm dst (insertElem (s.mm dst) (imm.extractLsb' 0 2).toNat t) e.len s)) ∧
    (∀ (e : LegEnc) (dst : BitVec 4), sseReady .sse2 e s → sourceIs false e.prefixes e.len s.reg16 src t s →
      completes (exec (.pinsrwXmm e dst src imm) s)
        (writesXmmKeep dst (insertElem (s.xmm dst) (imm.extractLsb' 0 3).toNat t) e.len s)) ∧
    ∀ (e : VexEnc) (dst src1 : BitVec 4), vexReady .avx e s → e.l = false → vexWFine e s →
      sourceIs false e.prefixes e.len s.reg16 src t s →
      completes (exec (.vpinsrw e dst src1 src imm) s)
        (writesXmmZero dst (insertElem (s.xmm src1) (imm.extractLsb' 0 3).toNat t) e.len s)

/-- The MMX form (register or m64) writes maddubs of the old destination and the source with the x87 side effects; the SSE
form (register or aligned m128) writes it to bits 127:0 and keeps bits 255:128; nothing else but rip changes. (R16,
R18, R201, R202, R205.) -/
def Obligations.PmaddubswLegacyForms : Prop :=
  ∀ (e : LegEnc) (s : State),
    (∀ (dst : BitVec 3) (src : RM 3) (b : BitVec 64), mmxReady .ssse3 e s → sourceIs false e.prefixes e.len s.mm src b s →
      completes (exec (.pmaddubswMmx e dst src) s) (writesMm dst (maddubs (s.mm dst) b) e.len s)) ∧
    ∀ (dst : BitVec 4) (src : RM 4) (b : BitVec 128), sseReady .ssse3 e s → sourceIs true e.prefixes e.len s.xmm src b s →
      completes (exec (.pmaddubswXmm e dst src) s) (writesXmmKeep dst (maddubs (s.xmm dst) b) e.len s)

/-- The VEX.128 form writes maddubs of XMM[vvvv] and the register or m128 source and zeroes bits 255:128; the VEX.256 form
writes maddubs of YMM[vvvv] and the register or m256 source; nothing else but rip changes. (R18, R203, R204, R205.) -/
def Obligations.VpmaddubswForms : Prop :=
  ∀ (e : VexEnc) (dst src1 : BitVec 4) (src2 : RM 4) (s : State),
    (∀ b : BitVec 128, vexReady .avx e s → sourceIs s.env.vexM128Align e.prefixes e.len s.xmm src2 b s →
      completes (exec (.vpmaddubswXmm e dst src1 src2) s) (writesXmmZero dst (maddubs (s.xmm src1) b) e.len s)) ∧
    ∀ b : BitVec 256, vexReady .avx2 e s → sourceIs false e.prefixes e.len s.ymmReg src2 b s →
      completes (exec (.vpmaddubswYmm e dst src1 src2) s) (writesYmm dst (maddubs (s.ymmReg src1) b) e.len s)

/-- The MMX form (register or m64) writes maddwd of the old destination and the source with the x87 side effects; the SSE
form (register or aligned m128) writes it to bits 127:0 and keeps bits 255:128; nothing else but rip changes. (R16,
R18, R211, R212, R215.) -/
def Obligations.PmaddwdLegacyForms : Prop :=
  ∀ (e : LegEnc) (s : State),
    (∀ (dst : BitVec 3) (src : RM 3) (b : BitVec 64), mmxReady .mmx e s → sourceIs false e.prefixes e.len s.mm src b s →
      completes (exec (.pmaddwdMmx e dst src) s) (writesMm dst (maddwd (s.mm dst) b) e.len s)) ∧
    ∀ (dst : BitVec 4) (src : RM 4) (b : BitVec 128), sseReady .sse2 e s → sourceIs true e.prefixes e.len s.xmm src b s →
      completes (exec (.pmaddwdXmm e dst src) s) (writesXmmKeep dst (maddwd (s.xmm dst) b) e.len s)

/-- The VEX.128 form writes maddwd of XMM[vvvv] and the register or m128 source and zeroes bits 255:128; the VEX.256 form
writes maddwd of YMM[vvvv] and the register or m256 source; nothing else but rip changes. (R18, R213, R214, R215.) -/
def Obligations.VpmaddwdForms : Prop :=
  ∀ (e : VexEnc) (dst src1 : BitVec 4) (src2 : RM 4) (s : State),
    (∀ b : BitVec 128, vexReady .avx e s → sourceIs s.env.vexM128Align e.prefixes e.len s.xmm src2 b s →
      completes (exec (.vpmaddwdXmm e dst src1 src2) s) (writesXmmZero dst (maddwd (s.xmm src1) b) e.len s)) ∧
    ∀ b : BitVec 256, vexReady .avx2 e s → sourceIs false e.prefixes e.len s.ymmReg src2 b s →
      completes (exec (.vpmaddwdYmm e dst src1 src2) s) (writesYmm dst (maddwd (s.ymmReg src1) b) e.len s)

end
end

