-- ==== Sys2Proof/Laws/State.lean ====
section
/-! SUPPORT. One lemma for each field and each update of the state, and what a register reads after a register is written. -/

namespace Sys2Proof.Machine

variable (s : State)

@[simp] theorem setRip_gpr (a : Word) : (s.setRip a).gpr = s.gpr := rfl
@[simp] theorem setRip_rip (a : Word) : (s.setRip a).rip = a := rfl
@[simp] theorem setRip_rflags (a : Word) : (s.setRip a).rflags = s.rflags := rfl
@[simp] theorem setRip_x87 (a : Word) : (s.setRip a).x87 = s.x87 := rfl
@[simp] theorem setRip_fpuTop (a : Word) : (s.setRip a).fpuTop = s.fpuTop := rfl
@[simp] theorem setRip_fpuTag (a : Word) : (s.setRip a).fpuTag = s.fpuTag := rfl
@[simp] theorem setRip_ymm (a : Word) : (s.setRip a).ymm = s.ymm := rfl
@[simp] theorem setRip_mxcsr (a : Word) : (s.setRip a).mxcsr = s.mxcsr := rfl
@[simp] theorem setRip_mem (a : Word) : (s.setRip a).mem = s.mem := rfl
@[simp] theorem setRip_env (a : Word) : (s.setRip a).env = s.env := rfl

@[simp] theorem setReg64_rip (n : BitVec 4) (v : Word) : (s.setReg64 n v).rip = s.rip := rfl
@[simp] theorem setReg64_rflags (n : BitVec 4) (v : Word) : (s.setReg64 n v).rflags = s.rflags := rfl
@[simp] theorem setReg64_x87 (n : BitVec 4) (v : Word) : (s.setReg64 n v).x87 = s.x87 := rfl
@[simp] theorem setReg64_fpuTop (n : BitVec 4) (v : Word) : (s.setReg64 n v).fpuTop = s.fpuTop := rfl
@[simp] theorem setReg64_fpuTag (n : BitVec 4) (v : Word) : (s.setReg64 n v).fpuTag = s.fpuTag := rfl
@[simp] theorem setReg64_ymm (n : BitVec 4) (v : Word) : (s.setReg64 n v).ymm = s.ymm := rfl
@[simp] theorem setReg64_mxcsr (n : BitVec 4) (v : Word) : (s.setReg64 n v).mxcsr = s.mxcsr := rfl
@[simp] theorem setReg64_mem (n : BitVec 4) (v : Word) : (s.setReg64 n v).mem = s.mem := rfl
@[simp] theorem setReg64_env (n : BitVec 4) (v : Word) : (s.setReg64 n v).env = s.env := rfl

@[simp] theorem setReg32_rip (n : BitVec 4) (v : BitVec 32) : (s.setReg32 n v).rip = s.rip := rfl
@[simp] theorem setReg32_rflags (n : BitVec 4) (v : BitVec 32) : (s.setReg32 n v).rflags = s.rflags := rfl
@[simp] theorem setReg32_x87 (n : BitVec 4) (v : BitVec 32) : (s.setReg32 n v).x87 = s.x87 := rfl
@[simp] theorem setReg32_fpuTop (n : BitVec 4) (v : BitVec 32) : (s.setReg32 n v).fpuTop = s.fpuTop := rfl
@[simp] theorem setReg32_fpuTag (n : BitVec 4) (v : BitVec 32) : (s.setReg32 n v).fpuTag = s.fpuTag := rfl
@[simp] theorem setReg32_ymm (n : BitVec 4) (v : BitVec 32) : (s.setReg32 n v).ymm = s.ymm := rfl
@[simp] theorem setReg32_mxcsr (n : BitVec 4) (v : BitVec 32) : (s.setReg32 n v).mxcsr = s.mxcsr := rfl
@[simp] theorem setReg32_mem (n : BitVec 4) (v : BitVec 32) : (s.setReg32 n v).mem = s.mem := rfl
@[simp] theorem setReg32_env (n : BitVec 4) (v : BitVec 32) : (s.setReg32 n v).env = s.env := rfl

@[simp] theorem setYmm_gpr (n : BitVec 4) (v : BitVec 256) : (s.setYmm n v).gpr = s.gpr := rfl
@[simp] theorem setYmm_rip (n : BitVec 4) (v : BitVec 256) : (s.setYmm n v).rip = s.rip := rfl
@[simp] theorem setYmm_rflags (n : BitVec 4) (v : BitVec 256) : (s.setYmm n v).rflags = s.rflags := rfl
@[simp] theorem setYmm_x87 (n : BitVec 4) (v : BitVec 256) : (s.setYmm n v).x87 = s.x87 := rfl
@[simp] theorem setYmm_fpuTop (n : BitVec 4) (v : BitVec 256) : (s.setYmm n v).fpuTop = s.fpuTop := rfl
@[simp] theorem setYmm_fpuTag (n : BitVec 4) (v : BitVec 256) : (s.setYmm n v).fpuTag = s.fpuTag := rfl
@[simp] theorem setYmm_mxcsr (n : BitVec 4) (v : BitVec 256) : (s.setYmm n v).mxcsr = s.mxcsr := rfl
@[simp] theorem setYmm_mem (n : BitVec 4) (v : BitVec 256) : (s.setYmm n v).mem = s.mem := rfl
@[simp] theorem setYmm_env (n : BitVec 4) (v : BitVec 256) : (s.setYmm n v).env = s.env := rfl

@[simp] theorem setXmmKeep_gpr (n : BitVec 4) (v : BitVec 128) : (s.setXmmKeep n v).gpr = s.gpr := rfl
@[simp] theorem setXmmKeep_rip (n : BitVec 4) (v : BitVec 128) : (s.setXmmKeep n v).rip = s.rip := rfl
@[simp] theorem setXmmKeep_rflags (n : BitVec 4) (v : BitVec 128) : (s.setXmmKeep n v).rflags = s.rflags := rfl
@[simp] theorem setXmmKeep_x87 (n : BitVec 4) (v : BitVec 128) : (s.setXmmKeep n v).x87 = s.x87 := rfl
@[simp] theorem setXmmKeep_fpuTop (n : BitVec 4) (v : BitVec 128) : (s.setXmmKeep n v).fpuTop = s.fpuTop := rfl
@[simp] theorem setXmmKeep_fpuTag (n : BitVec 4) (v : BitVec 128) : (s.setXmmKeep n v).fpuTag = s.fpuTag := rfl
@[simp] theorem setXmmKeep_mxcsr (n : BitVec 4) (v : BitVec 128) : (s.setXmmKeep n v).mxcsr = s.mxcsr := rfl
@[simp] theorem setXmmKeep_mem (n : BitVec 4) (v : BitVec 128) : (s.setXmmKeep n v).mem = s.mem := rfl
@[simp] theorem setXmmKeep_env (n : BitVec 4) (v : BitVec 128) : (s.setXmmKeep n v).env = s.env := rfl

@[simp] theorem setXmmZero_gpr (n : BitVec 4) (v : BitVec 128) : (s.setXmmZero n v).gpr = s.gpr := rfl
@[simp] theorem setXmmZero_rip (n : BitVec 4) (v : BitVec 128) : (s.setXmmZero n v).rip = s.rip := rfl
@[simp] theorem setXmmZero_rflags (n : BitVec 4) (v : BitVec 128) : (s.setXmmZero n v).rflags = s.rflags := rfl
@[simp] theorem setXmmZero_x87 (n : BitVec 4) (v : BitVec 128) : (s.setXmmZero n v).x87 = s.x87 := rfl
@[simp] theorem setXmmZero_fpuTop (n : BitVec 4) (v : BitVec 128) : (s.setXmmZero n v).fpuTop = s.fpuTop := rfl
@[simp] theorem setXmmZero_fpuTag (n : BitVec 4) (v : BitVec 128) : (s.setXmmZero n v).fpuTag = s.fpuTag := rfl
@[simp] theorem setXmmZero_mxcsr (n : BitVec 4) (v : BitVec 128) : (s.setXmmZero n v).mxcsr = s.mxcsr := rfl
@[simp] theorem setXmmZero_mem (n : BitVec 4) (v : BitVec 128) : (s.setXmmZero n v).mem = s.mem := rfl
@[simp] theorem setXmmZero_env (n : BitVec 4) (v : BitVec 128) : (s.setXmmZero n v).env = s.env := rfl

@[simp] theorem setMm_gpr (n : BitVec 3) (v : BitVec 64) : (s.setMm n v).gpr = s.gpr := rfl
@[simp] theorem setMm_rip (n : BitVec 3) (v : BitVec 64) : (s.setMm n v).rip = s.rip := rfl
@[simp] theorem setMm_rflags (n : BitVec 3) (v : BitVec 64) : (s.setMm n v).rflags = s.rflags := rfl
@[simp] theorem setMm_fpuTop (n : BitVec 3) (v : BitVec 64) : (s.setMm n v).fpuTop = s.fpuTop := rfl
@[simp] theorem setMm_fpuTag (n : BitVec 3) (v : BitVec 64) : (s.setMm n v).fpuTag = s.fpuTag := rfl
@[simp] theorem setMm_ymm (n : BitVec 3) (v : BitVec 64) : (s.setMm n v).ymm = s.ymm := rfl
@[simp] theorem setMm_mxcsr (n : BitVec 3) (v : BitVec 64) : (s.setMm n v).mxcsr = s.mxcsr := rfl
@[simp] theorem setMm_mem (n : BitVec 3) (v : BitVec 64) : (s.setMm n v).mem = s.mem := rfl
@[simp] theorem setMm_env (n : BitVec 3) (v : BitVec 64) : (s.setMm n v).env = s.env := rfl

@[simp] theorem touchX87_gpr : s.touchX87.gpr = s.gpr := rfl
@[simp] theorem touchX87_rip : s.touchX87.rip = s.rip := rfl
@[simp] theorem touchX87_rflags : s.touchX87.rflags = s.rflags := rfl
@[simp] theorem touchX87_x87 : s.touchX87.x87 = s.x87 := rfl
@[simp] theorem touchX87_fpuTop : s.touchX87.fpuTop = 0#3 := rfl
@[simp] theorem touchX87_fpuTag : s.touchX87.fpuTag = 0#16 := rfl
@[simp] theorem touchX87_ymm : s.touchX87.ymm = s.ymm := rfl
@[simp] theorem touchX87_mxcsr : s.touchX87.mxcsr = s.mxcsr := rfl
@[simp] theorem touchX87_mem : s.touchX87.mem = s.mem := rfl
@[simp] theorem touchX87_env : s.touchX87.env = s.env := rfl

/-! Registers that another update leaves. -/

@[simp] theorem setRip_reg64 (a : Word) (m : BitVec 4) : (s.setRip a).reg64 m = s.reg64 m := rfl
@[simp] theorem setRip_ymmReg (a : Word) (m : BitVec 4) : (s.setRip a).ymmReg m = s.ymmReg m := rfl
@[simp] theorem setRip_mm (a : Word) (m : BitVec 3) : (s.setRip a).mm m = s.mm m := rfl
@[simp] theorem setReg64_ymmReg (n : BitVec 4) (v : Word) (m : BitVec 4) : (s.setReg64 n v).ymmReg m = s.ymmReg m := rfl
@[simp] theorem setReg64_mm (n : BitVec 4) (v : Word) (m : BitVec 3) : (s.setReg64 n v).mm m = s.mm m := rfl
@[simp] theorem setReg32_ymmReg (n : BitVec 4) (v : BitVec 32) (m : BitVec 4) : (s.setReg32 n v).ymmReg m = s.ymmReg m := rfl
@[simp] theorem setReg32_mm (n : BitVec 4) (v : BitVec 32) (m : BitVec 3) : (s.setReg32 n v).mm m = s.mm m := rfl
@[simp] theorem setYmm_reg64 (n : BitVec 4) (v : BitVec 256) (m : BitVec 4) : (s.setYmm n v).reg64 m = s.reg64 m := rfl
@[simp] theorem setYmm_mm (n : BitVec 4) (v : BitVec 256) (m : BitVec 3) : (s.setYmm n v).mm m = s.mm m := rfl
@[simp] theorem setXmmKeep_reg64 (n : BitVec 4) (v : BitVec 128) (m : BitVec 4) : (s.setXmmKeep n v).reg64 m = s.reg64 m := rfl
@[simp] theorem setXmmKeep_mm (n : BitVec 4) (v : BitVec 128) (m : BitVec 3) : (s.setXmmKeep n v).mm m = s.mm m := rfl
@[simp] theorem setXmmZero_reg64 (n : BitVec 4) (v : BitVec 128) (m : BitVec 4) : (s.setXmmZero n v).reg64 m = s.reg64 m := rfl
@[simp] theorem setXmmZero_mm (n : BitVec 4) (v : BitVec 128) (m : BitVec 3) : (s.setXmmZero n v).mm m = s.mm m := rfl
@[simp] theorem setMm_reg64 (n : BitVec 3) (v : BitVec 64) (m : BitVec 4) : (s.setMm n v).reg64 m = s.reg64 m := rfl
@[simp] theorem setMm_ymmReg (n : BitVec 3) (v : BitVec 64) (m : BitVec 4) : (s.setMm n v).ymmReg m = s.ymmReg m := rfl
@[simp] theorem touchX87_reg64 (m : BitVec 4) : s.touchX87.reg64 m = s.reg64 m := rfl
@[simp] theorem touchX87_ymmReg (m : BitVec 4) : s.touchX87.ymmReg m = s.ymmReg m := rfl
@[simp] theorem touchX87_mm (m : BitVec 3) : s.touchX87.mm m = s.mm m := rfl

/-! A register after it, or another, is written. -/

@[simp] theorem setReg64_same (n : BitVec 4) (v : Word) : (s.setReg64 n v).reg64 n = v := by
  simp [State.setReg64, State.reg64]

theorem setReg64_other {n m : BitVec 4} (v : Word) (h : m ≠ n) : (s.setReg64 n v).reg64 m = s.reg64 m := by
  have : n.toNat ≠ m.toNat := fun e => h (BitVec.eq_of_toNat_eq e.symm)
  simp [State.setReg64, State.reg64, this]

@[simp] theorem setReg32_same (n : BitVec 4) (v : BitVec 32) : (s.setReg32 n v).reg64 n = v.setWidth 64 :=
  setReg64_same s n _

theorem setReg32_other {n m : BitVec 4} (v : BitVec 32) (h : m ≠ n) : (s.setReg32 n v).reg64 m = s.reg64 m :=
  setReg64_other s _ h

@[simp] theorem setYmm_same (n : BitVec 4) (v : BitVec 256) : (s.setYmm n v).ymmReg n = v := by
  simp [State.setYmm, State.ymmReg]

theorem setYmm_other {n m : BitVec 4} (v : BitVec 256) (h : m ≠ n) : (s.setYmm n v).ymmReg m = s.ymmReg m := by
  have : n.toNat ≠ m.toNat := fun e => h (BitVec.eq_of_toNat_eq e.symm)
  simp [State.setYmm, State.ymmReg, this]

@[simp] theorem setXmmKeep_same (n : BitVec 4) (v : BitVec 128) :
    (s.setXmmKeep n v).ymmReg n = (s.ymmReg n).extractLsb' 128 128 ++ v := setYmm_same s n _

theorem setXmmKeep_other {n m : BitVec 4} (v : BitVec 128) (h : m ≠ n) :
    (s.setXmmKeep n v).ymmReg m = s.ymmReg m := setYmm_other s _ h

@[simp] theorem setXmmZero_same (n : BitVec 4) (v : BitVec 128) : (s.setXmmZero n v).ymmReg n = 0#128 ++ v :=
  setYmm_same s n _

theorem setXmmZero_other {n m : BitVec 4} (v : BitVec 128) (h : m ≠ n) :
    (s.setXmmZero n v).ymmReg m = s.ymmReg m := setYmm_other s _ h

@[simp] theorem setMm_same (n : BitVec 3) (v : BitVec 64) :
    (s.setMm n v).x87[n.toNat]'n.isLt = 0xFFFF#16 ++ v := by
  simp [State.setMm]

theorem setMm_other {n m : BitVec 3} (v : BitVec 64) (h : m ≠ n) :
    (s.setMm n v).x87[m.toNat]'m.isLt = s.x87[m.toNat]'m.isLt := by
  have : n.toNat ≠ m.toNat := fun e => h (BitVec.eq_of_toNat_eq e.symm)
  simp [State.setMm, this]

end Sys2Proof.Machine
end

