-- ==== Sys2Proof/Laws/Memory.lean ====
section
/-! SUPPORT. Memory: every operation keeps the canonical form, a byte reads as it was last written, and a write leaves every
other byte alone. -/

namespace Sys2Proof.Machine

/-! ## One byte -/

/-- Every address of a tail in canonical form is above the head's. -/
theorem wf_cons {a : Nat} {v : Byte} {m : Memory} :
    Memory.wf ((a, v) :: m) = true ↔ (∀ c ∈ m, a < c.1) ∧ Memory.wf m = true := by
  induction m generalizing a v with
  | nil => simp [Memory.wf]
  | cons c t ih =>
    obtain ⟨b, u⟩ := c
    simp only [Memory.wf, Bool.and_eq_true, decide_eq_true_eq]
    constructor
    · rintro ⟨hab, hw⟩
      refine ⟨?_, hw⟩
      intro c hc
      rcases List.mem_cons.1 hc with rfl | hc
      · exact hab
      · exact Nat.lt_trans hab ((ih.1 hw).1 c hc)
    · rintro ⟨h, hw⟩
      exact ⟨h _ (List.mem_cons_self ..), hw⟩

/-- The entries after a write are the new one and old ones. -/
theorem mem_write {a : Nat} {v : Byte} {m : Memory} {c : Host.Cell} (h : c ∈ m.write a v) : c = (a, v) ∨ c ∈ m := by
  induction m with
  | nil => simpa [Memory.write] using h
  | cons d t ih =>
    obtain ⟨k, u⟩ := d
    simp only [Memory.write] at h
    split at h
    · simpa using h
    · split at h
      · rcases List.mem_cons.1 h with h | h
        · exact .inl h
        · exact .inr (List.mem_cons_of_mem _ h)
      · rcases List.mem_cons.1 h with h | h
        · exact .inr (h ▸ List.mem_cons_self ..)
        · exact (ih h).imp_right (List.mem_cons_of_mem _)

/-- A write of one byte keeps the canonical form. -/
theorem write_wf {a : Nat} {v : Byte} {m : Memory} (h : Memory.wf m = true) : Memory.wf (m.write a v) = true := by
  induction m with
  | nil => rfl
  | cons d t ih =>
    obtain ⟨k, u⟩ := d
    obtain ⟨hk, ht⟩ := wf_cons.1 h
    simp only [Memory.write]
    split
    · next hlt =>
      refine wf_cons.2 ⟨?_, h⟩
      intro c hc
      rcases List.mem_cons.1 hc with rfl | hc
      · exact hlt
      · exact Nat.lt_trans hlt (hk c hc)
    · split
      · next heq => exact wf_cons.2 ⟨fun c hc => heq ▸ hk c hc, ht⟩
      · next h1 h2 =>
        refine wf_cons.2 ⟨?_, ih ht⟩
        intro c hc
        rcases mem_write hc with rfl | hc
        · change k < a
          omega
        · exact hk c hc

/-- The byte just written. -/
@[simp] theorem read_write_same (a : Nat) (v : Byte) (m : Memory) : (m.write a v).read a = some v := by
  induction m with
  | nil => simp [Memory.write, Memory.read]
  | cons d t ih =>
    obtain ⟨k, u⟩ := d
    simp only [Memory.write]
    split
    · simp [Memory.read]
    · split
      · simp [Memory.read]
      · next h => simpa [Memory.read, Ne.symm h] using ih

/-- Every other byte. -/
theorem read_write_other {a b : Nat} (v : Byte) (m : Memory) (h : b ≠ a) : (m.write a v).read b = m.read b := by
  induction m with
  | nil => simp [Memory.write, Memory.read, Ne.symm h]
  | cons d t ih =>
    obtain ⟨k, u⟩ := d
    simp only [Memory.write]
    split
    · simp [Memory.read, Ne.symm h]
    · split
      · next h2 => subst h2; simp [Memory.read, Ne.symm h]
      · simp [Memory.read, ih]

/-! ## Bytes at a list of addresses -/

/-- Writing any bytes anywhere keeps the canonical form. -/
theorem writeAll_wf {m : Memory} (as : List Nat) (vs : List Byte) (h : Memory.wf m = true) :
    Memory.wf (m.writeAll as vs) = true := by
  induction as generalizing m vs with
  | nil => simpa [Memory.writeAll] using h
  | cons a as ih =>
    cases vs with
    | nil => simpa [Memory.writeAll] using h
    | cons v vs => exact ih vs (write_wf h)

/-- A byte at none of the addresses. -/
theorem read_writeAll_other {m : Memory} {b : Nat} (as : List Nat) (vs : List Byte) (h : b ∉ as) :
    (m.writeAll as vs).read b = m.read b := by
  induction as generalizing m vs with
  | nil => simp [Memory.writeAll]
  | cons a as ih =>
    cases vs with
    | nil => simp [Memory.writeAll]
    | cons v vs =>
      simp only [List.mem_cons, not_or] at h
      simp [Memory.writeAll, ih vs h.2, read_write_other v m h.1]

/-- The last of the bytes written at an address is the one it holds. -/
theorem read_writeAll_at {m : Memory} {as : List Nat} {vs : List Byte} {i : Nat} (hi : i < as.length) (hv : i < vs.length)
    (h : ∀ j, (hj : j < as.length) → i < j → as[j] ≠ as[i]) : (m.writeAll as vs).read as[i] = some vs[i] := by
  induction as generalizing m vs i with
  | nil => simp at hi
  | cons a as ih =>
    cases vs with
    | nil => simp at hv
    | cons v vs =>
      cases i with
      | zero =>
        have hn : a ∉ as := by
          intro hm
          obtain ⟨j, hj, he⟩ := List.getElem_of_mem hm
          exact h (j + 1) (by simpa using hj) (by omega) (by simpa using he)
        simp [Memory.writeAll, read_writeAll_other as vs hn]
      | succ i =>
        have := ih (m := m.write a v) (vs := vs) (i := i) (by simpa using hi) (by simpa using hv)
          (fun j hj hij => h (j + 1) (by simpa using hj) (by omega))
        simpa [Memory.writeAll] using this

/-- Reading a list of addresses answers bytes exactly when each address holds its byte. -/
theorem readAll_eq_ok {m : Memory} {as : List Nat} {vs : List Byte} :
    m.readAll as = .ok vs ↔ List.Forall₂ (fun a v => m.read a = some v) as vs := by
  induction as generalizing vs with
  | nil => simp [Memory.readAll, eq_comm]
  | cons a as ih =>
    simp only [Memory.readAll]
    cases hr : m.read a with
    | none => simp [List.forall₂_cons_left_iff, hr]
    | some v =>
      cases ha : m.readAll as with
      | error e =>
        have : ∀ ws, ¬ List.Forall₂ (fun a v => m.read a = some v) as ws := fun ws hw => by
          rw [← ih, ha] at hw; cases hw
        simp [List.forall₂_cons_left_iff, hr, this, Except.map]
      | ok ws =>
        have hw := ih.1 ha
        simp only [Except.map, Except.ok.injEq, List.forall₂_cons_left_iff, hr, Option.some.injEq]
        constructor
        · rintro rfl; exact ⟨v, ws, rfl, hw, rfl⟩
        · rintro ⟨v', ws', rfl, hw', rfl⟩
          have := ih.2 hw'
          rw [ha] at this
          cases this; rfl

/-! ## Values of bytes -/

/-- Bit `j` of the value of bytes is bit `j % 8` of byte `j / 8` (20_memory.md R30). -/
theorem getLsbD_ofBytes {w : Nat} (vs : List Byte) (j : Nat) :
    (ofBytes w vs).getLsbD j = (decide (j < w) && (vs.getD (j / 8) 0#8).getLsbD (j % 8)) := by
  induction vs generalizing j with
  | nil => simp [ofBytes]
  | cons v vs ih =>
    simp only [ofBytes, BitVec.getLsbD_or, BitVec.getLsbD_setWidth, BitVec.getLsbD_shiftLeft, ih]
    by_cases hj : j < 8
    · have h0 : j / 8 = 0 := by omega
      have h1 : j % 8 = j := by omega
      simp [hj, h0, h1]
    · have h0 : (j - 8) / 8 = j / 8 - 1 := by omega
      have h1 : (j - 8) % 8 = j % 8 := by omega
      have h2 : ∃ q, j / 8 = q + 1 := ⟨j / 8 - 1, by omega⟩
      obtain ⟨q, hq⟩ := h2
      have h3 : v.getLsbD j = false := BitVec.getLsbD_of_ge v j (by omega)
      have h4 : decide (j - 8 < w) = true ∨ decide (j < w) = false := by
        by_cases hw : j < w
        · exact .inl (by simp; omega)
        · exact .inr (by simp [hw])
      rcases h4 with h4 | h4 <;> simp [hj, h0, h1, hq, h3, h4]

/-- The value of the bytes of a value is the value (20_memory.md R30). -/
theorem ofBytes_leBytes {w : Nat} (v : BitVec w) (hw : w % 8 = 0) : ofBytes w (leBytes (w / 8) v) = v := by
  apply BitVec.eq_of_getLsbD_eq
  intro j hj
  rw [getLsbD_ofBytes]
  have h : j / 8 < w / 8 := by omega
  have h2 : 8 * (j / 8) + j % 8 = j := by omega
  have h3 : j % 8 < 8 := by omega
  simp [leBytes, List.getD_eq_getElem?_getD, h, hj, h2, h3]

/-- The bytes of a value: as many as asked for. -/
@[simp] theorem leBytes_length {w : Nat} (n : Nat) (v : BitVec w) : (leBytes n v).length = n := by simp [leBytes]

/-- Byte `i` of a value. -/
@[simp] theorem leBytes_getElem {w : Nat} (n : Nat) (v : BitVec w) (i : Nat) (h : i < (leBytes n v).length) :
    (leBytes n v)[i] = v.extractLsb' (8 * i) 8 := by simp [leBytes]

/-- The memory after reset has the canonical form. -/
theorem reset_mem_wf : Memory.wf State.reset.mem = true := rfl

end Sys2Proof.Machine
end

