-- ==== Sys2Proof/Laws/Access.lean ====
section
/-! SUPPORT. What each shared operation over memory answers, said once: the checks of an operand, a read, a write. -/

namespace Sys2Proof.Machine

/-! ## Translation -/

/-- No page fault exactly where translation gives every byte an address (20_memory.md R40). -/
theorem pageFault_eq_none {s : State} {k : Access} {as : List Word} :
    s.pageFault k as = none ↔ ∀ a ∈ as, (s.physical k a).isSome = true := by
  have key : ∀ a : Word, (s.physical k a).isSome = true ↔
      (match s.transRule k a with
        | some ⟨r, x, c, .pageFault code⟩ => some (a, (⟨r, x, c, .pageFault code⟩ : TransRule), code)
        | _ => none) = none := by
    intro a
    unfold State.physical
    cases s.transRule k a with
    | none => simp
    | some r =>
      obtain ⟨r, x, c, ans⟩ := r
      cases ans <;> simp
  have hf : s.faultingBytes k as = [] ↔ ∀ a ∈ as, (s.physical k a).isSome = true := by
    simp only [State.faultingBytes, List.filterMap_eq_nil_iff]
    exact forall₂_congr fun a _ => (key a).symm
  rw [← hf]
  unfold State.pageFault
  simp only
  split
  · next h =>
    simp only [true_iff]
    split at h
    · exact List.getLast?_eq_none_iff.1 h
    · exact List.head?_eq_none_iff.1 h
  · next f h =>
    have hmem : f ∈ s.faultingBytes k as := by
      split at h
      · exact List.mem_of_getLast? h
      · exact List.mem_of_head? h
    constructor
    · intro hn
      simp only [Option.map_eq_none_iff, List.find?_eq_none] at hn
      exact (hn f hmem (by simp)).elim
    · intro hn
      rw [hn] at hmem
      exact absurd hmem (by simp)

/-- A page fault is one of the page-fault exceptions (60_exceptions.md R231). -/
theorem pageFault_eq_some {s : State} {k : Access} {as : List Word} {x : Exn} (h : s.pageFault k as = some x) :
    ∃ code a, x = .pf code a ∧ a ∈ as := by
  unfold State.pageFault at h
  simp only at h
  split at h
  · cases h
  · simp only [Option.map_eq_some_iff] at h
    obtain ⟨g, hg, rfl⟩ := h
    refine ⟨_, _, rfl, ?_⟩
    have hm := List.mem_of_find?_eq_some hg
    simp only [State.faultingBytes, List.mem_filterMap] at hm
    obtain ⟨a, ha, hr⟩ := hm
    split at hr
    · cases hr; exact ha
    · cases hr

/-! ## The checks of an operand -/

/-- The physical addresses of the bytes of an operand that translate. -/
def State.addrsOf (s : State) (k : Access) (g : Seg) (off : Word) (n : Nat) : List Nat :=
  (List.range n).map fun i => (s.operandByte k g off i).getD 0

@[simp] theorem addrsOf_length (s : State) (k : Access) (g : Seg) (off : Word) (n : Nat) :
    (s.addrsOf k g off n).length = n := by simp [State.addrsOf]

@[simp] theorem addrsOf_getElem (s : State) (k : Access) (g : Seg) (off : Word) (n i : Nat)
    (h : i < (s.addrsOf k g off n).length) : (s.addrsOf k g off n)[i] = (s.operandByte k g off i).getD 0 := by
  simp [State.addrsOf]

/-- Where every byte translates, the addresses that the operation collects are those of bytes 0, 1, …. -/
theorem filterMap_physical {s : State} {k : Access} {g : Seg} {off : Word} {n : Nat}
    (h : ∀ i < n, (s.operandByte k g off i).isSome = true) :
    (s.linBytes (s.linear g off) n).filterMap (s.physical k) = s.addrsOf k g off n := by
  induction n with
  | zero => rfl
  | succ n ih =>
    have hn := h n (Nat.lt_succ_self n)
    obtain ⟨a, ha⟩ := Option.isSome_iff_exists.1 hn
    have ha' := ha
    unfold State.operandByte at ha'
    have := ih fun i hi => h i (by omega)
    simp only [State.linBytes, State.addrsOf] at this ⊢
    simp [List.range_succ, List.filterMap_append, this, ha, ha']

/-- The bytes of an operand: their linear addresses and its `operandByte`s. -/
theorem forall_linBytes {s : State} {k : Access} {g : Seg} {off : Word} {n : Nat} :
    (∀ a ∈ s.linBytes (s.linear g off) n, (s.physical k a).isSome = true) ↔
      ∀ i < n, (s.operandByte k g off i).isSome = true := by
  simp [State.linBytes, State.operandByte]

/-- The checks of an operand answer addresses exactly when the access is accepted (20_memory.md R32), and they are those of
its bytes. -/
theorem operandAddrs_eq_ok {s : State} {g : Seg} {off : Word} {n : Nat} {k : Access} {al : Bool} {as : List Nat} :
    s.operandAddrs g off n k al = .ok as ↔ accepts k al n g off s ∧ as = s.addrsOf k g off n := by
  unfold State.operandAddrs accepts
  simp only
  rw [← forall_linBytes, ← pageFault_eq_none]
  by_cases h1 : s.segOk g off n (k == .write) = true
  · by_cases h2 : al = true ∧ (s.linear g off).toNat % 16 ≠ 0
    · simp [h1, h2, raise]
    · have h2' : (al && (s.linear g off).toNat % 16 != 0) = false := by
        simpa using h2
      have h2'' : al = true → (s.linear g off).toNat % 16 = 0 := by
        simpa using h2
      cases hp : s.pageFault k (s.linBytes (s.linear g off) n) with
      | none =>
        have := filterMap_physical (forall_linBytes.1 (pageFault_eq_none.1 hp))
        cases hm : s.misaligned (s.linear g off) n <;> simp [h1, h2', this, raise, eq_comm]
        exact fun _ h => (h2'' h).symm
      | some x =>
        cases hm : s.misaligned (s.linear g off) n <;> simp [h1, h2', raise]
        split <;> simp
  · simp [h1, raise]

/-! ## Reading -/

/-- A read of addresses answers bytes exactly when each is in PHYS_MEM and holds its byte. -/
theorem readBytes_eq_ok {s : State} {as : List Nat} {vs : List Byte} :
    s.readBytes as = .ok vs ↔
      (∀ a ∈ as, s.inPhysMem a = true) ∧ List.Forall₂ (fun a v => s.mem.read a = some v) as vs := by
  unfold State.readBytes
  cases h : as.find? fun a => !s.inPhysMem a with
  | none =>
    have h' := List.find?_eq_none.1 h
    simp only [Bool.not_eq_true', Bool.not_eq_false] at h'
    simp only [readAll_eq_ok]
    exact ⟨fun hr => ⟨h', hr⟩, fun hr => hr.2⟩
  | some a =>
    have hm := List.mem_of_find?_eq_some h
    have hp := List.find?_some h
    simp only [refuse, reduceCtorEq, false_iff, not_and]
    intro hall
    simp [hall a hm] at hp

/-- `MemRead` answers a value exactly when the access is accepted and the bytes hold it (20_memory.md R33). -/
theorem memRead_eq_ok {w : Nat} (hw : w % 8 = 0) {s : State} {g : Seg} {off : Word} {al : Bool} {v : BitVec w} :
    s.memRead w al g off = .ok v ↔ accepts .read al (w / 8) g off s ∧ holds v g off s := by
  constructor
  · intro h
    simp only [State.memRead, bind, Except.bind, pure, Except.pure] at h
    split at h
    · cases h
    · next as ha =>
      split at h
      · cases h
      · next vs hv =>
        cases h
        obtain ⟨hacc, rfl⟩ := operandAddrs_eq_ok.1 ha
        obtain ⟨hp, hr⟩ := readBytes_eq_ok.1 hv
        refine ⟨hacc, fun i hi => ?_⟩
        obtain ⟨a, hs⟩ := Option.isSome_iff_exists.1 (hacc.2.2.2 i hi)
        have hlen : vs.length = w / 8 := by simpa using hr.length_eq.symm
        have hget := hr.get (i := i) (by simpa using hi) (by omega)
        simp only [List.get_eq_getElem, addrsOf_getElem, hs, Option.getD_some] at hget
        refine ⟨a, hs, ?_, ?_⟩
        · have : (s.addrsOf .read g off (w / 8))[i]'(by simpa using hi) ∈ s.addrsOf .read g off (w / 8) :=
            List.getElem_mem _
          simpa [hs] using hp _ this
        · rw [hget]
          congr 1
          apply BitVec.eq_of_getLsbD_eq
          intro j hj
          have h1 : 8 * i + j < w := by omega
          have h2 : (8 * i + j) / 8 = i := by omega
          have h3 : (8 * i + j) % 8 = j := by omega
          have h4 : i < vs.length := by omega
          rw [BitVec.getLsbD_extractLsb', getLsbD_ofBytes, h2, h3]
          simp [h1, hj, h4]
  · rintro ⟨hacc, hh⟩
    have ha := operandAddrs_eq_ok.2 ⟨hacc, rfl⟩
    have hv : s.readBytes (s.addrsOf .read g off (w / 8)) = .ok (leBytes (w / 8) v) := by
      refine readBytes_eq_ok.2 ⟨?_, ?_⟩
      · intro a hm
        obtain ⟨i, hi, rfl⟩ := List.getElem_of_mem hm
        obtain ⟨b, hb, hp, -⟩ := hh i (by simpa using hi)
        simpa [hb] using hp
      · refine List.forall₂_iff_get.2 ⟨by simp, fun i h1 h2 => ?_⟩
        obtain ⟨b, hb, -, hr⟩ := hh i (by simpa using h1)
        simpa [hb] using hr
    simp [State.memRead, bind, Except.bind, pure, Except.pure, ha, hv, ofBytes_leBytes v hw]

/-! ## Writing -/

/-- A store of bytes at addresses answers a state exactly when every address is in PHYS_MEM and outside the program text;
it writes memory alone (20_memory.md R34, R41, R44). -/
theorem writeBytes_eq_ok {s t : State} {as : List Nat} {vs : List Byte} :
    s.writeBytes as vs = .ok t ↔
      (∀ a ∈ as, s.inPhysMem a = true ∧ a ∉ s.textAddrs) ∧ t = { s with mem := s.mem.writeAll as vs } := by
  unfold State.writeBytes
  cases h : as.find? fun a => !s.inPhysMem a with
  | some a =>
    have hm := List.mem_of_find?_eq_some h
    have hp := List.find?_some h
    simp only [refuse, reduceCtorEq, false_iff, not_and]
    intro hall
    simp [(hall a hm).1] at hp
  | none =>
    have h' := List.find?_eq_none.1 h
    simp only [Bool.not_eq_true', Bool.not_eq_false] at h'
    cases h2 : as.find? fun a => s.textAddrs.contains a with
    | some a =>
      have hm := List.mem_of_find?_eq_some h2
      have hp := List.find?_some h2
      simp only [refuse, reduceCtorEq, false_iff, not_and]
      intro hall
      simp [(hall a hm).2] at hp
    | none =>
      have h2' := List.find?_eq_none.1 h2
      simp only [List.contains_iff_mem] at h2'
      simp only [Except.ok.injEq]
      exact ⟨fun e => ⟨fun a ha => ⟨h' a ha, h2' a ha⟩, e.symm⟩, fun e => e.2.symm⟩

/-- `MemWrite` answers a state exactly when the access is accepted and every byte may be stored to (20_memory.md R34). -/
theorem memWrite_eq_ok {w : Nat} {s t : State} {g : Seg} {off : Word} {v : BitVec w} :
    s.memWrite g off v = .ok t ↔ accepts .write false (w / 8) g off s ∧ storable (w / 8) g off s ∧
      t = { s with mem := s.mem.writeAll (s.addrsOf .write g off (w / 8)) (leBytes (w / 8) v) } := by
  have hst : accepts .write false (w / 8) g off s →
      ((∀ a ∈ s.addrsOf .write g off (w / 8), s.inPhysMem a = true ∧ a ∉ s.textAddrs) ↔ storable (w / 8) g off s) := by
    intro hacc
    constructor
    · intro h i hi
      obtain ⟨a, hs⟩ := Option.isSome_iff_exists.1 (hacc.2.2.2 i hi)
      have hm : (s.addrsOf .write g off (w / 8))[i]'(by simpa using hi) ∈ s.addrsOf .write g off (w / 8) :=
        List.getElem_mem _
      have := h _ hm
      simp only [addrsOf_getElem, hs, Option.getD_some] at this
      exact ⟨a, hs, this⟩
    · intro h a hm
      obtain ⟨i, hi, rfl⟩ := List.getElem_of_mem hm
      obtain ⟨b, hb, hp⟩ := h i (by simpa using hi)
      simpa [hb] using hp
  unfold State.memWrite
  simp only [bind, Except.bind]
  cases ha : s.operandAddrs g off (w / 8) .write false with
  | error e =>
    simp only [reduceCtorEq, false_iff, not_and]
    intro hacc
    rw [operandAddrs_eq_ok.2 ⟨hacc, rfl⟩] at ha
    cases ha
  | ok as =>
    obtain ⟨hacc, rfl⟩ := operandAddrs_eq_ok.1 ha
    simp only [writeBytes_eq_ok, hst hacc]
    exact ⟨fun h => ⟨hacc, h⟩, fun h => h.2⟩

/-- What a completed store does to memory, and that it does nothing else (20_memory.md R34). -/
theorem memWrite_stores {w : Nat} {s t : State} {g : Seg} {off : Word} {v : BitVec w} (len : Nat)
    (h : s.memWrite g off v = .ok t) : storesTo v g off len s (t.setRip (s.nextRip len)) := by
  obtain ⟨hacc, -, rfl⟩ := memWrite_eq_ok.1 h
  have hb : ∀ i < w / 8, ∀ a, s.operandByte .write g off i = some a ↔ (s.operandByte .write g off i).getD 0 = a := by
    intro i hi a
    obtain ⟨b, hs⟩ := Option.isSome_iff_exists.1 (hacc.2.2.2 i hi)
    simp [hs]
  refine ⟨?_, ?_, rfl, fun _ _ => rfl, fun _ _ => rfl, fun _ _ => rfl, ⟨rfl, rfl⟩, ⟨rfl, rfl, rfl⟩⟩
  · intro i hi a ha hlast
    have hget : (s.addrsOf .write g off (w / 8))[i]'(by simpa using hi) = a := by simp [ha]
    have := read_writeAll_at (m := s.mem) (as := s.addrsOf .write g off (w / 8)) (vs := leBytes (w / 8) v) (i := i)
      (by simpa using hi) (by simpa using hi) (fun j hj hij => by
        rw [hget]
        have hj' : j < w / 8 := by simpa using hj
        have := hlast j hj' hij
        rw [ne_eq, hb j hj'] at this
        simpa using this)
    rw [hget] at this
    simpa using this
  · intro a ha
    apply read_writeAll_other
    intro hm
    obtain ⟨i, hi, he⟩ := List.getElem_of_mem hm
    have hi' : i < w / 8 := by simpa using hi
    exact ha i hi' ((hb i hi' a).2 (by simpa using he))

end Sys2Proof.Machine
end

