-- ==== Sys2Proof/Laws/PerInstr.lean ====
section
/-! SUPPORT. What holds of each instruction as syntax: the encoder writes as many bytes as the instruction is long. -/

namespace Sys2Proof.Laws

/-- The bytes of ModRM, SIB and displacement are as many as the operand's form says. -/
theorem encodeRM_length {k : Nat} (reg : BitVec 3) (o : RM k) : (encodeRM reg o).length = o.bytes := by
  rcases o with n | m
  · rfl
  · rcases m with ⟨b, d⟩ | ⟨b, i, sc, d⟩ | ⟨i, sc, d⟩ | d | ⟨b, d⟩ | d <;> try rfl
    all_goals rcases d with _ | d | d <;> simp [encodeRM, RM.bytes, Disp.encode, Disp.bytes, leBytes]

/-- The prefixes and the REX byte. -/
theorem encodePrefixes_length (ps : List Prefix) (rex : Option Rex) :
    (encodePrefixes ps rex).length = ps.length + rexBytes rex := by
  cases rex <;> simp [encodePrefixes, rexBytes]

/-- A legacy encoding that is allowed writes `e.len` bytes, at most 15. -/
theorem encodeLegacy_length {k : Nat} {m p : Bool} {map : OpMap} {n : Nat} {e : LegEnc} {o : RM k} {opc : Byte}
    {reg : BitVec 3} {im : List Byte} (h : e.wf m p map n o = true) (hn : im.length = n) :
    (encodeLegacy e map opc reg o im).length = e.len ∧ e.len ≤ 15 := by
  simp only [LegEnc.wf, Bool.and_eq_true, beq_iff_eq, decide_eq_true_eq] at h
  refine ⟨?_, h.2⟩
  have hl := h.1.2
  have hm : map.escape.length + 1 = map.legacyBytes := by cases map <;> rfl
  simp only [encodeLegacy, List.length_append, List.length_cons, encodePrefixes_length, encodeRM_length, hn]
  omega

/-- A VEX encoding that is allowed writes `e.len` bytes, at most 15. -/
theorem encodeVex_length {m : Bool} {map : OpMap} {n : Nat} {e : VexEnc} {o : RM 4} {pp : BitVec 2} {opc : Byte}
    {reg : BitVec 4} {im : List Byte} (h : e.wf m map n o = true) (hn : im.length = n) :
    (encodeVex e map pp opc reg o im).length = e.len ∧ e.len ≤ 15 := by
  simp only [VexEnc.wf, Bool.and_eq_true, beq_iff_eq, decide_eq_true_eq] at h
  refine ⟨?_, h.2⟩
  have hl := h.1.2
  have hm : (encodeVexPrefix e map pp).length + 1 = if e.two then 3 else 4 := by
    cases ht : e.two <;> simp [encodeVexPrefix, ht]
  simp only [encodeVex, List.length_append, List.length_cons, encodePrefixes_length, encodeRM_length, hn]
  omega

/-- The encoder writes as many bytes as the instruction is long, and no more than 15 (30_encoding.md R51). -/
def EncodedLength.Statement (i : Instr) : Prop :=
  ∀ m, i.wf m = true → (encode i).length = i.len ∧ i.len ≤ 15

namespace EncodedLength

-- One lemma after another: each waits for the equations of `Instr.wf`, and many at once would each hold a thread.
set_option Elab.async false

theorem pextR32 (e : VexEnc) (dst src : BitVec 4) (mask : RM 4) : Statement (.pextR32 e dst src mask) := fun m h => by
  simp only [Instr.wf, Bool.and_eq_true] at h
  exact encodeVex_length h.1.1.1 rfl
theorem pextR64 (e : VexEnc) (dst src : BitVec 4) (mask : RM 4) : Statement (.pextR64 e dst src mask) := fun m h => by
  simp only [Instr.wf, Bool.and_eq_true] at h
  exact encodeVex_length h.1.1.1 rfl
theorem pextrb (e : LegEnc) (dst : RM 4) (src : BitVec 4) (imm : Byte) : Statement (.pextrb e dst src imm) := fun m h => by
  simp only [Instr.wf, Bool.and_eq_true] at h
  exact encodeLegacy_length h.1 rfl
theorem pextrd (e : LegEnc) (dst : RM 4) (src : BitVec 4) (imm : Byte) : Statement (.pextrd e dst src imm) := fun m h => by
  simp only [Instr.wf, Bool.and_eq_true] at h
  exact encodeLegacy_length h.1.1 rfl
theorem pextrq (e : LegEnc) (dst : RM 4) (src : BitVec 4) (imm : Byte) : Statement (.pextrq e dst src imm) := fun m h => by
  simp only [Instr.wf, Bool.and_eq_true] at h
  exact encodeLegacy_length h.1.1 rfl
theorem vpextrb (e : VexEnc) (dst : RM 4) (src : BitVec 4) (imm : Byte) : Statement (.vpextrb e dst src imm) := fun m h => by
  simp only [Instr.wf, Bool.and_eq_true] at h
  exact encodeVex_length h.1 rfl
theorem vpextrd (e : VexEnc) (dst : RM 4) (src : BitVec 4) (imm : Byte) : Statement (.vpextrd e dst src imm) := fun m h => by
  simp only [Instr.wf, Bool.and_eq_true] at h
  exact encodeVex_length h.1.1 rfl
theorem vpextrq (e : VexEnc) (dst : RM 4) (src : BitVec 4) (imm : Byte) : Statement (.vpextrq e dst src imm) := fun m h => by
  simp only [Instr.wf, Bool.and_eq_true] at h
  exact encodeVex_length h.1.1 rfl
theorem pextrwMmx (e : LegEnc) (dst : BitVec 4) (src : RM 3) (imm : Byte) : Statement (.pextrwMmx e dst src imm) := fun m h => by
  simp only [Instr.wf, Bool.and_eq_true] at h
  exact encodeLegacy_length h.1 rfl
theorem pextrwXmm (e : LegEnc) (dst : BitVec 4) (src : RM 4) (imm : Byte) : Statement (.pextrwXmm e dst src imm) := fun m h => by
  simp only [Instr.wf, Bool.and_eq_true] at h
  exact encodeLegacy_length h.1 rfl
theorem pextrwStore (e : LegEnc) (dst : RM 4) (src : BitVec 4) (imm : Byte) : Statement (.pextrwStore e dst src imm) := fun m h => by
  simp only [Instr.wf, Bool.and_eq_true] at h
  exact encodeLegacy_length h.1 rfl
theorem vpextrw (e : VexEnc) (dst : BitVec 4) (src : RM 4) (imm : Byte) : Statement (.vpextrw e dst src imm) := fun m h => by
  simp only [Instr.wf, Bool.and_eq_true] at h
  exact encodeVex_length h.1 rfl
theorem vpextrwStore (e : VexEnc) (dst : RM 4) (src : BitVec 4) (imm : Byte) : Statement (.vpextrwStore e dst src imm) := fun m h => by
  simp only [Instr.wf, Bool.and_eq_true] at h
  exact encodeVex_length h.1 rfl
theorem phaddwMmx (e : LegEnc) (dst : BitVec 3) (src : RM 3) : Statement (.phaddwMmx e dst src) := fun _ h => encodeLegacy_length h rfl
theorem phaddwXmm (e : LegEnc) (dst : BitVec 4) (src : RM 4) : Statement (.phaddwXmm e dst src) := fun m h => by
  simp only [Instr.wf, Bool.and_eq_true] at h
  exact encodeLegacy_length h.1 rfl
theorem phadddMmx (e : LegEnc) (dst : BitVec 3) (src : RM 3) : Statement (.phadddMmx e dst src) := fun _ h => encodeLegacy_length h rfl
theorem phadddXmm (e : LegEnc) (dst : BitVec 4) (src : RM 4) : Statement (.phadddXmm e dst src) := fun m h => by
  simp only [Instr.wf, Bool.and_eq_true] at h
  exact encodeLegacy_length h.1 rfl
theorem vphaddwXmm (e : VexEnc) (dst src1 : BitVec 4) (src2 : RM 4) : Statement (.vphaddwXmm e dst src1 src2) := fun m h => by
  simp only [Instr.wf, Bool.and_eq_true] at h
  exact encodeVex_length h.1.1.1 rfl
theorem vphadddXmm (e : VexEnc) (dst src1 : BitVec 4) (src2 : RM 4) : Statement (.vphadddXmm e dst src1 src2) := fun m h => by
  simp only [Instr.wf, Bool.and_eq_true] at h
  exact encodeVex_length h.1.1.1 rfl
theorem vphaddwYmm (e : VexEnc) (dst src1 : BitVec 4) (src2 : RM 4) : Statement (.vphaddwYmm e dst src1 src2) := fun m h => by
  simp only [Instr.wf, Bool.and_eq_true] at h
  exact encodeVex_length h.1.1.1 rfl
theorem vphadddYmm (e : VexEnc) (dst src1 : BitVec 4) (src2 : RM 4) : Statement (.vphadddYmm e dst src1 src2) := fun m h => by
  simp only [Instr.wf, Bool.and_eq_true] at h
  exact encodeVex_length h.1.1.1 rfl
theorem phaddswMmx (e : LegEnc) (dst : BitVec 3) (src : RM 3) : Statement (.phaddswMmx e dst src) := fun _ h => encodeLegacy_length h rfl
theorem phaddswXmm (e : LegEnc) (dst : BitVec 4) (src : RM 4) : Statement (.phaddswXmm e dst src) := fun m h => by
  simp only [Instr.wf, Bool.and_eq_true] at h
  exact encodeLegacy_length h.1 rfl
theorem vphaddswXmm (e : VexEnc) (dst src1 : BitVec 4) (src2 : RM 4) : Statement (.vphaddswXmm e dst src1 src2) := fun m h => by
  simp only [Instr.wf, Bool.and_eq_true] at h
  exact encodeVex_length h.1.1.1 rfl
theorem vphaddswYmm (e : VexEnc) (dst src1 : BitVec 4) (src2 : RM 4) : Statement (.vphaddswYmm e dst src1 src2) := fun m h => by
  simp only [Instr.wf, Bool.and_eq_true] at h
  exact encodeVex_length h.1.1.1 rfl
theorem phminposuw (e : LegEnc) (dst : BitVec 4) (src : RM 4) : Statement (.phminposuw e dst src) := fun m h => by
  simp only [Instr.wf, Bool.and_eq_true] at h
  exact encodeLegacy_length h.1 rfl
theorem vphminposuw (e : VexEnc) (dst : BitVec 4) (src : RM 4) : Statement (.vphminposuw e dst src) := fun m h => by
  simp only [Instr.wf, Bool.and_eq_true] at h
  exact encodeVex_length h.1 rfl
theorem phsubwMmx (e : LegEnc) (dst : BitVec 3) (src : RM 3) : Statement (.phsubwMmx e dst src) := fun _ h => encodeLegacy_length h rfl
theorem phsubwXmm (e : LegEnc) (dst : BitVec 4) (src : RM 4) : Statement (.phsubwXmm e dst src) := fun m h => by
  simp only [Instr.wf, Bool.and_eq_true] at h
  exact encodeLegacy_length h.1 rfl
theorem phsubdMmx (e : LegEnc) (dst : BitVec 3) (src : RM 3) : Statement (.phsubdMmx e dst src) := fun _ h => encodeLegacy_length h rfl
theorem phsubdXmm (e : LegEnc) (dst : BitVec 4) (src : RM 4) : Statement (.phsubdXmm e dst src) := fun m h => by
  simp only [Instr.wf, Bool.and_eq_true] at h
  exact encodeLegacy_length h.1 rfl
theorem vphsubwXmm (e : VexEnc) (dst src1 : BitVec 4) (src2 : RM 4) : Statement (.vphsubwXmm e dst src1 src2) := fun m h => by
  simp only [Instr.wf, Bool.and_eq_true] at h
  exact encodeVex_length h.1.1.1 rfl
theorem vphsubdXmm (e : VexEnc) (dst src1 : BitVec 4) (src2 : RM 4) : Statement (.vphsubdXmm e dst src1 src2) := fun m h => by
  simp only [Instr.wf, Bool.and_eq_true] at h
  exact encodeVex_length h.1.1.1 rfl
theorem vphsubwYmm (e : VexEnc) (dst src1 : BitVec 4) (src2 : RM 4) : Statement (.vphsubwYmm e dst src1 src2) := fun m h => by
  simp only [Instr.wf, Bool.and_eq_true] at h
  exact encodeVex_length h.1.1.1 rfl
theorem vphsubdYmm (e : VexEnc) (dst src1 : BitVec 4) (src2 : RM 4) : Statement (.vphsubdYmm e dst src1 src2) := fun m h => by
  simp only [Instr.wf, Bool.and_eq_true] at h
  exact encodeVex_length h.1.1.1 rfl
theorem phsubswMmx (e : LegEnc) (dst : BitVec 3) (src : RM 3) : Statement (.phsubswMmx e dst src) := fun _ h => encodeLegacy_length h rfl
theorem phsubswXmm (e : LegEnc) (dst : BitVec 4) (src : RM 4) : Statement (.phsubswXmm e dst src) := fun m h => by
  simp only [Instr.wf, Bool.and_eq_true] at h
  exact encodeLegacy_length h.1 rfl
theorem vphsubswXmm (e : VexEnc) (dst src1 : BitVec 4) (src2 : RM 4) : Statement (.vphsubswXmm e dst src1 src2) := fun m h => by
  simp only [Instr.wf, Bool.and_eq_true] at h
  exact encodeVex_length h.1.1.1 rfl
theorem vphsubswYmm (e : VexEnc) (dst src1 : BitVec 4) (src2 : RM 4) : Statement (.vphsubswYmm e dst src1 src2) := fun m h => by
  simp only [Instr.wf, Bool.and_eq_true] at h
  exact encodeVex_length h.1.1.1 rfl
theorem pinsrb (e : LegEnc) (dst : BitVec 4) (src : RM 4) (imm : Byte) : Statement (.pinsrb e dst src imm) := fun m h => by
  simp only [Instr.wf, Bool.and_eq_true] at h
  exact encodeLegacy_length h.1 rfl
theorem pinsrd (e : LegEnc) (dst : BitVec 4) (src : RM 4) (imm : Byte) : Statement (.pinsrd e dst src imm) := fun m h => by
  simp only [Instr.wf, Bool.and_eq_true] at h
  exact encodeLegacy_length h.1.1 rfl
theorem pinsrq (e : LegEnc) (dst : BitVec 4) (src : RM 4) (imm : Byte) : Statement (.pinsrq e dst src imm) := fun m h => by
  simp only [Instr.wf, Bool.and_eq_true] at h
  exact encodeLegacy_length h.1.1 rfl
theorem vpinsrb (e : VexEnc) (dst src1 : BitVec 4) (src2 : RM 4) (imm : Byte) : Statement (.vpinsrb e dst src1 src2 imm) := fun m h => by
  simp only [Instr.wf, Bool.and_eq_true] at h
  exact encodeVex_length h.1.1 rfl
theorem vpinsrd (e : VexEnc) (dst src1 : BitVec 4) (src2 : RM 4) (imm : Byte) : Statement (.vpinsrd e dst src1 src2 imm) := fun m h => by
  simp only [Instr.wf, Bool.and_eq_true] at h
  exact encodeVex_length h.1.1.1 rfl
theorem vpinsrq (e : VexEnc) (dst src1 : BitVec 4) (src2 : RM 4) (imm : Byte) : Statement (.vpinsrq e dst src1 src2 imm) := fun m h => by
  simp only [Instr.wf, Bool.and_eq_true] at h
  exact encodeVex_length h.1.1.1 rfl
theorem pinsrwMmx (e : LegEnc) (dst : BitVec 3) (src : RM 4) (imm : Byte) : Statement (.pinsrwMmx e dst src imm) := fun _ h => encodeLegacy_length h rfl
theorem pinsrwXmm (e : LegEnc) (dst : BitVec 4) (src : RM 4) (imm : Byte) : Statement (.pinsrwXmm e dst src imm) := fun m h => by
  simp only [Instr.wf, Bool.and_eq_true] at h
  exact encodeLegacy_length h.1 rfl
theorem vpinsrw (e : VexEnc) (dst src1 : BitVec 4) (src2 : RM 4) (imm : Byte) : Statement (.vpinsrw e dst src1 src2 imm) := fun m h => by
  simp only [Instr.wf, Bool.and_eq_true] at h
  exact encodeVex_length h.1.1 rfl
theorem pmaddubswMmx (e : LegEnc) (dst : BitVec 3) (src : RM 3) : Statement (.pmaddubswMmx e dst src) := fun _ h => encodeLegacy_length h rfl
theorem pmaddubswXmm (e : LegEnc) (dst : BitVec 4) (src : RM 4) : Statement (.pmaddubswXmm e dst src) := fun m h => by
  simp only [Instr.wf, Bool.and_eq_true] at h
  exact encodeLegacy_length h.1 rfl
theorem vpmaddubswXmm (e : VexEnc) (dst src1 : BitVec 4) (src2 : RM 4) : Statement (.vpmaddubswXmm e dst src1 src2) := fun m h => by
  simp only [Instr.wf, Bool.and_eq_true] at h
  exact encodeVex_length h.1.1.1 rfl
theorem vpmaddubswYmm (e : VexEnc) (dst src1 : BitVec 4) (src2 : RM 4) : Statement (.vpmaddubswYmm e dst src1 src2) := fun m h => by
  simp only [Instr.wf, Bool.and_eq_true] at h
  exact encodeVex_length h.1.1.1 rfl
theorem pmaddwdMmx (e : LegEnc) (dst : BitVec 3) (src : RM 3) : Statement (.pmaddwdMmx e dst src) := fun _ h => encodeLegacy_length h rfl
theorem pmaddwdXmm (e : LegEnc) (dst : BitVec 4) (src : RM 4) : Statement (.pmaddwdXmm e dst src) := fun m h => by
  simp only [Instr.wf, Bool.and_eq_true] at h
  exact encodeLegacy_length h.1 rfl
theorem vpmaddwdXmm (e : VexEnc) (dst src1 : BitVec 4) (src2 : RM 4) : Statement (.vpmaddwdXmm e dst src1 src2) := fun m h => by
  simp only [Instr.wf, Bool.and_eq_true] at h
  exact encodeVex_length h.1.1.1 rfl
theorem vpmaddwdYmm (e : VexEnc) (dst src1 : BitVec 4) (src2 : RM 4) : Statement (.vpmaddwdYmm e dst src1 src2) := fun m h => by
  simp only [Instr.wf, Bool.and_eq_true] at h
  exact encodeVex_length h.1.1.1 rfl

end EncodedLength

end Sys2Proof.Laws
end

