-- ==== Sys2Proof/Laws/Decode.lean ====
section
/-! SUPPORT. The parts of the decoder read back what the parts of the encoder write. -/

namespace Sys2Proof

/-! ## Prefixes (30_encoding.md R52, R54) -/

theorem isRexByte_byte (r : Rex) : isRexByte r.byte = true := by
  obtain ⟨w, r, x, b⟩ := r
  cases w <;> cases r <;> cases x <;> cases b <;> rfl

theorem rexOfByte_byte (r : Rex) : rexOfByte r.byte = r := by
  obtain ⟨w, r, x, b⟩ := r
  cases w <;> cases r <;> cases x <;> cases b <;> rfl

theorem prefixOfByte_rex (r : Rex) : prefixOfByte r.byte = none := by
  obtain ⟨w, r, x, b⟩ := r
  cases w <;> cases r <;> cases x <;> cases b <;> rfl

/-- The byte of a prefix is read as that prefix, but for an ignored REX byte. -/
theorem prefixOfByte_byte (p : Prefix) : prefixOfByte p.byte = (match p with | .rexIgnored _ => none | p => some p) := by
  cases p with
  | rexIgnored r => exact prefixOfByte_rex r
  | seg g => cases g <;> rfl
  | _ => rfl

/-- One byte of the scan. -/
theorem scanPrefixes_cons (m : Bool) (c : Byte) (t : List Byte) :
    scanPrefixes m (c :: t) =
      match prefixOfByte c with
      | some p => (p :: (scanPrefixes m t).1, (scanPrefixes m t).2)
      | none =>
        if m && isRexByte c then
          match t with
          | [] => ([], some (rexOfByte c), [])
          | d :: _ =>
            if (prefixOfByte d).isSome then (.rexIgnored (rexOfByte c) :: (scanPrefixes m t).1, (scanPrefixes m t).2)
            else ([], some (rexOfByte c), t)
        else ([], none, c :: t) := by
  cases t <;> rfl

/-- The scan reads back the prefixes and the REX byte, up to a byte that is neither. -/
theorem scanPrefixes_encode {m : Bool} {ps : List Prefix} {rex : Option Rex} {c : Byte} (t : List Byte)
    (hp : prefixesWf m ps = true) (hr : (m || rex.isNone) = true) (hc : prefixOfByte c = none)
    (hx : isRexByte c = false) : scanPrefixes m (encodePrefixes ps rex ++ c :: t) = (ps, rex, c :: t) := by
  induction ps with
  | nil =>
    cases rex with
    | none => simp [encodePrefixes, scanPrefixes, hc, hx]
    | some r =>
      have hm : m = true := by simpa using hr
      simp [encodePrefixes, scanPrefixes, prefixOfByte_rex, hm, isRexByte_byte, rexOfByte_byte, hc]
  | cons p ps ih =>
    have e : encodePrefixes (p :: ps) rex ++ c :: t = p.byte :: (encodePrefixes ps rex ++ c :: t) := by
      simp [encodePrefixes]
    rw [e, scanPrefixes_cons, prefixOfByte_byte]
    cases p with
    | rexIgnored r =>
      simp only [prefixesWf, Bool.and_eq_true] at hp
      obtain ⟨⟨hm, hnext⟩, hps⟩ := hp
      have ih := ih hps
      cases ps with
      | nil => simp at hnext
      | cons q qs =>
        have hq : (prefixOfByte q.byte).isSome = true := by
          cases q with
          | rexIgnored _ => simp at hnext
          | seg g => cases g <;> rfl
          | _ => rfl
        have e2 : encodePrefixes (q :: qs) rex ++ c :: t = q.byte :: (encodePrefixes qs rex ++ c :: t) := by
          simp [encodePrefixes]
        rw [e2] at ih ⊢
        have hb : Prefix.byte (.rexIgnored r) = r.byte := rfl
        simp [hb, hm, isRexByte_byte, rexOfByte_byte, hq, hm ▸ ih]
    | _ =>
      have hps : prefixesWf m ps = true := by simpa [prefixesWf] using hp
      simp [ih hps]

/-! ## Fields of a byte (30_encoding.md R61, R62) -/

@[simp] theorem bits_mod (md : BitVec 2) (reg rm : BitVec 3) : bits 6 2 (modrmByte md reg rm) = md := by
  revert md reg rm; decide

@[simp] theorem bits_reg (md : BitVec 2) (reg rm : BitVec 3) : bits 3 3 (modrmByte md reg rm) = reg := by
  revert md reg rm; decide

@[simp] theorem bits_rm (md : BitVec 2) (reg rm : BitVec 3) : bits 0 3 (modrmByte md reg rm) = rm := by
  revert md reg rm; decide

/-- A ModRM or SIB byte is its three fields. -/
theorem modrmByte_bits (c : Byte) : modrmByte (bits 6 2 c) (bits 3 3 c) (bits 0 3 c) = c := by
  revert c; decide

/-- A register number is its extension bit and its field (30_encoding.md R64). -/
theorem extReg_setWidth {x : Bool} {n : BitVec 4} (h : (n.msb == x) = true) : extReg x (n.setWidth 3) = n := by
  revert h; revert x n; decide

theorem extReg_msb (x : Bool) (f : BitVec 3) : (extReg x f).msb = x := by revert x f; decide

@[simp] theorem setWidth_extReg (x : Bool) (f : BitVec 3) : (extReg x f).setWidth 3 = f := by revert x f; decide

/-! ## Displacements (30_encoding.md R63) -/

theorem read16_leBytes (d : BitVec 16) (t : List Byte) : read16 (leBytes 2 d ++ t) = some (d, t) := by
  have : (d.extractLsb' 8 8 ++ d.extractLsb' 0 8 : BitVec 16) = d := by
    apply BitVec.eq_of_getLsbD_eq
    intro j hj
    simp only [BitVec.getLsbD_append, BitVec.getLsbD_extractLsb']
    by_cases h : j < 8
    · simp [h]
    · have h1 : j - 8 < 8 := by omega
      have h2 : 8 + (j - 8) = j := by omega
      simp [h, h1, h2]
  simp [leBytes, List.range_succ, read16, this]

theorem read32_leBytes (d : BitVec 32) (t : List Byte) : read32 (leBytes 4 d ++ t) = some (d, t) := by
  have : (d.extractLsb' 24 8 ++ d.extractLsb' 16 8 ++ d.extractLsb' 8 8 ++ d.extractLsb' 0 8 : BitVec 32) = d := by
    apply BitVec.eq_of_getLsbD_eq
    intro j hj
    simp only [BitVec.getLsbD_append, BitVec.getLsbD_extractLsb']
    by_cases h : j < 8
    · simp [h]
    · by_cases h1 : j < 16
      · have h2 : j - 8 < 8 := by omega
        have h3 : 8 + (j - 8) = j := by omega
        simp [h, h2, h3]
      · by_cases h4 : j < 24
        · have h2 : ¬ j - 8 < 8 := by omega
          have h3 : j - 8 - 8 < 8 := by omega
          have h5 : 16 + (j - 8 - 8) = j := by omega
          simp [h, h2, h3, h5]
        · have h2 : ¬ j - 8 < 8 := by omega
          have h3 : ¬ j - 8 - 8 < 8 := by omega
          have h5 : j - 8 - 8 - 8 < 8 := by omega
          have h6 : 24 + (j - 8 - 8 - 8) = j := by omega
          simp [h, h2, h3, h5, h6]
  simp [leBytes, List.range_succ, read32, this]

theorem readDisp16_encode (d : Disp 16) (t : List Byte) : readDisp read16 d.mod (d.encode ++ t) = some (d, t) := by
  cases d with
  | none => rfl
  | d8 d => rfl
  | full d =>
    have := read16_leBytes d t
    simpa [readDisp, Disp.mod, Disp.encode] using this

theorem readDisp32_encode (d : Disp 32) (t : List Byte) : readDisp read32 d.mod (d.encode ++ t) = some (d, t) := by
  cases d with
  | none => rfl
  | d8 d => rfl
  | full d =>
    have := read32_leBytes d t
    simpa [readDisp, Disp.mod, Disp.encode] using this

theorem mod_eq_zero {w : Nat} (d : Disp w) : (d.mod == 0#2) = (d == .none) := by
  cases d <;> simp [Disp.mod]

theorem mod_ne_three {w : Nat} (d : Disp w) : (d.mod == 3#2) = false := by
  cases d <;> rfl

/-! ## The r/m operand (30_encoding.md R61 to R70) -/

/-- ModRM, SIB and displacement are read back, whatever stands after them. -/
theorem readModRM_encode {m a67 x b : Bool} (reg : BitVec 3) {o : RM 4} (t : List Byte) (h : o.wf m a67 x b = true) :
    readModRM m a67 x b (encodeRM reg o ++ t) = some (reg, o, t) := by
  rcases o with n | o
  · have hn : (n.msb == b) = true := by simpa [RM.wf] using h
    simp [encodeRM, readModRM, extReg_setWidth hn]
  · rcases o with ⟨n, d⟩ | ⟨n, i, sc, d⟩ | ⟨i, sc, d⟩ | d | ⟨r, d⟩ | d
    · simp only [RM.wf, MemOp.wf, Bool.and_eq_true, Bool.or_eq_true, Bool.not_eq_true', bne_iff_ne] at h
      obtain ⟨⟨⟨hm, hb⟩, h4⟩, h5⟩ := h
      have ha : (!m && a67) = false := by cases m <;> cases a67 <;> simp_all
      have h5' : (d.mod == 0#2 && n.setWidth 3 == 5#3) = false := by
        rw [mod_eq_zero]
        rcases h5 with h5 | h5 <;> simp [h5]
      simp [encodeRM, readModRM, mod_ne_three, readMem, ha, h4, h5', readDisp32_encode, extReg_setWidth hb]
    · simp only [RM.wf, MemOp.wf, Bool.and_eq_true, Bool.or_eq_true, Bool.not_eq_true', bne_iff_ne] at h
      obtain ⟨⟨⟨hm, hb⟩, hx⟩, h5⟩ := h
      have ha : (!m && a67) = false := by cases m <;> cases a67 <;> simp_all
      have h5' : (d.mod == 0#2 && n.setWidth 3 == 5#3) = false := by
        rw [mod_eq_zero]
        rcases h5 with h5 | h5 <;> simp [h5]
      simp [encodeRM, readModRM, mod_ne_three, readMem, ha, readSib, h5', readDisp32_encode, extReg_setWidth hb,
        extReg_setWidth hx]
    · simp only [RM.wf, MemOp.wf, Bool.and_eq_true, Bool.or_eq_true, Bool.not_eq_true'] at h
      obtain ⟨hm, hx⟩ := h
      have ha : (!m && a67) = false := by cases m <;> cases a67 <;> simp_all
      simp [encodeRM, readModRM, readMem, ha, readSib, read32_leBytes, extReg_setWidth hx]
    · simp only [RM.wf, MemOp.wf, Bool.or_eq_true, Bool.not_eq_true'] at h
      have ha : (!m && a67) = false := by cases m <;> cases a67 <;> simp_all
      simp [encodeRM, readModRM, readMem, ha, read32_leBytes]
    · simp only [RM.wf, MemOp.wf, Bool.and_eq_true, Bool.or_eq_true, Bool.not_eq_true', bne_iff_ne] at h
      obtain ⟨⟨hm, h67⟩, h6⟩ := h
      have h6' : (d.mod == 0#2 && r == 6#3) = false := by
        rw [mod_eq_zero]
        rcases h6 with h6 | h6 <;> simp [h6]
      simp [encodeRM, readModRM, mod_ne_three, readMem, hm, h67, h6', readDisp16_encode]
    · simp only [RM.wf, MemOp.wf, Bool.and_eq_true, Bool.not_eq_true'] at h
      simp [encodeRM, readModRM, readMem, h.1, h.2, read16_leBytes]

/-- A memory operand is written the same beside every kind of register. -/
theorem encodeRM_mem (reg : BitVec 3) (o : MemOp) :
    encodeRM reg (.mem o : RM 3) = encodeRM reg (.mem o : RM 4) := by cases o <;> rfl

/-! ## The opcode bytes (30_encoding.md R55 to R57) -/

theorem readLegacyOpcode_escape (map : OpMap) (opc : Byte) (t : List Byte)
    (h : map = .m0F → opc ≠ 0x38#8 ∧ opc ≠ 0x3A#8) :
    readLegacyOpcode ((map.escape ++ opc :: t).tail) = some (map, opc, t) := by
  cases map with
  | m0F =>
    obtain ⟨h1, h2⟩ := h rfl
    simp [OpMap.escape, readLegacyOpcode, h1, h2]
  | m0F38 => simp [OpMap.escape, readLegacyOpcode]
  | m0F3A => simp [OpMap.escape, readLegacyOpcode]

theorem vexMap_mmmmm (map : OpMap) : vexMap map.mmmmm = some map := by cases map <;> rfl

/-- The byte after C5, field by field (30_encoding.md R57). -/
theorem vex2_fields (r l : Bool) (v : BitVec 4) (pp : BitVec 2) :
    let c : Byte := BitVec.ofBool (!r) ++ ~~~v ++ BitVec.ofBool l ++ pp
    c.getLsbD 7 = !r ∧ ~~~(bits 3 4 c) = v ∧ c.getLsbD 2 = l ∧ bits 0 2 c = pp ∧
      (bits 6 2 c == 3#2) = (!r && !v.msb) := by
  revert r l v pp; decide

/-- The second byte of a three-byte VEX prefix (30_encoding.md R56). -/
theorem vex3_fields1 (r x b : Bool) (mm : BitVec 5) :
    let c : Byte := BitVec.ofBool (!r) ++ BitVec.ofBool (!x) ++ BitVec.ofBool (!b) ++ mm
    c.getLsbD 7 = !r ∧ c.getLsbD 6 = !x ∧ c.getLsbD 5 = !b ∧ bits 0 5 c = mm ∧ (bits 6 2 c == 3#2) = (!r && !x) := by
  revert r x b mm; decide

/-- The third byte of a three-byte VEX prefix (30_encoding.md R56). -/
theorem vex3_fields2 (w l : Bool) (v : BitVec 4) (pp : BitVec 2) :
    let c : Byte := BitVec.ofBool w ++ ~~~v ++ BitVec.ofBool l ++ pp
    c.getLsbD 7 = w ∧ ~~~(bits 3 4 c) = v ∧ c.getLsbD 2 = l ∧ bits 0 2 c = pp := by
  revert w l v pp; decide

/-! ## Whole instructions -/

/-- The immediate byte, where the row has one, and what stands after it. -/
theorem readImm_append (im : List Byte) (v : Byte) (has : Bool) (rest : List Byte)
    (h : im = if has then [v] else []) : readImm has (im ++ rest) = some (if has then v else 0#8, rest) := by
  cases has
  · simp at h; subst h; cases rest <;> rfl
  · simp at h; subst h; rfl

/-- A legacy form, encoded, is decoded by its row of the opcode table (30_encoding.md R72). -/
theorem decode_encodeLegacy {m p : Bool} {map : OpMap} {n : Nat} {e : LegEnc} {k : Nat} {o : RM k} {o4 : RM 4} {opc : Byte}
    {reg : BitVec 3} {im : List Byte} {v : Byte} {row : LegRow} (rest : List Byte)
    (hwf : e.wf m p map n o = true)
    (hrd : ∀ t, readModRM m (hasAddrSize e.prefixes) e.rexBits.x e.rexBits.b (encodeRM reg o ++ t) = some (reg, o4, t))
    (hrow : legacyRow p opc map = some row) (hopc : map = .m0F → opc ≠ 0x38#8 ∧ opc ≠ 0x3A#8)
    (himm : im = if row.imm then [v] else []) (hn : n = im.length) :
    decode m (encodeLegacy e map opc reg o im ++ rest) =
      .ok (row.build e (extReg e.rexBits.r reg) o4 (if row.imm then v else 0#8)) rest := by
  have hlen := Laws.encodeLegacy_length (opc := opc) (reg := reg) hwf hn.symm
  simp only [LegEnc.wf, Bool.and_eq_true, beq_iff_eq, decide_eq_true_eq, Bool.not_eq_true'] at hwf
  obtain ⟨⟨⟨⟨⟨⟨hp, hx⟩, hrep⟩, h66⟩, ho⟩, hl⟩, h15⟩ := hwf
  have hbytes : encodeLegacy e map opc reg o im ++ rest =
      encodePrefixes e.prefixes e.rex ++ 0x0F#8 :: ((map.escape ++ opc :: (encodeRM reg o ++ (im ++ rest))).tail) := by
    cases map <;> simp [encodeLegacy, OpMap.escape]
  have hL : (encodeLegacy e map opc reg o im ++ rest).length = e.len + rest.length := by
    simp [List.length_append, hlen.1]
  unfold decode
  rw [hL, hbytes, scanPrefixes_encode _ hp hx rfl rfl]
  simp only [beq_self_eq_true, ↓reduceIte]
  unfold decodeLegacy
  rw [readLegacyOpcode_escape map opc _ hopc]
  simp only [hrep, Bool.false_eq_true, ↓reduceIte, h66, hrow]
  have := hrd (im ++ rest)
  unfold LegEnc.rexBits at this ⊢
  rw [this]
  simp only [readImm_append im v row.imm rest himm, Nat.add_sub_cancel]

/-- A VEX form, encoded, is decoded by its row of the opcode table (30_encoding.md R72). -/
theorem decode_encodeVex {m : Bool} {map : OpMap} {n : Nat} {e : VexEnc} {o : RM 4} {opc : Byte} {pp : BitVec 2}
    {reg : BitVec 4} {im : List Byte} {v : Byte} {row : VexRow} (rest : List Byte)
    (hwf : e.wf m map n o = true) (hreg : regWf e.r reg = true)
    (hrow : vexRow m pp opc map = some row)
    (himm : im = if row.imm then [v] else []) (hn : n = im.length) :
    decode m (encodeVex e map pp opc reg o im ++ rest) =
      .ok (row.build e reg (e.srcReg m) o (if row.imm then v else 0#8)) rest := by
  have hlen := Laws.encodeVex_length (pp := pp) (opc := opc) (reg := reg) hwf hn.symm
  simp only [VexEnc.wf, Bool.and_eq_true, beq_iff_eq, decide_eq_true_eq, Bool.not_eq_true', Bool.or_eq_true] at hwf
  obtain ⟨⟨⟨⟨⟨⟨hp, hx⟩, htwo⟩, h32⟩, ho⟩, hl⟩, h15⟩ := hwf
  have hrx : (m || e.rex.isNone) = true := by simpa using hx
  have hmr : (m && e.r) = e.r := by cases m <;> simp_all
  have hmx : (m && e.x) = e.x := by cases m <;> simp_all
  have hgo : ∀ len0 e0, (⟨e0.prefixes, e0.rex, e0.two, e0.r, e0.x, e0.b, e0.w, e0.vvvv, e0.l, e.len⟩ : VexEnc) = e →
      len0 = e.len + rest.length →
      decodeVex m len0 e0 map.mmmmm pp (opc :: (encodeRM (reg.setWidth 3) o ++ (im ++ rest))) =
        .ok (row.build e reg (e.srcReg m) o (if row.imm then v else 0#8)) rest := by
    intro len0 e0 he hl0
    obtain ⟨q1,q2,q3,q4,q5,q6,q7,q8,q9,q10⟩ := e0
    obtain ⟨p1,p2,p3,p4,p5,p6,p7,p8,p9,p10⟩ := e
    simp only [VexEnc.mk.injEq] at he
    obtain ⟨rfl, rfl, rfl, rfl, rfl, rfl, rfl, rfl, rfl, -⟩ := he
    unfold decodeVex
    simp only [vexMap_mmmmm, hrow]
    simp only at hmx hmr ho hl0 hreg
    rw [hmx, hmr, readModRM_encode _ _ ho]
    simp only [readImm_append im v row.imm rest himm, extReg_setWidth hreg, hl0, Nat.add_sub_cancel]
    rfl
  have hL : (encodeVex e map pp opc reg o im ++ rest).length = e.len + rest.length := by
    simp [List.length_append, hlen.1]
  rcases htwo' : e.two with _ | _
  · obtain ⟨f7, f6, f5, fmm, f3⟩ := vex3_fields1 e.r e.x e.b map.mmmmm
    obtain ⟨g7, gv, gl, gp⟩ := vex3_fields2 e.w e.l e.vvvv pp
    generalize hc1 : (BitVec.ofBool (!e.r) ++ BitVec.ofBool (!e.x) ++ BitVec.ofBool (!e.b) ++ map.mmmmm : Byte) = c1 at *
    generalize hc2 : (BitVec.ofBool e.w ++ ~~~e.vvvv ++ BitVec.ofBool e.l ++ pp : Byte) = c2 at *
    have hbytes : encodeVex e map pp opc reg o im ++ rest =
        encodePrefixes e.prefixes e.rex ++ 0xC4#8 :: c1 :: c2 :: opc :: (encodeRM (reg.setWidth 3) o ++ (im ++ rest)) := by
      simp only [encodeVex, encodeVexPrefix, htwo', hc1, hc2]; simp
    unfold decode
    rw [hL, hbytes, scanPrefixes_encode _ hp hrx rfl rfl]
    have hnot : (!m && bits 6 2 c1 != 3#2) = false := by
      rw [bne, f3]; cases m <;> simp_all
    simp only [hnot, show ((0xC4#8 : Byte) == 0x0F#8) = false from rfl, show ((0xC4#8 : Byte) == 0xC5#8) = false from rfl, Bool.false_eq_true, ↓reduceIte, beq_self_eq_true, Bool.true_or]
    rw [fmm, gp]
    apply hgo _ _ _ rfl
    simp only [vex3, f7, f6, f5, g7, gv, gl, Bool.not_not, ← htwo']
  · obtain ⟨f7, fv, fl, fp, f3⟩ := vex2_fields e.r e.l e.vvvv pp
    generalize hc1 : (BitVec.ofBool (!e.r) ++ ~~~e.vvvv ++ BitVec.ofBool e.l ++ pp : Byte) = c1 at *
    have hbytes : encodeVex e map pp opc reg o im ++ rest =
        encodePrefixes e.prefixes e.rex ++ 0xC5#8 :: c1 :: opc :: (encodeRM (reg.setWidth 3) o ++ (im ++ rest)) := by
      simp only [encodeVex, encodeVexPrefix, htwo', hc1]; simp
    have ht : map = .m0F ∧ e.x = false ∧ e.b = false ∧ e.w = false := by simp_all
    obtain ⟨hmap, hx0, hb0, hw0⟩ := ht
    unfold decode
    rw [hL, hbytes, scanPrefixes_encode _ hp hrx rfl rfl]
    have hnot : (!m && bits 6 2 c1 != 3#2) = false := by
      rw [bne, f3]; cases m <;> simp_all
    simp only [hnot, show ((0xC5#8 : Byte) == 0x0F#8) = false from rfl, show ((0xC5#8 : Byte) == 0xC4#8) = false from rfl, Bool.false_eq_true, ↓reduceIte, beq_self_eq_true, Bool.or_true]
    rw [fp, show (1#5 : BitVec 5) = map.mmmmm by rw [hmap]; rfl]
    apply hgo _ _ _ rfl
    simp only [vex2, f7, fv, fl, Bool.not_not]
    generalize e = e' at *
    obtain ⟨p1,p2,p3,p4,p5,p6,p7,p8,p9,p10⟩ := e'
    simp_all

/-- The r/m operand of an allowed legacy encoding. -/
theorem LegEnc.wf_rm {m p : Bool} {map : OpMap} {n k : Nat} {e : LegEnc} {o : RM k} (h : e.wf m p map n o = true) :
    o.wf m (hasAddrSize e.prefixes) e.rexBits.x e.rexBits.b = true := by
  simp only [LegEnc.wf, Bool.and_eq_true] at h
  exact h.1.1.2

/-- What is read for an r/m operand of an MMX form. -/
theorem readModRM_of_wf_mmx {m p : Bool} {map : OpMap} {n : Nat} {e : LegEnc} {o : RM 3} {reg : BitVec 3} (h : e.wf m p map n o = true) :
    ∃ o', (∀ t, readModRM m (hasAddrSize e.prefixes) e.rexBits.x e.rexBits.b (encodeRM reg o ++ t) = some (reg, o', t)) ∧
      mmxRM o' = o := by
  have h' := LegEnc.wf_rm h
  rcases o with n | o
  · refine ⟨.reg (extReg e.rexBits.b n), fun t => ?_, ?_⟩
    · simp [encodeRM, readModRM]
    · simp [mmxRM, mmxReg]
  · exact ⟨.mem o, fun t => encodeRM_mem reg o ▸ readModRM_encode (o := .mem o) reg t h', rfl⟩

end Sys2Proof
end

