-- ==== Sys2Proof/Laws/Elements.lean ====
section
/-! SUPPORT. The elements of packed values. -/

namespace Sys2Proof.Machine

/-- Bit `j` of an element. -/
theorem getLsbD_elem {W w : Nat} (v : BitVec W) (i j : Nat) :
    (elem w v i).getLsbD j = (decide (j < w) && v.getLsbD (w * i + j)) := by
  simp [elem, BitVec.getLsbD_extractLsb']

/-- Bit `j` of a packed value is bit `j % w` of element `j / w`. -/
theorem getLsbD_pack {W w : Nat} (f : Nat → BitVec w) (n j : Nat) :
    (pack W f n).getLsbD j = (decide (j < W) && decide (j < w * n) && (f (j / w)).getLsbD (j % w)) := by
  induction n with
  | zero => simp [pack]
  | succ n ih =>
    simp only [pack, BitVec.getLsbD_or, ih, BitVec.getLsbD_shiftLeft, BitVec.getLsbD_setWidth]
    by_cases hW : j < W
    · by_cases h1 : j < w * n
      · have h2 : j < w * (n + 1) := Nat.lt_of_lt_of_le h1 (Nat.mul_le_mul_left w (Nat.le_succ n))
        simp [hW, h1, h2]
      · by_cases h2 : j < w * (n + 1)
        · have hm : w * (n + 1) = w * n + w := Nat.mul_succ w n
          have hw : 0 < w := by omega
          have hd : j / w = n := by
            apply Nat.div_eq_of_lt_le
            · rw [Nat.mul_comm]; omega
            · rw [Nat.mul_comm]; omega
          have hr : j % w = j - w * n := by
            have := Nat.div_add_mod j w
            rw [hd] at this
            omega
          have h3 : j - w * n < W := by omega
          simp [hW, h1, h2, hd, hr, h3]
        · have hm : w * (n + 1) = w * n + w := Nat.mul_succ w n
          have h3 : (f n).getLsbD (j - w * n) = false := BitVec.getLsbD_of_ge _ _ (by omega)
          simp [h1, h2, h3]
    · simp [hW]

/-- An element of a packed value. -/
theorem elem_pack {W w : Nat} (f : Nat → BitVec w) {n i : Nat} (hi : i < n) (hn : w * n ≤ W) :
    elem w (pack W f n) i = f i := by
  apply BitVec.eq_of_getLsbD_eq
  intro j hj
  have h1 : w * i + w ≤ w * n := by
    rw [← Nat.mul_succ]; exact Nat.mul_le_mul_left w hi
  have hw : 0 < w := by omega
  have h2 : (w * i + j) / w = i := by
    rw [Nat.add_comm, Nat.add_mul_div_left _ _ hw, Nat.div_eq_of_lt hj, Nat.zero_add]
  have h3 : (w * i + j) % w = j := by
    rw [Nat.add_comm, Nat.add_mul_mod_self_left, Nat.mod_eq_of_lt hj]
  have h4 : w * i + j < W := by omega
  have h5 : w * i + j < w * n := by omega
  rw [getLsbD_elem, getLsbD_pack]
  simp [hj, h2, h3, h4, h5]

/-- The element function of the wrapping additions is addition of bit vectors (43_phadd.md R145). -/
theorem addW_eq {w : Nat} (x y : BitVec w) : addW x y = x + y := by
  apply BitVec.eq_of_toNat_eq
  simp [addW]

/-- The element function of the wrapping subtractions is subtraction of bit vectors (45_phsub.md R175). -/
theorem subW_eq {w : Nat} (x y : BitVec w) : subW x y = x - y := by
  apply BitVec.eq_of_toInt_eq
  rw [subW, BitVec.toInt_ofInt, BitVec.toInt_sub, BitVec.toInt_eq_toNat_bmod, BitVec.toInt_eq_toNat_bmod]
  simp

/-- What saturation answers, as a signed number (00_scope.md R6). -/
theorem satS16_toInt (z : Int) : (satS16 z).toInt = max (-32768) (min z 32767) := by
  unfold satS16
  split
  · next h => rw [show (0x7FFF#16 : BitVec 16).toInt = 32767 from by decide]; omega
  · split
    · next h => rw [show (0x8000#16 : BitVec 16).toInt = -32768 from by decide]; omega
    · rw [BitVec.toInt_ofInt, Int.bmod_eq_of_le] <;> omega

end Sys2Proof.Machine
end

