-- ==== Sys2Proof/Laws/Operands.lean ====
section
/-! SUPPORT. What the checks, the r/m operands and the four encoding kinds answer, said once each. -/

namespace Sys2Proof.Machine

/-! ## The end of a meaning -/

/-- A meaning answers a next state exactly when its body does; `rip` is advanced (10_state.md R12). -/
theorem finish_eq_next {len : Nat} {s t : State} {r : Res State} :
    finish len s r = .next t ↔ ∃ u, r = .ok u ∧ t = u.setRip (s.nextRip len) := by
  cases r with
  | ok u => simp [finish, eq_comm]
  | error e => cases e <;> simp [finish, Stop.outcome]

/-- A stop of the body is the stop of the meaning. -/
@[simp] theorem finish_error (len : Nat) (s : State) (e : Stop) : finish len s (.error e) = e.outcome := rfl

/-- A body that answers a state. -/
@[simp] theorem finish_ok (len : Nat) (s u : State) : finish len s (.ok u) = .next (u.setRip (s.nextRip len)) := rfl

/-! ## The checks before the operands (60_exceptions.md R221 to R229) -/

theorem checkNM_eq_ok {s : State} {u : Unit} : checkNM s = .ok u ↔ cr0TS s = false := by
  unfold checkNM
  cases cr0TS s <;> simp [raise]

theorem checkSse_eq_ok {f : Feature} {ud : Bool} {e : LegEnc} {s : State} {u : Unit} :
    checkSse f ud e s = .ok u ↔ ud = false ∧ sseReady f e s := by
  unfold checkSse sseReady
  cases hasLock e.prefixes <;> cases ud <;> cases cpuid f s <;> cases cr0EM s <;> cases cr4OSFXSR s <;>
    simp [raise, checkNM_eq_ok]

theorem checkMmx_eq_ok {f : Feature} {ud : Bool} {e : LegEnc} {s : State} {u : Unit} :
    checkMmx f ud e s = .ok u ↔ ud = false ∧ mmxReady f e s := by
  unfold checkMmx mmxReady
  cases hasLock e.prefixes <;> cases ud <;> cases cpuid f s <;> cases cr0EM s <;> cases cr0TS s <;>
    cases s.env.x87Pending <;> simp [raise]

theorem checkVex_eq_ok {f : Feature} {ud w0 : Bool} {e : VexEnc} {s : State} {u : Unit} :
    checkVex f ud w0 e s = .ok u ↔ ud = false ∧ (w0 = true → vexWFine e s) ∧ vexReady f e s := by
  unfold checkVex vexReady vexWFine
  cases vexForbidden e.prefixes e.rex <;> cases ud <;> cases cpuid f s <;> cases cr4OSXSAVE s <;> cases xcr0SSE s <;>
    cases xcr0AVX s <;> cases w0 <;> cases e.w <;> cases s.env.mode64 <;> simp [raise, refuse, checkNM_eq_ok]

theorem checkPext_eq_ok {e : VexEnc} {s : State} {u : Unit} : checkPext e s = .ok u ↔ pextReady e s := by
  unfold checkPext pextReady
  cases vexForbidden e.prefixes e.rex <;> cases e.l <;> cases cpuid .bmi2 s <;> simp [raise]

/-- The register that VEX.vvvv names, as well-formedness says it and as the decoder does. -/
theorem vvvvUsed_eq (e : VexEnc) (s : State) : vvvvUsed e s = (e.srcReg s.env.mode64 != 0#4) := rfl

/-! ## The r/m operand -/

/-- An r/m source answers a value exactly when it is one that may be read and holds it. -/
theorem loadRM_eq_ok {k w : Nat} (hw : w % 8 = 0) {al : Bool} {ps : List Prefix} {len : Nat} {reg : BitVec k → BitVec w}
    {o : RM k} {s : State} {v : BitVec w} : loadRM w al ps len reg o s = .ok v ↔ sourceIs al ps len reg o v s := by
  cases o with
  | reg n => simp [loadRM, sourceIs, eq_comm]
  | mem m => exact memRead_eq_ok hw

/-- A register destination of up to 32 bits (41_pextrb_pextrd_pextrq.md R117; 42_pextrw.md R126). -/
@[simp] theorem storeRM32_reg {w : Nat} (ps : List Prefix) (len : Nat) (v : BitVec w) (n : BitVec 4) (s : State) :
    storeRM32 ps len v (.reg n) s = .ok (s.setReg32 n (v.setWidth 32)) := rfl

/-- A register destination of 64 bits. -/
@[simp] theorem storeRM64_reg (ps : List Prefix) (len : Nat) (v : Word) (n : BitVec 4) (s : State) :
    storeRM64 ps len v (.reg n) s = .ok (s.setReg64 n v) := rfl

/-- A memory destination. -/
@[simp] theorem storeRM32_mem {w : Nat} (ps : List Prefix) (len : Nat) (v : BitVec w) (m : MemOp) (s : State) :
    storeRM32 ps len v (.mem m) s = s.memWrite (operandSeg s.env.mode64 ps m) (s.offset ps len m) v := rfl

@[simp] theorem storeRM64_mem (ps : List Prefix) (len : Nat) (v : Word) (m : MemOp) (s : State) :
    storeRM64 ps len v (.mem m) s = s.memWrite (operandSeg s.env.mode64 ps m) (s.offset ps len m) v := rfl

/-! ## A check, then a source, then a write -/

/-- The shape of every form that writes a register: after the check and the read, one state. -/
theorem check_read_eq_ok {α : Type} {c : Res Unit} {r : Res α} {f : α → State} {u : State} :
    (do c; let b ← r; return f b) = Except.ok u ↔ c = .ok () ∧ ∃ b, r = .ok b ∧ u = f b := by
  cases c with
  | error e => simp [bind, Except.bind]
  | ok x =>
    cases r with
    | error e => simp [bind, Except.bind]
    | ok b => simp [bind, Except.bind, pure, Except.pure, eq_comm]

/-- A check and then a part that may stop. -/
theorem check_then_eq_ok {α : Type} {c : Res Unit} {r : Res α} {u : α} :
    (do c; r) = Except.ok u ↔ c = .ok () ∧ r = .ok u := by
  cases c <;> simp [bind, Except.bind]

/-! ## The four encoding kinds (43_phadd.md R143) -/

variable {f : Feature} {s t : State}

theorem mmxForm_eq_next {g : BitVec 64 → BitVec 64 → BitVec 64} {e : LegEnc} {dst : BitVec 3} {src : RM 3} :
    mmxForm f g e dst src s = .next t ↔ mmxReady f e s ∧ ∃ b, sourceIs false e.prefixes e.len s.mm src b s ∧
      t = ((s.setMm dst (g (s.mm dst) b)).touchX87).setRip (s.nextRip e.len) := by
  simp only [mmxForm, finish_eq_next, check_read_eq_ok, checkMmx_eq_ok, true_and, loadRM_eq_ok (w := 64) (by decide)]
  constructor
  · rintro ⟨u, ⟨hr, b, hb, rfl⟩, rfl⟩; exact ⟨hr, b, hb, rfl⟩
  · rintro ⟨hr, b, hb, rfl⟩; exact ⟨_, ⟨hr, b, hb, rfl⟩, rfl⟩

theorem sseForm_eq_next {g : BitVec 128 → BitVec 128 → BitVec 128} {e : LegEnc} {dst : BitVec 4} {src : RM 4} :
    sseForm f g e dst src s = .next t ↔ sseReady f e s ∧ ∃ b, sourceIs true e.prefixes e.len s.xmm src b s ∧
      t = (s.setXmmKeep dst (g (s.xmm dst) b)).setRip (s.nextRip e.len) := by
  simp only [sseForm, finish_eq_next, check_read_eq_ok, checkSse_eq_ok, true_and, loadRM_eq_ok (w := 128) (by decide)]
  constructor
  · rintro ⟨u, ⟨hr, b, hb, rfl⟩, rfl⟩; exact ⟨hr, b, hb, rfl⟩
  · rintro ⟨hr, b, hb, rfl⟩; exact ⟨_, ⟨hr, b, hb, rfl⟩, rfl⟩

theorem vex128Form_eq_next {g : BitVec 128 → BitVec 128 → BitVec 128} {e : VexEnc} {dst src1 : BitVec 4} {src2 : RM 4} :
    vex128Form f g e dst src1 src2 s = .next t ↔
      vexReady f e s ∧ ∃ b, sourceIs s.env.vexM128Align e.prefixes e.len s.xmm src2 b s ∧
        t = (s.setXmmZero dst (g (s.xmm src1) b)).setRip (s.nextRip e.len) := by
  simp only [vex128Form, finish_eq_next, check_read_eq_ok, checkVex_eq_ok, true_and, Bool.false_eq_true,
    false_implies, loadRM_eq_ok (w := 128) (by decide)]
  constructor
  · rintro ⟨u, ⟨hr, b, hb, rfl⟩, rfl⟩; exact ⟨hr, b, hb, rfl⟩
  · rintro ⟨hr, b, hb, rfl⟩; exact ⟨_, ⟨hr, b, hb, rfl⟩, rfl⟩

theorem vex256Form_eq_next {g : BitVec 256 → BitVec 256 → BitVec 256} {e : VexEnc} {dst src1 : BitVec 4} {src2 : RM 4} :
    vex256Form f g e dst src1 src2 s = .next t ↔
      vexReady f e s ∧ ∃ b, sourceIs false e.prefixes e.len s.ymmReg src2 b s ∧
        t = (s.setYmm dst (g (s.ymmReg src1) b)).setRip (s.nextRip e.len) := by
  simp only [vex256Form, finish_eq_next, check_read_eq_ok, checkVex_eq_ok, true_and, Bool.false_eq_true,
    false_implies, loadRM_eq_ok (w := 256) (by decide)]
  constructor
  · rintro ⟨u, ⟨hr, b, hb, rfl⟩, rfl⟩; exact ⟨hr, b, hb, rfl⟩
  · rintro ⟨hr, b, hb, rfl⟩; exact ⟨_, ⟨hr, b, hb, rfl⟩, rfl⟩

/-! ## The writes, in the terms of the statements -/

/-- The write of a legacy MMX form (10_state.md R16). -/
theorem writesMm_set (s : State) (d : BitVec 3) (v : BitVec 64) (len : Nat) :
    writesMm d v len s (((s.setMm d v).touchX87).setRip (s.nextRip len)) :=
  ⟨setMm_same s d v, rfl, rfl, rfl, fun _ _ => rfl, fun _ _ => rfl,
    fun _ h => setMm_other s v (by simpa using h), fun _ => rfl, rfl, rfl, rfl⟩

/-- The write of a legacy SSE form (10_state.md R18). -/
theorem writesXmmKeep_set (s : State) (d : BitVec 4) (v : BitVec 128) (len : Nat) :
    writesXmmKeep d v len s ((s.setXmmKeep d v).setRip (s.nextRip len)) :=
  ⟨setXmmKeep_same s d v, rfl, fun _ _ => rfl, fun _ h => setXmmKeep_other s v (by simpa using h), fun _ _ => rfl,
    ⟨rfl, rfl⟩, fun _ => rfl, rfl, rfl, rfl⟩

/-- The write of a VEX.128 form (10_state.md R18). -/
theorem writesXmmZero_set (s : State) (d : BitVec 4) (v : BitVec 128) (len : Nat) :
    writesXmmZero d v len s ((s.setXmmZero d v).setRip (s.nextRip len)) :=
  ⟨setXmmZero_same s d v, rfl, fun _ _ => rfl, fun _ h => setXmmZero_other s v (by simpa using h), fun _ _ => rfl,
    ⟨rfl, rfl⟩, fun _ => rfl, rfl, rfl, rfl⟩

/-- The write of a VEX.256 form (10_state.md R18). -/
theorem writesYmm_set (s : State) (d : BitVec 4) (v : BitVec 256) (len : Nat) :
    writesYmm d v len s ((s.setYmm d v).setRip (s.nextRip len)) :=
  ⟨setYmm_same s d v, rfl, fun _ _ => rfl, fun _ h => setYmm_other s v (by simpa using h), fun _ _ => rfl,
    ⟨rfl, rfl⟩, fun _ => rfl, rfl, rfl, rfl⟩

/-- A 64-bit write of a general register (10_state.md R11). -/
theorem writesGpr_set64 (s : State) (d : BitVec 4) (v : Word) (len : Nat) :
    writesGpr d v len s ((s.setReg64 d v).setRip (s.nextRip len)) :=
  ⟨by simp, rfl, fun _ h => setReg64_other s v (by simpa using h), fun _ _ => rfl, fun _ _ => rfl, ⟨rfl, rfl⟩,
    fun _ => rfl, rfl, rfl, rfl⟩

/-- A 32-bit write of a general register (10_state.md R11). -/
theorem writesGpr_set32 {w : Nat} (s : State) (d : BitVec 4) (v : BitVec w) (h : w ≤ 32) (len : Nat) :
    writesGpr d v len s ((s.setReg32 d (v.setWidth 32)).setRip (s.nextRip len)) :=
  ⟨by simp [h], rfl, fun _ h => setReg32_other s _ (by simpa using h), fun _ _ => rfl,
    fun _ _ => rfl, ⟨rfl, rfl⟩, fun _ => rfl, rfl, rfl, rfl⟩

end Sys2Proof.Machine
end

