-- ==== Sys2Proof/Laws/Step.lean ====
section
/-! SUPPORT. What a step answers. -/

namespace Sys2Proof.Machine

/-- A stop is no next state. -/
theorem outcome_ne_next (e : Stop) (t : State) : e.outcome ≠ .next t := by cases e <;> simp [Stop.outcome]

/-- A step answers a next state exactly when an instruction is fetched and its meaning answers that state. -/
theorem step_eq_next {s t : State} : step s = .next t ↔ ∃ i, s.fetchInstr = .ok i ∧ exec i s = .next t := by
  unfold step
  cases h : s.fetchInstr with
  | error e => simp [outcome_ne_next]
  | ok i => simp

/-- The instruction that is fetched is the one the decoder reads from the bytes that could be fetched. -/
theorem fetchInstr_eq_ok {s : State} {i : Instr} :
    s.fetchInstr = .ok i ↔
      s.atEnd = false ∧ ∃ rest, decode s.env.mode64 (s.fetchFrom Config.maxLen 0).1 = .ok i rest := by
  unfold State.fetchInstr
  cases s.atEnd with
  | true => simp
  | false =>
    cases hd : decode s.env.mode64 (s.fetchFrom Config.maxLen 0).1 with
    | ok j rest => simp [hd]
    | truncated => cases hr : (s.fetchFrom Config.maxLen 0).2 <;> simp [hd, hr, raise]
    | undefined => simp [hd, raise]
    | reject w => simp [hd, refuse]

/-- At most `n` bytes are fetched. -/
theorem fetchFrom_length (s : State) (n i : Nat) : (s.fetchFrom n i).1.length ≤ n := by
  induction n generalizing i with
  | zero => simp [State.fetchFrom]
  | succ n ih =>
    unfold State.fetchFrom
    cases s.fetchByte i with
    | error e => simp
    | ok v => simpa using ih (i + 1)

/-- The bytes fetched are those that `fetchByte` answers. -/
theorem fetchFrom_getElem (s : State) {n i j : Nat} {b : Byte} (h : (s.fetchFrom n i).1[j]? = some b) :
    s.fetchByte (i + j) = .ok b := by
  induction n generalizing i j with
  | zero => simp [State.fetchFrom] at h
  | succ n ih =>
    unfold State.fetchFrom at h
    cases hb : s.fetchByte i with
    | error e => simp [hb] at h
    | ok v =>
      simp only [hb] at h
      cases j with
      | zero => simpa [hb] using h
      | succ j =>
        have := ih (i := i + 1) (j := j) (by simpa using h)
        rw [Nat.add_assoc, Nat.add_comm 1 j] at this
        exact this

/-- Either all `n` bytes are fetched, or the byte after the fetched ones is the first that cannot be, and its stop is kept. -/
theorem fetchFrom_stop (s : State) (n i : Nat) :
    ((s.fetchFrom n i).1.length = n ∧ (s.fetchFrom n i).2 = none) ∨
      ((s.fetchFrom n i).1.length < n ∧
        ∃ e, (s.fetchFrom n i).2 = some e ∧ s.fetchByte (i + (s.fetchFrom n i).1.length) = .error e) := by
  induction n generalizing i with
  | zero => exact .inl ⟨rfl, rfl⟩
  | succ n ih =>
    unfold State.fetchFrom
    cases hb : s.fetchByte i with
    | error e => exact .inr ⟨by simp, e, rfl, by simpa using hb⟩
    | ok v =>
      rcases ih (i + 1) with ⟨hl, hr⟩ | ⟨hl, e, hr, he⟩
      · exact .inl ⟨by simp [hl], hr⟩
      · refine .inr ⟨by simpa using hl, e, hr, ?_⟩
        rwa [List.length_cons, Nat.add_comm _ 1, ← Nat.add_assoc]

/-- Where the first bytes can be fetched, they are the first bytes fetched. -/
theorem fetchFrom_prefix (s : State) {bs : List Byte} {n i : Nat} (hn : bs.length ≤ n)
    (h : ∀ j, (hj : j < bs.length) → s.fetchByte (i + j) = .ok bs[j]) :
    ∃ rest, (s.fetchFrom n i).1 = bs ++ rest := by
  induction bs generalizing n i with
  | nil => exact ⟨_, rfl⟩
  | cons b bs ih =>
    cases n with
    | zero => simp at hn
    | succ n =>
      have h0 := h 0 (by simp)
      obtain ⟨rest, hr⟩ := ih (n := n) (i := i + 1) (by simpa using hn) fun j hj => by
        have := h (j + 1) (by simpa using hj)
        rw [Nat.add_assoc, Nat.add_comm 1 j]
        simpa using this
      refine ⟨rest, ?_⟩
      simp only [Nat.add_zero, List.getElem_cons_zero] at h0
      simp [State.fetchFrom, h0, hr]

end Sys2Proof.Machine
end

