-- ==== Sys2Proof/Laws/Exec.lean ====
section
/-! SUPPORT. What an instruction can do, said once for all 56 forms: its checks, and then one write to a register, one read of
memory and such a write, or one store. -/

namespace Sys2Proof.Machine

/-- The checks before the operand, in order (60_exceptions.md R235), in the terms of the tables. -/
def preChecks (i : Instr) (s : State) : Res Unit :=
  if udCond i s then raise .ud s
  else if vexWOpen i s then refuse .vexWOutside64
  else if nmCond i s then raise .nm s
  else if mfCond i s then raise .mf s
  else .ok ()

/-- The checks pass exactly where `passesChecks` says so. -/
theorem preChecks_eq_ok {i : Instr} {s : State} : preChecks i s = .ok () ↔ passesChecks i s = true := by
  unfold preChecks passesChecks
  cases udCond i s <;> cases vexWOpen i s <;> cases nmCond i s <;> cases mfCond i s <;> simp [raise, refuse]

theorem rmIsMem_eq {k : Nat} {o : RM k} : rmIsMem o = o.mem?.isSome := by cases o <;> rfl

/-! ## The checks of each class are those of the tables -/

theorem checkSse_eq {i : Instr} {s : State} {e : LegEnc} {f : Feature} {ud : Bool} (he : i.enc = .leg e)
    (hk : i.row.kind = .sse) (hf : i.row.feature = f) (h6 : i.row.only64 = false)
    (hu : ud = (i.row.regOnly && i.memOp.isSome)) : checkSse f ud e s = preChecks i s := by
  subst hf hu
  unfold checkSse preChecks udCond vexWOpen nmCond mfCond checkNM
  simp only [he, hk, h6]
  cases hasLock e.prefixes <;> cases cpuid i.row.feature s <;> cases cr0EM s <;> cases cr4OSFXSR s <;> cases cr0TS s <;>
    cases i.row.regOnly <;> cases i.memOp.isSome <;> rfl

theorem checkMmx_eq {i : Instr} {s : State} {e : LegEnc} {f : Feature} {ud : Bool} (he : i.enc = .leg e)
    (hk : i.row.kind = .mmx) (hf : i.row.feature = f) (h6 : i.row.only64 = false)
    (hu : ud = (i.row.regOnly && i.memOp.isSome)) : checkMmx f ud e s = preChecks i s := by
  subst hf hu
  unfold checkMmx preChecks udCond vexWOpen nmCond mfCond
  simp only [he, hk, h6]
  cases hasLock e.prefixes <;> cases cpuid i.row.feature s <;> cases cr0EM s <;> cases cr0TS s <;>
    cases s.env.x87Pending <;> cases i.row.regOnly <;> cases i.memOp.isSome <;> rfl

theorem checkVex_eq {i : Instr} {s : State} {e : VexEnc} {f : Feature} {ud w0 : Bool} (he : i.enc = .vex e)
    (hk : i.row.kind = .vex) (hf : i.row.feature = f) (hw : i.row.vexW0 = w0)
    (hu : ud = ((i.row.vexL0 && e.l) || (i.row.vvvvNone && vvvvUsed e s) || (i.row.only64 && !s.env.mode64) ||
      (i.row.regOnly && i.memOp.isSome))) : checkVex f ud w0 e s = preChecks i s := by
  subst hf hw hu
  have hu : (vexForbidden e.prefixes e.rex || ((i.row.vexL0 && e.l) || (i.row.vvvvNone && vvvvUsed e s) ||
      (i.row.only64 && !s.env.mode64) || (i.row.regOnly && i.memOp.isSome)) || !cpuid i.row.feature s ||
      !cr4OSXSAVE s || !(xcr0SSE s && xcr0AVX s)) = udCond i s := by
    simp only [udCond, he, hk, vvvvUsed_eq]
    generalize (e.srcReg s.env.mode64 != 0#4) = v
    cases vexForbidden e.prefixes e.rex <;> cases cpuid i.row.feature s <;> cases cr4OSXSAVE s <;> cases xcr0SSE s <;>
      cases xcr0AVX s <;> simp
  unfold checkVex preChecks checkNM
  rw [hu]
  simp [vexWOpen, nmCond, mfCond, he, hk]

theorem checkPext_eq {i : Instr} {s : State} {e : VexEnc} (he : i.enc = .vex e) (hk : i.row.kind = .pext)
    (hf : i.row.feature = .bmi2) (hl : i.row.vexL0 = true) (hv : i.row.vvvvNone = false) (hw : i.row.vexW0 = false)
    (h6 : i.row.only64 = false) (hr : i.row.regOnly = false) : checkPext e s = preChecks i s := by
  unfold checkPext preChecks udCond vexWOpen nmCond mfCond
  simp only [he, hk, hf, hl, hv, hw, h6, hr]
  cases vexForbidden e.prefixes e.rex <;> cases e.l <;> cases cpuid .bmi2 s <;> rfl

/-! ## The one write of an instruction -/

/-- A register number is one of the first eight where the instruction is well-formed for 32-bit mode (10_state.md R10, R17). -/
abbrev LowIn32 (i : Instr) (s : State) (d : BitVec 4) : Prop :=
  i.wf s.env.mode64 = true → s.env.mode64 = false → d.msb = false

/-- The states that differ from `s` by a write that the kind of the instruction allows. -/
inductive RegWrite (i : Instr) (s : State) : State → Prop where
  | gpr32 (d : BitVec 4) (v : BitVec 32) (hd : LowIn32 i s d) (hk : i.row.kind ≠ .mmx) :
      RegWrite i s (s.setReg32 d v)
  | gpr64 (d : BitVec 4) (v : Word) (h64 : s.env.mode64 = true) (hk : i.row.kind ≠ .mmx) : RegWrite i s (s.setReg64 d v)
  | gprMmx (d : BitVec 4) (v : BitVec 32) (hd : LowIn32 i s d) (hk : i.row.kind = .mmx) :
      RegWrite i s (s.setReg32 d v).touchX87
  | mmx (d : BitVec 3) (v : BitVec 64) (hk : i.row.kind = .mmx) : RegWrite i s (s.setMm d v).touchX87
  | xmmKeep (d : BitVec 4) (v : BitVec 128) (hd : LowIn32 i s d) (hk : i.row.kind = .sse) :
      RegWrite i s (s.setXmmKeep d v)
  | xmmZero (d : BitVec 4) (v : BitVec 128) (hd : LowIn32 i s d) (hk : i.row.kind = .vex) :
      RegWrite i s (s.setXmmZero d v)
  | ymm (d : BitVec 4) (v : BitVec 256) (hd : LowIn32 i s d) (hk : i.row.kind = .vex)
      (hb : i.row.bytes = 32) : RegWrite i s (s.setYmm d v)

/-- What an instruction does: nothing, where no bytes mean it in the mode, or one of three shapes (20_memory.md R37: at
most one memory access, before any write). -/
inductive Shape (i : Instr) (s : State) : Prop where
  | refused (hf : i.wf s.env.mode64 = false) (he : exec i s = .refused .notEncodable)
  | plain (t : State) (hm : i.memOp = none) (hw : RegWrite i s t)
      (he : exec i s = finish i.len s (do preChecks i s; .ok t))
  | load (o : MemOp) (w : Nat) (f : BitVec w → State) (hm : i.memOp = some o) (hs : i.row.store = false)
      (hn : i.row.regOnly = false → w = 8 * i.row.bytes) (hw : ∀ b, RegWrite i s (f b))
      (he : exec i s = finish i.len s (do
        preChecks i s
        let b ← s.memRead w (mustAlign16 i s) (operandSeg s.env.mode64 i.prefixes o) (s.offset i.prefixes i.len o)
        .ok (f b)))
  | store (o : MemOp) (w : Nat) (v : BitVec w) (hm : i.memOp = some o) (hs : i.row.store = true)
      (hn : w = 8 * i.row.bytes)
      (he : exec i s = finish i.len s (do
        preChecks i s
        s.memWrite (operandSeg s.env.mode64 i.prefixes o) (s.offset i.prefixes i.len o) v))

variable {i : Instr} {s : State}

/-- A form that reads its r/m operand and writes a register. -/
theorem Shape.of_load {k w : Nat} {c : Res Unit} {al : Bool} {reg : BitVec k → BitVec w} {o : RM k} {f : BitVec w → State}
    (he : exec i s = finish i.len s (do c; let b ← loadRM w al i.prefixes i.len reg o s; return f b))
    (hc : c = preChecks i s) (ho : i.memOp = o.mem?) (hs : i.row.store = false) (hn : w = 8 * i.row.bytes)
    (ha : al = mustAlign16 i s) (hw : ∀ b, RegWrite i s (f b)) : Shape i s := by
  subst hc ha
  cases o with
  | reg n => exact .plain (f (reg n)) ho (hw _) he
  | mem m => exact .load m w f ho hs (fun _ => hn) hw he

/-- A form that writes a register, or stores to memory. -/
theorem Shape.of_store32 {w : Nat} {c : Res Unit} {o : RM 4} {v : BitVec w}
    (he : exec i s = finish i.len s (do c; storeRM32 i.prefixes i.len v o s)) (hc : c = preChecks i s)
    (ho : i.memOp = o.mem?) (hs : i.row.store = true) (hn : w = 8 * i.row.bytes) (hk : i.row.kind ≠ .mmx)
    (hd : ∀ n, o = .reg n → LowIn32 i s n) : Shape i s := by
  subst hc
  cases o with
  | reg n => exact .plain _ ho (.gpr32 n _ (hd n rfl) hk) he
  | mem m => exact .store m w v ho hs hn he

/-- A form of 64 bits that writes a register, or stores to memory. -/
theorem Shape.of_store64 {c : Res Unit} {o : RM 4} {v : Word}
    (he : exec i s = finish i.len s (do c; storeRM64 i.prefixes i.len v o s)) (hc : c = preChecks i s)
    (ho : i.memOp = o.mem?) (hs : i.row.store = true) (hn : i.row.bytes = 8) (hk : i.row.kind ≠ .mmx)
    (h64 : s.env.mode64 = true) : Shape i s := by
  subst hc
  cases o with
  | reg n => exact .plain _ ho (.gpr64 n _ h64 hk) he
  | mem m => exact .store m 64 v ho hs (by rw [hn]) he

/-- A form that takes a register source only. -/
theorem Shape.of_reg {k : Nat} {c : Res Unit} {o : RM k} {t : State}
    (he : exec i s = finish i.len s (do c; return t)) (hc : c = preChecks i s) (ho : i.memOp = o.mem?)
    (hs : i.row.store = false) (hr : i.row.regOnly = true) (hw : RegWrite i s t) : Shape i s := by
  subst hc
  cases o with
  | reg n => exact .plain t ho hw he
  | mem m =>
    have hu : udCond i s = true := by
      unfold udCond
      simp [hr, ho, RM.mem?]
    refine .load m 8 (fun _ => t) ho hs (by simp [hr]) (fun _ => hw) ?_
    rw [he]
    simp [preChecks, hu, raise, bind, Except.bind]

/-- A storing form whose #UD condition holds, whatever comes after the checks. -/
theorem Shape.of_ud {c : Res Unit} {x : Res State} (he : exec i s = finish i.len s (do c; x)) (hc : c = preChecks i s)
    (hu : udCond i s = true) (hs : i.row.store = true) (hk : i.row.kind ≠ .mmx) : Shape i s := by
  subst hc
  have hp : ∀ y : Res State, (do preChecks i s; y) = raise .ud s := by
    intro y
    simp [preChecks, hu, raise, bind, Except.bind]
  cases ho : i.memOp with
  | none => exact .plain _ ho (.gpr32 0#4 0#32 (fun _ _ => rfl) hk) (by rw [he, hp, hp])
  | some m => exact .store m (8 * i.row.bytes) 0 ho hs rfl (by rw [he, hp, hp])

/-! ## Register numbers in 32-bit mode -/

theorem regWf_low {m ext : Bool} {n : BitVec 4} (h : regWf ext n = true) (hx : m = false → ext = false) :
    m = false → n.msb = false := by
  intro hm
  simpa [regWf, hx hm] using h

theorem LegEnc.wf_ext {k : Nat} {m p : Bool} {map : OpMap} {n : Nat} {e : LegEnc} {o : RM k}
    (h : e.wf m p map n o = true) : m = false → e.rexBits.r = false ∧ e.rexBits.b = false := by
  intro hm
  simp only [Sys2Proof.LegEnc.wf, hm, Bool.and_eq_true, Bool.false_or, Option.isNone_iff_eq_none] at h
  simp [LegEnc.rexBits, h.1.1.1.1.1.2]

theorem LegEnc.wf_noRex {k : Nat} {m p : Bool} {map : OpMap} {n : Nat} {e : LegEnc} {o : RM k}
    (h : e.wf m p map n o = true) : m = false → e.rexBits.w = false := by
  intro hm
  simp only [Sys2Proof.LegEnc.wf, hm, Bool.and_eq_true, Bool.false_or, Option.isNone_iff_eq_none] at h
  simp [LegEnc.rexBits, h.1.1.1.1.1.2]

theorem LegEnc.wf_low {m p : Bool} {map : OpMap} {n : Nat} {e : LegEnc} {o : RM 4} (h : e.wf m p map n o = true) :
    ∀ r, o = .reg r → m = false → r.msb = false := by
  rintro r rfl hm
  have hx := LegEnc.wf_ext h hm
  have := LegEnc.wf_rm h
  simpa [RM.wf, hx.2] using this

theorem VexEnc.wf_ext {m : Bool} {map : OpMap} {n : Nat} {e : VexEnc} {o : RM 4} (h : e.wf m map n o = true) :
    m = false → e.r = false := by
  intro hm
  simp only [Sys2Proof.VexEnc.wf, hm, Bool.and_eq_true, Bool.false_or, Bool.not_eq_true'] at h
  exact h.1.1.1.2.1.1

theorem VexEnc.wf_low {m : Bool} {map : OpMap} {n : Nat} {e : VexEnc} {o : RM 4} (h : e.wf m map n o = true) :
    ∀ r, o = .reg r → m = false → r.msb = false := by
  rintro r rfl hm
  simp only [Sys2Proof.VexEnc.wf, hm, Bool.and_eq_true] at h
  simpa [RM.wf] using h.1.1.2

/-! ## All 56 forms -/

/-- What any instruction does in any state. -/
theorem exec_shape (i : Instr) (s : State) : Shape i s := by
  cases i with
  | pextR32 e dst src mask =>
    exact .of_load rfl (checkPext_eq rfl rfl rfl rfl rfl rfl rfl rfl) rfl rfl rfl rfl
      (fun _ => .gpr32 _ _ (fun h => by
        simp only [Instr.wf, Bool.and_eq_true] at h
        exact regWf_low h.1.1.2 (VexEnc.wf_ext h.1.1.1)) (by simp [Instr.row]))
  | pextR64 e dst src mask =>
    cases h64 : s.env.mode64 with
    | false =>
      exact .refused (by simp [Instr.wf, h64])
        (by simp [exec, execPextR64, h64, refuse, finish, bind, Except.bind, Stop.outcome])
    | true =>
    have he : exec (.pextR64 e dst src mask) s = finish e.len s (do
          checkPext e s
          let m ← loadRM 64 false e.prefixes e.len s.reg64 mask s
          return s.setReg64 dst (pext (s.reg64 src) m)) := by
      simp [exec, execPextR64, h64]
    exact .of_load he (checkPext_eq rfl rfl rfl rfl rfl rfl rfl rfl) rfl rfl rfl rfl
      (fun _ => .gpr64 _ _ h64 (by simp [Instr.row]))
  | pextrb e dst src imm =>
    exact .of_store32 rfl (checkSse_eq rfl rfl rfl rfl rfl) rfl rfl rfl
      (by simp [Instr.row])
      (fun n hn h => by
        simp only [Instr.wf, Bool.and_eq_true] at h
        exact LegEnc.wf_low h.1 n hn)
  | pextrd e dst src imm =>
    exact .of_store32 rfl (checkSse_eq rfl rfl rfl rfl rfl) rfl rfl rfl
      (by simp [Instr.row])
      (fun n hn h => by
        simp only [Instr.wf, Bool.and_eq_true] at h
        exact LegEnc.wf_low h.1.1 n hn)
  | pextrq e dst src imm =>
    cases h64 : s.env.mode64 with
    | false =>
      exact .refused (Bool.eq_false_iff.2 fun h => by
        simp only [Instr.wf, Bool.and_eq_true] at h
        simp [LegEnc.wf_noRex h.1.1 h64] at h)
        (by simp [exec, execPextrq, h64, refuse, finish, bind, Except.bind, Stop.outcome])
    | true =>
    have he : exec (.pextrq e dst src imm) s = finish e.len s (do
          checkSse .sse41 false e s
          storeRM64 e.prefixes e.len (elem 64 (s.xmm src) (sel 2 imm)) dst s) := by
      simp [exec, execPextrq, h64]
    exact .of_store64 he (checkSse_eq rfl rfl rfl rfl rfl) rfl rfl rfl
      (by simp [Instr.row]) h64
  | vpextrb e dst src imm =>
    exact .of_store32 rfl (checkVex_eq rfl rfl rfl rfl (by simp [Instr.row, Instr.memOp])) rfl rfl rfl
      (by simp [Instr.row])
      (fun n hn h => by
        simp only [Instr.wf, Bool.and_eq_true] at h
        exact VexEnc.wf_low h.1 n hn)
  | vpextrd e dst src imm =>
    exact .of_store32 rfl (checkVex_eq rfl rfl rfl rfl (by simp [Instr.row, Instr.memOp])) rfl rfl rfl
      (by simp [Instr.row])
      (fun n hn h => by
        simp only [Instr.wf, Bool.and_eq_true] at h
        exact VexEnc.wf_low h.1.1 n hn)
  | vpextrq e dst src imm =>
    cases h64 : s.env.mode64 with
    | true =>
      exact .of_store64 rfl (checkVex_eq rfl rfl rfl rfl (by simp [Instr.row, Instr.memOp])) rfl rfl rfl
        (by simp [Instr.row]) h64
    | false =>
      exact .of_ud rfl (checkVex_eq rfl rfl rfl rfl (by simp [Instr.row, Instr.memOp]))
        (by simp [udCond, Instr.row, Instr.enc, h64]) rfl (by simp [Instr.row])
  | pextrwMmx e dst src imm =>
    exact .of_reg rfl (checkMmx_eq rfl rfl rfl rfl rmIsMem_eq) rfl rfl rfl
      (.gprMmx _ _ (fun h => by
        simp only [Instr.wf, Bool.and_eq_true] at h
        exact regWf_low h.2 (fun hm => (LegEnc.wf_ext h.1 hm).1)) rfl)
  | pextrwXmm e dst src imm =>
    exact .of_reg rfl (checkSse_eq rfl rfl rfl rfl rmIsMem_eq) rfl rfl rfl
      (.gpr32 _ _ (fun h => by
        simp only [Instr.wf, Bool.and_eq_true] at h
        exact regWf_low h.2 (fun hm => (LegEnc.wf_ext h.1 hm).1)) (by simp [Instr.row]))
  | pextrwStore e dst src imm =>
    exact .of_store32 rfl (checkSse_eq rfl rfl rfl rfl rfl) rfl rfl rfl
      (by simp [Instr.row])
      (fun n hn h => by
        simp only [Instr.wf, Bool.and_eq_true] at h
        exact LegEnc.wf_low h.1 n hn)
  | vpextrw e dst src imm =>
    exact .of_reg rfl (checkVex_eq rfl rfl rfl rfl (by simp [Instr.row, Instr.memOp, rmIsMem_eq])) rfl rfl rfl
      (.gpr32 _ _ (fun h => by
        simp only [Instr.wf, Bool.and_eq_true] at h
        exact regWf_low h.2 (VexEnc.wf_ext h.1)) (by simp [Instr.row]))
  | vpextrwStore e dst src imm =>
    exact .of_store32 rfl (checkVex_eq rfl rfl rfl rfl (by simp [Instr.row, Instr.memOp])) rfl rfl rfl
      (by simp [Instr.row])
      (fun n hn h => by
        simp only [Instr.wf, Bool.and_eq_true] at h
        exact VexEnc.wf_low h.1 n hn)
  | phaddwMmx e dst src =>
    exact .of_load rfl (checkMmx_eq rfl rfl rfl rfl rfl) rfl rfl rfl rfl
      (fun _ => .mmx _ _ rfl)
  | phaddwXmm e dst src =>
    exact .of_load rfl (checkSse_eq rfl rfl rfl rfl rfl) rfl rfl rfl rfl
      (fun _ => .xmmKeep _ _ (fun h => by
        simp only [Instr.wf, Bool.and_eq_true] at h
        exact regWf_low h.2 (fun hm => (LegEnc.wf_ext h.1 hm).1)) rfl)
  | phadddMmx e dst src =>
    exact .of_load rfl (checkMmx_eq rfl rfl rfl rfl rfl) rfl rfl rfl rfl
      (fun _ => .mmx _ _ rfl)
  | phadddXmm e dst src =>
    exact .of_load rfl (checkSse_eq rfl rfl rfl rfl rfl) rfl rfl rfl rfl
      (fun _ => .xmmKeep _ _ (fun h => by
        simp only [Instr.wf, Bool.and_eq_true] at h
        exact regWf_low h.2 (fun hm => (LegEnc.wf_ext h.1 hm).1)) rfl)
  | vphaddwXmm e dst src1 src2 =>
    exact .of_load rfl (checkVex_eq rfl rfl rfl rfl (by simp [Instr.row, Instr.memOp])) rfl rfl rfl rfl
      (fun _ => .xmmZero _ _ (fun h => by
        simp only [Instr.wf, Bool.and_eq_true] at h
        exact regWf_low h.1.1.2 (VexEnc.wf_ext h.1.1.1)) rfl)
  | vphadddXmm e dst src1 src2 =>
    exact .of_load rfl (checkVex_eq rfl rfl rfl rfl (by simp [Instr.row, Instr.memOp])) rfl rfl rfl rfl
      (fun _ => .xmmZero _ _ (fun h => by
        simp only [Instr.wf, Bool.and_eq_true] at h
        exact regWf_low h.1.1.2 (VexEnc.wf_ext h.1.1.1)) rfl)
  | vphaddwYmm e dst src1 src2 =>
    exact .of_load rfl (checkVex_eq rfl rfl rfl rfl (by simp [Instr.row, Instr.memOp])) rfl rfl rfl rfl
      (fun _ => .ymm _ _ (fun h => by
        simp only [Instr.wf, Bool.and_eq_true] at h
        exact regWf_low h.1.1.2 (VexEnc.wf_ext h.1.1.1)) rfl rfl)
  | vphadddYmm e dst src1 src2 =>
    exact .of_load rfl (checkVex_eq rfl rfl rfl rfl (by simp [Instr.row, Instr.memOp])) rfl rfl rfl rfl
      (fun _ => .ymm _ _ (fun h => by
        simp only [Instr.wf, Bool.and_eq_true] at h
        exact regWf_low h.1.1.2 (VexEnc.wf_ext h.1.1.1)) rfl rfl)
  | phaddswMmx e dst src =>
    exact .of_load rfl (checkMmx_eq rfl rfl rfl rfl rfl) rfl rfl rfl rfl
      (fun _ => .mmx _ _ rfl)
  | phaddswXmm e dst src =>
    exact .of_load rfl (checkSse_eq rfl rfl rfl rfl rfl) rfl rfl rfl rfl
      (fun _ => .xmmKeep _ _ (fun h => by
        simp only [Instr.wf, Bool.and_eq_true] at h
        exact regWf_low h.2 (fun hm => (LegEnc.wf_ext h.1 hm).1)) rfl)
  | vphaddswXmm e dst src1 src2 =>
    exact .of_load rfl (checkVex_eq rfl rfl rfl rfl (by simp [Instr.row, Instr.memOp])) rfl rfl rfl rfl
      (fun _ => .xmmZero _ _ (fun h => by
        simp only [Instr.wf, Bool.and_eq_true] at h
        exact regWf_low h.1.1.2 (VexEnc.wf_ext h.1.1.1)) rfl)
  | vphaddswYmm e dst src1 src2 =>
    exact .of_load rfl (checkVex_eq rfl rfl rfl rfl (by simp [Instr.row, Instr.memOp])) rfl rfl rfl rfl
      (fun _ => .ymm _ _ (fun h => by
        simp only [Instr.wf, Bool.and_eq_true] at h
        exact regWf_low h.1.1.2 (VexEnc.wf_ext h.1.1.1)) rfl rfl)
  | phminposuw e dst src =>
    exact .of_load rfl (checkSse_eq rfl rfl rfl rfl rfl) rfl rfl rfl rfl
      (fun _ => .xmmKeep _ _ (fun h => by
        simp only [Instr.wf, Bool.and_eq_true] at h
        exact regWf_low h.2 (fun hm => (LegEnc.wf_ext h.1 hm).1)) rfl)
  | vphminposuw e dst src =>
    exact .of_load rfl (checkVex_eq rfl rfl rfl rfl (by simp [Instr.row, Instr.memOp])) rfl rfl rfl rfl
      (fun _ => .xmmZero _ _ (fun h => by
        simp only [Instr.wf, Bool.and_eq_true] at h
        exact regWf_low h.2 (VexEnc.wf_ext h.1)) rfl)
  | phsubwMmx e dst src =>
    exact .of_load rfl (checkMmx_eq rfl rfl rfl rfl rfl) rfl rfl rfl rfl
      (fun _ => .mmx _ _ rfl)
  | phsubwXmm e dst src =>
    exact .of_load rfl (checkSse_eq rfl rfl rfl rfl rfl) rfl rfl rfl rfl
      (fun _ => .xmmKeep _ _ (fun h => by
        simp only [Instr.wf, Bool.and_eq_true] at h
        exact regWf_low h.2 (fun hm => (LegEnc.wf_ext h.1 hm).1)) rfl)
  | phsubdMmx e dst src =>
    exact .of_load rfl (checkMmx_eq rfl rfl rfl rfl rfl) rfl rfl rfl rfl
      (fun _ => .mmx _ _ rfl)
  | phsubdXmm e dst src =>
    exact .of_load rfl (checkSse_eq rfl rfl rfl rfl rfl) rfl rfl rfl rfl
      (fun _ => .xmmKeep _ _ (fun h => by
        simp only [Instr.wf, Bool.and_eq_true] at h
        exact regWf_low h.2 (fun hm => (LegEnc.wf_ext h.1 hm).1)) rfl)
  | vphsubwXmm e dst src1 src2 =>
    exact .of_load rfl (checkVex_eq rfl rfl rfl rfl (by simp [Instr.row, Instr.memOp])) rfl rfl rfl rfl
      (fun _ => .xmmZero _ _ (fun h => by
        simp only [Instr.wf, Bool.and_eq_true] at h
        exact regWf_low h.1.1.2 (VexEnc.wf_ext h.1.1.1)) rfl)
  | vphsubdXmm e dst src1 src2 =>
    exact .of_load rfl (checkVex_eq rfl rfl rfl rfl (by simp [Instr.row, Instr.memOp])) rfl rfl rfl rfl
      (fun _ => .xmmZero _ _ (fun h => by
        simp only [Instr.wf, Bool.and_eq_true] at h
        exact regWf_low h.1.1.2 (VexEnc.wf_ext h.1.1.1)) rfl)
  | vphsubwYmm e dst src1 src2 =>
    exact .of_load rfl (checkVex_eq rfl rfl rfl rfl (by simp [Instr.row, Instr.memOp])) rfl rfl rfl rfl
      (fun _ => .ymm _ _ (fun h => by
        simp only [Instr.wf, Bool.and_eq_true] at h
        exact regWf_low h.1.1.2 (VexEnc.wf_ext h.1.1.1)) rfl rfl)
  | vphsubdYmm e dst src1 src2 =>
    exact .of_load rfl (checkVex_eq rfl rfl rfl rfl (by simp [Instr.row, Instr.memOp])) rfl rfl rfl rfl
      (fun _ => .ymm _ _ (fun h => by
        simp only [Instr.wf, Bool.and_eq_true] at h
        exact regWf_low h.1.1.2 (VexEnc.wf_ext h.1.1.1)) rfl rfl)
  | phsubswMmx e dst src =>
    exact .of_load rfl (checkMmx_eq rfl rfl rfl rfl rfl) rfl rfl rfl rfl
      (fun _ => .mmx _ _ rfl)
  | phsubswXmm e dst src =>
    exact .of_load rfl (checkSse_eq rfl rfl rfl rfl rfl) rfl rfl rfl rfl
      (fun _ => .xmmKeep _ _ (fun h => by
        simp only [Instr.wf, Bool.and_eq_true] at h
        exact regWf_low h.2 (fun hm => (LegEnc.wf_ext h.1 hm).1)) rfl)
  | vphsubswXmm e dst src1 src2 =>
    exact .of_load rfl (checkVex_eq rfl rfl rfl rfl (by simp [Instr.row, Instr.memOp])) rfl rfl rfl rfl
      (fun _ => .xmmZero _ _ (fun h => by
        simp only [Instr.wf, Bool.and_eq_true] at h
        exact regWf_low h.1.1.2 (VexEnc.wf_ext h.1.1.1)) rfl)
  | vphsubswYmm e dst src1 src2 =>
    exact .of_load rfl (checkVex_eq rfl rfl rfl rfl (by simp [Instr.row, Instr.memOp])) rfl rfl rfl rfl
      (fun _ => .ymm _ _ (fun h => by
        simp only [Instr.wf, Bool.and_eq_true] at h
        exact regWf_low h.1.1.2 (VexEnc.wf_ext h.1.1.1)) rfl rfl)
  | pinsrb e dst src imm =>
    exact .of_load rfl (checkSse_eq rfl rfl rfl rfl rfl) rfl rfl rfl rfl
      (fun _ => .xmmKeep _ _ (fun h => by
        simp only [Instr.wf, Bool.and_eq_true] at h
        exact regWf_low h.2 (fun hm => (LegEnc.wf_ext h.1 hm).1)) rfl)
  | pinsrd e dst src imm =>
    exact .of_load rfl (checkSse_eq rfl rfl rfl rfl rfl) rfl rfl rfl rfl
      (fun _ => .xmmKeep _ _ (fun h => by
        simp only [Instr.wf, Bool.and_eq_true] at h
        exact regWf_low h.1.2 (fun hm => (LegEnc.wf_ext h.1.1 hm).1)) rfl)
  | pinsrq e dst src imm =>
    cases h64 : s.env.mode64 with
    | false =>
      exact .refused (Bool.eq_false_iff.2 fun h => by
        simp only [Instr.wf, Bool.and_eq_true] at h
        simp [LegEnc.wf_noRex h.1.1 h64] at h)
        (by simp [exec, execPinsrq, h64, refuse, finish, bind, Except.bind, Stop.outcome])
    | true =>
    have he : exec (.pinsrq e dst src imm) s = finish e.len s (do
          checkSse .sse41 false e s
          let t ← loadRM 64 false e.prefixes e.len s.reg64 src s
          return insertKeep s dst (sel 2 imm) t) := by
      simp [exec, execPinsrq, h64]
    exact .of_load he (checkSse_eq rfl rfl rfl rfl rfl) rfl rfl rfl rfl
      (fun _ => .xmmKeep _ _ (fun h => by
        simp only [Instr.wf, Bool.and_eq_true] at h
        exact regWf_low h.1.2 (fun hm => (LegEnc.wf_ext h.1.1 hm).1)) rfl)
  | vpinsrb e dst src1 src2 imm =>
    exact .of_load rfl (checkVex_eq rfl rfl rfl rfl (by simp [Instr.row, Instr.memOp])) rfl rfl rfl rfl
      (fun _ => .xmmZero _ _ (fun h => by
        simp only [Instr.wf, Bool.and_eq_true] at h
        exact regWf_low h.1.2 (VexEnc.wf_ext h.1.1)) rfl)
  | vpinsrd e dst src1 src2 imm =>
    exact .of_load rfl (checkVex_eq rfl rfl rfl rfl (by simp [Instr.row, Instr.memOp])) rfl rfl rfl rfl
      (fun _ => .xmmZero _ _ (fun h => by
        simp only [Instr.wf, Bool.and_eq_true] at h
        exact regWf_low h.1.1.2 (VexEnc.wf_ext h.1.1.1)) rfl)
  | vpinsrq e dst src1 src2 imm =>
    exact .of_load rfl (checkVex_eq rfl rfl rfl rfl (by simp [Instr.row, Instr.memOp])) rfl rfl rfl rfl
      (fun _ => .xmmZero _ _ (fun h => by
        simp only [Instr.wf, Bool.and_eq_true] at h
        exact regWf_low h.1.1.2 (VexEnc.wf_ext h.1.1.1)) rfl)
  | pinsrwMmx e dst src imm =>
    exact .of_load rfl (checkMmx_eq rfl rfl rfl rfl rfl) rfl rfl rfl rfl
      (fun _ => .mmx _ _ rfl)
  | pinsrwXmm e dst src imm =>
    exact .of_load rfl (checkSse_eq rfl rfl rfl rfl rfl) rfl rfl rfl rfl
      (fun _ => .xmmKeep _ _ (fun h => by
        simp only [Instr.wf, Bool.and_eq_true] at h
        exact regWf_low h.2 (fun hm => (LegEnc.wf_ext h.1 hm).1)) rfl)
  | vpinsrw e dst src1 src2 imm =>
    exact .of_load rfl (checkVex_eq rfl rfl rfl rfl (by simp [Instr.row, Instr.memOp])) rfl rfl rfl rfl
      (fun _ => .xmmZero _ _ (fun h => by
        simp only [Instr.wf, Bool.and_eq_true] at h
        exact regWf_low h.1.2 (VexEnc.wf_ext h.1.1)) rfl)
  | pmaddubswMmx e dst src =>
    exact .of_load rfl (checkMmx_eq rfl rfl rfl rfl rfl) rfl rfl rfl rfl
      (fun _ => .mmx _ _ rfl)
  | pmaddubswXmm e dst src =>
    exact .of_load rfl (checkSse_eq rfl rfl rfl rfl rfl) rfl rfl rfl rfl
      (fun _ => .xmmKeep _ _ (fun h => by
        simp only [Instr.wf, Bool.and_eq_true] at h
        exact regWf_low h.2 (fun hm => (LegEnc.wf_ext h.1 hm).1)) rfl)
  | vpmaddubswXmm e dst src1 src2 =>
    exact .of_load rfl (checkVex_eq rfl rfl rfl rfl (by simp [Instr.row, Instr.memOp])) rfl rfl rfl rfl
      (fun _ => .xmmZero _ _ (fun h => by
        simp only [Instr.wf, Bool.and_eq_true] at h
        exact regWf_low h.1.1.2 (VexEnc.wf_ext h.1.1.1)) rfl)
  | vpmaddubswYmm e dst src1 src2 =>
    exact .of_load rfl (checkVex_eq rfl rfl rfl rfl (by simp [Instr.row, Instr.memOp])) rfl rfl rfl rfl
      (fun _ => .ymm _ _ (fun h => by
        simp only [Instr.wf, Bool.and_eq_true] at h
        exact regWf_low h.1.1.2 (VexEnc.wf_ext h.1.1.1)) rfl rfl)
  | pmaddwdMmx e dst src =>
    exact .of_load rfl (checkMmx_eq rfl rfl rfl rfl rfl) rfl rfl rfl rfl
      (fun _ => .mmx _ _ rfl)
  | pmaddwdXmm e dst src =>
    exact .of_load rfl (checkSse_eq rfl rfl rfl rfl rfl) rfl rfl rfl rfl
      (fun _ => .xmmKeep _ _ (fun h => by
        simp only [Instr.wf, Bool.and_eq_true] at h
        exact regWf_low h.2 (fun hm => (LegEnc.wf_ext h.1 hm).1)) rfl)
  | vpmaddwdXmm e dst src1 src2 =>
    exact .of_load rfl (checkVex_eq rfl rfl rfl rfl (by simp [Instr.row, Instr.memOp])) rfl rfl rfl rfl
      (fun _ => .xmmZero _ _ (fun h => by
        simp only [Instr.wf, Bool.and_eq_true] at h
        exact regWf_low h.1.1.2 (VexEnc.wf_ext h.1.1.1)) rfl)
  | vpmaddwdYmm e dst src1 src2 =>
    exact .of_load rfl (checkVex_eq rfl rfl rfl rfl (by simp [Instr.row, Instr.memOp])) rfl rfl rfl rfl
      (fun _ => .ymm _ _ (fun h => by
        simp only [Instr.wf, Bool.and_eq_true] at h
        exact regWf_low h.1.1.2 (VexEnc.wf_ext h.1.1.1)) rfl rfl)

/-- Where an instruction answers a next state: its checks passed, and the state is one write to a register, or one store,
with `rip` advanced. -/
theorem exec_next {i : Instr} {s t : State} (h : exec i s = .next t) :
    passesChecks i s = true ∧ ∃ u, t = u.setRip (s.nextRip i.len) ∧
      (RegWrite i s u ∨ ∃ (o : MemOp) (w : Nat) (v : BitVec w), i.memOp = some o ∧ i.row.store = true ∧
        w = 8 * i.row.bytes ∧
        s.memWrite (operandSeg s.env.mode64 i.prefixes o) (s.offset i.prefixes i.len o) v = .ok u) := by
  have first : ∀ {r : Res State} {u : State}, (do preChecks i s; r) = .ok u → passesChecks i s = true ∧ r = .ok u := by
    intro r u hr
    cases hp : preChecks i s with
    | error e => simp [hp, bind, Except.bind] at hr
    | ok x => exact ⟨preChecks_eq_ok.1 hp, by simpa [hp, bind, Except.bind] using hr⟩
  cases exec_shape i s with
  | refused hf he => simp [he] at h
  | plain t' hm hw he =>
    obtain ⟨u, hu, rfl⟩ := finish_eq_next.1 (he ▸ h)
    obtain ⟨hp, hu⟩ := first hu
    cases hu
    exact ⟨hp, _, rfl, .inl hw⟩
  | load o w f hm hs hn hw he =>
    obtain ⟨u, hu, rfl⟩ := finish_eq_next.1 (he ▸ h)
    obtain ⟨hp, hu⟩ := first hu
    cases hr : s.memRead w (mustAlign16 i s) (operandSeg s.env.mode64 i.prefixes o) (s.offset i.prefixes i.len o) with
    | error e => simp [hr, bind, Except.bind] at hu
    | ok b =>
      simp only [hr, bind, Except.bind] at hu
      cases hu
      exact ⟨hp, _, rfl, .inl (hw b)⟩
  | store o w v hm hs hn he =>
    obtain ⟨u, hu, rfl⟩ := finish_eq_next.1 (he ▸ h)
    obtain ⟨hp, hu⟩ := first hu
    exact ⟨hp, u, rfl, .inr ⟨o, w, v, hm, hs, hn, hu⟩⟩

end Sys2Proof.Machine
end

