-- ==== Sys2Proof/Tests/Slice0.lean ====
section
/-! SUPPORT. The package's own tests: an ill-formed term for each check of WellFormed; a word for every constructor, written
out from 30_encoding.md R50 to R73 (with its vector of 95_test_vectors.md where there is one); the vectors of
95_test_vectors.md; and for every statement with hypotheses a state and operands that meet them. -/

namespace Sys2Proof.Tests

-- One theorem after another: each waits for the kernel, and many at once would each hold a thread.
set_option Elab.async false

open Sys2Proof.Machine

/-! ## Helpers -/

/-- Bytes at consecutive addresses. -/
def cells (a : Nat) : List Byte → Memory
  | [] => []
  | b :: bs => (a, b) :: cells (a + 1) bs

/-- A legacy encoding with these prefixes and no REX. -/
def leg (ps : List Prefix) (len : Nat) : LegEnc := ⟨ps, none, len⟩

/-- A three-byte VEX encoding without prefixes: the bits R, X, B, W, the field vvvv (not inverted) and L. -/
def vex (r x b w : Bool) (vvvv : BitVec 4) (l : Bool) (len : Nat) : VexEnc := ⟨[], none, false, r, x, b, w, vvvv, l, len⟩

/-- A VEX encoding with all these bits clear. -/
def vex0 (vvvv : BitVec 4) (len : Nat) : VexEnc := vex false false false false vvvv false len

/-- The memory operand [reg]. -/
def at' (n : BitVec 4) : MemOp := .base n .none

/-- A launch state of the mode with code at 1000H, where rip is, and bytes at 2000H. -/
def launch (m : Bool) (code data : List Byte) : State :=
  { State.reset with
    rip := 0x1000#64
    mem := cells 0x1000 code ++ cells 0x2000 data
    env := { Env.reset with mode64 := m } }

/-- `s` with a general register set. -/
def gp (s : State) (n : Fin 16) (v : Word) : State := { s with gpr := s.gpr.set n v }

/-- `s` with a vector register set. -/
def yr (s : State) (n : Fin 16) (v : BitVec 256) : State := { s with ymm := s.ymm.set n v }

/-- `s` with an x87 register set. -/
def xr (s : State) (n : Fin 8) (v : BitVec 80) : State := { s with x87 := s.x87.set n v }

/-- `s` with its parameters changed. -/
def env (s : State) (f : Env → Env) : State := { s with env := f s.env }

/-- The outcome is a next state with the property. -/
def nextIs (o : Host.Outcome State Fault Refusal) (p : State → Bool) : Bool :=
  match o with
  | .next t => p t
  | _ => false

/-- The outcome is the fault. -/
def faultIs (o : Host.Outcome State Fault Refusal) (f : Fault) : Bool :=
  match o with
  | .fault g => g == f
  | _ => false

/-- The outcome is the refusal. -/
def refusalIs (o : Host.Outcome State Fault Refusal) (r : Refusal) : Bool :=
  match o with
  | .refused q => q == r
  | _ => false

/-- The step raises the exception with vector, error code and CR2, at the rip of the state. -/
def faults (s : State) (vector : Nat) (code : Option (BitVec 32)) (cr2 : Option Word) : Bool :=
  faultIs (step s) (.exception ⟨vector, code, cr2, s.rip⟩)

/-- A part of a step answers a value. -/
def isOk {α : Type} : Res α → Bool
  | .ok _ => true
  | .error _ => false

/-- A part of a step answers this value. -/
def okIs {w : Nat} (r : Res (BitVec w)) (v : BitVec w) : Bool :=
  match r with
  | .ok u => u == v
  | .error _ => false

theorem next_of {o : Host.Outcome State Fault Refusal} (h : nextIs o (fun _ => true) = true) : ∃ t, o = .next t := by
  cases o <;> simp [nextIs] at h ⊢

theorem fault_of {o : Host.Outcome State Fault Refusal} {f : Fault} (h : faultIs o f = true) : o = .fault f := by
  cases o <;> simp_all [faultIs]

/-- A source operand that the model reads. -/
theorem source_of {k w : Nat} {al : Bool} {ps : List Prefix} {len : Nat} {reg : BitVec k → BitVec w} {o : RM k}
    {v : BitVec w} {s : State} (hw : w % 8 = 0) (h : okIs (loadRM w al ps len reg o s) v = true) :
    sourceIs al ps len reg o v s := by
  refine (loadRM_eq_ok hw).1 ?_
  cases hr : loadRM w al ps len reg o s <;> simp_all [okIs]

/-- A destination operand that the model stores to. -/
theorem ready_of {w : Nat} {s : State} {g : Seg} {off : Word} (v : BitVec w) (h : isOk (s.memWrite g off v) = true) :
    accepts .write false (w / 8) g off s ∧ storable (w / 8) g off s := by
  cases hr : s.memWrite g off v with
  | error e => simp [hr, isOk] at h
  | ok t => exact ⟨(memWrite_eq_ok.1 hr).1, (memWrite_eq_ok.1 hr).2.1⟩


/-! ## WellFormed refuses -/

/-- An ignored REX byte in 32-bit mode (R54). -/
theorem test_ill_rex_ignored_32 : (.phaddwMmx (leg [.rexIgnored ⟨true, false, false, false⟩, .addrSize] 6) 0#3 (.reg 1#3) : Instr).wf false = false := by decide

/-- An ignored REX byte with no legacy prefix after it (R54). -/
theorem test_ill_rex_ignored_last : (.phaddwMmx (leg [.rexIgnored ⟨true, false, false, false⟩] 5) 0#3 (.reg 1#3) : Instr).wf true = false := by decide

/-- An ignored REX byte directly before another (R54). -/
theorem test_ill_rex_ignored_twice : (.phaddwMmx (leg [.rexIgnored ⟨true, false, false, false⟩, .rexIgnored ⟨true, false, false, false⟩, .lock] 7) 0#3 (.reg 1#3) : Instr).wf true = false := by decide

/-- A REX prefix in 32-bit mode (R54). -/
theorem test_ill_rex_32 : (.phaddwMmx ⟨[], some ⟨false, false, false, false⟩, 5⟩ 0#3 (.reg 1#3) : Instr).wf false = false := by decide

/-- F3 on a legacy form (R53, U8). -/
theorem test_ill_rep : (.phaddwMmx (leg [.rep] 5) 0#3 (.reg 1#3) : Instr).wf true = false := by decide

/-- F2 on a legacy form (R53, U8). -/
theorem test_ill_repne : (.phaddwXmm (leg [.repne, .opSize] 6) 0#4 (.reg 1#4) : Instr).wf true = false := by decide

/-- An SSE form without 66 (R53). -/
theorem test_ill_no_66 : (.phaddwXmm (leg [] 4) 0#4 (.reg 1#4) : Instr).wf true = false := by decide

/-- An MMX form with 66 (R53). -/
theorem test_ill_with_66 : (.phaddwMmx (leg [.opSize] 5) 0#3 (.reg 1#3) : Instr).wf true = false := by decide

/-- A legacy length that is not the number of bytes (R50). -/
theorem test_ill_legacy_len : (.phaddwXmm (leg [.opSize] 6) 0#4 (.reg 1#4) : Instr).wf true = false := by decide

/-- A legacy form of sixteen bytes (R51). -/
theorem test_ill_legacy_long : (.phaddwXmm ⟨List.replicate 12 .opSize, none, 16⟩ 0#4 (.reg 1#4) : Instr).wf true = false := by decide

/-- Register 8 in ModRM.reg without REX.R (R64). -/
theorem test_ill_legacy_reg : (.phaddwXmm (leg [.opSize] 5) 8#4 (.reg 1#4) : Instr).wf true = false := by decide

/-- Register 9 in ModRM.rm without REX.B (R64). -/
theorem test_ill_legacy_rm : (.phaddwXmm (leg [.opSize] 5) 0#4 (.reg 9#4) : Instr).wf true = false := by decide

/-- Base register 8 without REX.B (R64). -/
theorem test_ill_base_ext : (.phaddwXmm (leg [.opSize] 5) 0#4 (.mem (at' 8#4)) : Instr).wf true = false := by decide

/-- ModRM.rm = 100B means a SIB byte, not a base (R63). -/
theorem test_ill_base_needs_sib : (.phaddwXmm (leg [.opSize] 5) 0#4 (.mem (at' 4#4)) : Instr).wf true = false := by decide

/-- mod = 00B with rm = 101B has no base (R63). -/
theorem test_ill_base_5_no_disp : (.phaddwXmm (leg [.opSize] 5) 0#4 (.mem (at' 5#4)) : Instr).wf true = false := by decide

/-- A 32-bit base under 16-bit addressing (R66). -/
theorem test_ill_base_16 : (.phaddwXmm (leg [.opSize, .addrSize] 6) 0#4 (.mem (at' 0#4)) : Instr).wf false = false := by decide

/-- mod = 00B with SIB base 101B has no base (R63). -/
theorem test_ill_sib_base_5_no_disp : (.phaddwXmm (leg [.opSize] 6) 0#4 (.mem (.sib 5#4 1#4 0#2 .none)) : Instr).wf true = false := by decide

/-- Index register 9 without REX.X (R64). -/
theorem test_ill_sib_index_ext : (.phaddwXmm (leg [.opSize] 6) 0#4 (.mem (.sib 0#4 9#4 0#2 .none)) : Instr).wf true = false := by decide

/-- A SIB byte under 16-bit addressing (R66). -/
theorem test_ill_sib_16 : (.phaddwXmm (leg [.opSize, .addrSize] 7) 0#4 (.mem (.sib 0#4 1#4 0#2 .none)) : Instr).wf false = false := by decide

/-- Index register 9 without REX.X and without a base (R64). -/
theorem test_ill_sib_abs_index_ext : (.phaddwXmm (leg [.opSize] 10) 0#4 (.mem (.sibAbs 9#4 0#2 0#32)) : Instr).wf true = false := by decide

/-- A 32-bit displacement alone under 16-bit addressing (R66). -/
theorem test_ill_abs_16 : (.phaddwXmm (leg [.opSize, .addrSize] 10) 0#4 (.mem (.abs 0#32)) : Instr).wf false = false := by decide

/-- A 16-bit form under 32-bit addressing (R66). -/
theorem test_ill_m16_32 : (.phaddwXmm (leg [.opSize] 5) 0#4 (.mem (.m16 0#3 .none)) : Instr).wf false = false := by decide

/-- A 16-bit form in 64-bit mode (R66). -/
theorem test_ill_m16_64 : (.phaddwXmm (leg [.opSize, .addrSize] 6) 0#4 (.mem (.m16 0#3 .none)) : Instr).wf true = false := by decide

/-- 16-bit mod = 00B with rm = 110B has no base (R70). -/
theorem test_ill_m16_6_no_disp : (.phaddwXmm (leg [.opSize, .addrSize] 6) 0#4 (.mem (.m16 6#3 .none)) : Instr).wf false = false := by decide

/-- A 16-bit displacement alone in 64-bit mode (R66). -/
theorem test_ill_m16abs_64 : (.phaddwXmm (leg [.opSize, .addrSize] 8) 0#4 (.mem (.m16abs 0#16)) : Instr).wf true = false := by decide

/-- REX before VEX in 32-bit mode (R54). -/
theorem test_ill_vex_rex_32 : (.vphaddwXmm ⟨[], some ⟨false, false, false, false⟩, false, false, false, false, false, 0#4, false, 6⟩ 0#4 0#4 (.reg 1#4) : Instr).wf false = false := by decide

/-- The two-byte VEX prefix with map 0F38 (R57). -/
theorem test_ill_vex_two_map : (.vphaddwXmm ⟨[], none, true, false, false, false, false, 0#4, false, 4⟩ 0#4 0#4 (.reg 1#4) : Instr).wf true = false := by decide

/-- The two-byte VEX prefix with X = 1 (R57). -/
theorem test_ill_vex_two_x : (.vpmaddwdXmm ⟨[], none, true, false, true, false, false, 0#4, false, 4⟩ 0#4 0#4 (.reg 1#4) : Instr).wf true = false := by decide

/-- The two-byte VEX prefix with B = 1 (R57). -/
theorem test_ill_vex_two_b : (.vpmaddwdXmm ⟨[], none, true, false, false, true, false, 0#4, false, 4⟩ 0#4 0#4 (.reg 9#4) : Instr).wf true = false := by decide

/-- The two-byte VEX prefix with W = 1 (R57). -/
theorem test_ill_vex_two_w : (.vpmaddwdXmm ⟨[], none, true, false, false, false, true, 0#4, false, 4⟩ 0#4 0#4 (.reg 1#4) : Instr).wf true = false := by decide

/-- VEX.R = 1 in 32-bit mode (R58). -/
theorem test_ill_vex_r_32 : (.vphaddwXmm (vex true false false false 0#4 false 5) 8#4 0#4 (.reg 1#4) : Instr).wf false = false := by decide

/-- VEX.X = 1 in 32-bit mode (R58). -/
theorem test_ill_vex_x_32 : (.vphaddwXmm (vex false true false false 0#4 false 5) 0#4 0#4 (.reg 1#4) : Instr).wf false = false := by decide

/-- vvvv bit 3 in the two-byte prefix in 32-bit mode (R58). -/
theorem test_ill_vex_two_vvvv_32 : (.vpmaddwdXmm ⟨[], none, true, false, false, false, false, 8#4, false, 4⟩ 0#4 0#4 (.reg 1#4) : Instr).wf false = false := by decide

/-- Register 8 in ModRM.reg without VEX.R (R64). -/
theorem test_ill_vex_reg : (.vphaddwXmm (vex0 0#4 5) 8#4 0#4 (.reg 1#4) : Instr).wf true = false := by decide

/-- Register 9 in ModRM.rm without VEX.B (R64). -/
theorem test_ill_vex_rm : (.vphaddwXmm (vex0 0#4 5) 0#4 0#4 (.reg 9#4) : Instr).wf true = false := by decide

/-- Register 9 in 32-bit mode, where VEX.B is ignored (R58). -/
theorem test_ill_vex_rm_32 : (.vphaddwXmm (vex false false true false 0#4 false 5) 0#4 0#4 (.reg 9#4) : Instr).wf false = false := by decide

/-- A first source that is not the one in vvvv (R56). -/
theorem test_ill_vex_src1 : (.vphaddwXmm (vex0 3#4 5) 0#4 2#4 (.reg 1#4) : Instr).wf true = false := by decide

/-- A VEX length that is not the number of bytes (R50). -/
theorem test_ill_vex_len : (.vphaddwXmm (vex0 0#4 6) 0#4 0#4 (.reg 1#4) : Instr).wf true = false := by decide

/-- A VEX form of sixteen bytes (R51). -/
theorem test_ill_vex_long : (.vphaddwXmm ⟨List.replicate 11 (.seg .ds), none, false, false, false, false, false, 0#4, false, 16⟩ 0#4 0#4 (.reg 1#4) : Instr).wf true = false := by decide

/-- A 256-bit row with VEX.L = 0 (R71). -/
theorem test_ill_row_l : (.vphaddwYmm (vex0 0#4 5) 0#4 0#4 (.reg 1#4) : Instr).wf true = false := by decide

/-- A 128-bit row with VEX.L = 1 (R71). -/
theorem test_ill_row_l1 : (.vphaddwXmm (vex false false false false 0#4 true 5) 0#4 0#4 (.reg 1#4) : Instr).wf true = false := by decide

/-- PEXT r32 with VEX.W = 1 in 64-bit mode (R60). -/
theorem test_ill_row_w_pext : (.pextR32 (vex false false false true 0#4 false 5) 0#4 0#4 (.reg 1#4) : Instr).wf true = false := by decide

/-- PEXT r64 in 32-bit mode (D12). -/
theorem test_ill_row_w_pext64 : (.pextR64 (vex false false false true 0#4 false 5) 0#4 0#4 (.reg 1#4) : Instr).wf false = false := by decide

/-- PEXTRQ without REX.W (R54). -/
theorem test_ill_row_w_pextrq : (.pextrq (leg [.opSize] 6) (.reg 0#4) 1#4 0#8 : Instr).wf true = false := by decide

/-- PEXTRD with REX.W = 1 (R54). -/
theorem test_ill_row_w_pextrd : (.pextrd ⟨[.opSize], some ⟨true, false, false, false⟩, 7⟩ (.reg 0#4) 1#4 0#8 : Instr).wf true = false := by decide

/-- VPINSRQ with VEX.W = 0 (R60). -/
theorem test_ill_row_w_vpinsrq : (.vpinsrq (vex0 0#4 6) 0#4 0#4 (.reg 1#4) 0#8 : Instr).wf true = false := by decide

/-- VPEXTRD with VEX.W = 1 (R60). -/
theorem test_ill_row_w_vpextrd : (.vpextrd (vex false false false true 0#4 false 6) (.reg 0#4) 1#4 0#8 : Instr).wf true = false := by decide

/-! ## Decoding: one word for every form -/

/-- T95: PEXT eax, edx, [ebx]. -/
theorem test_decode_pextR32 : decode false [0xC4#8, 0xE2#8, 0x6A#8, 0xF5#8, 0x03#8] =
    .ok (.pextR32 (vex0 2#4 5) 0#4 2#4 (.mem (at' 3#4))) [] := by decide

/-- T94: PEXT rax, rbx, [rsi]. -/
theorem test_decode_pextR64 : decode true [0xC4#8, 0xE2#8, 0xE2#8, 0xF5#8, 0x06#8] =
    .ok (.pextR64 (vex false false false true 3#4 false 5) 0#4 3#4 (.mem (at' 6#4))) [] := by decide

/-- P4: PEXTRB [ebx], xmm1, 15. -/
theorem test_decode_pextrb : decode false [0x66#8, 0x0F#8, 0x3A#8, 0x14#8, 0x0B#8, 0x0F#8] =
    .ok (.pextrb (leg [.opSize] 6) (.mem (at' 3#4)) 1#4 0x0F#8) [] := by decide

/-- T83: PEXTRD eax, xmm1, 1. -/
theorem test_decode_pextrd : decode true [0x66#8, 0x0F#8, 0x3A#8, 0x16#8, 0xC8#8, 0x01#8] =
    .ok (.pextrd (leg [.opSize] 6) (.reg 0#4) 1#4 0x01#8) [] := by decide

/-- T82: PEXTRQ rax, xmm1, 1. -/
theorem test_decode_pextrq : decode true [0x66#8, 0x48#8, 0x0F#8, 0x3A#8, 0x16#8, 0xC8#8, 0x01#8] =
    .ok (.pextrq ⟨[.opSize], some ⟨true, false, false, false⟩, 7⟩ (.reg 0#4) 1#4 0x01#8) [] := by decide

/-- VPEXTRB eax, xmm1, 5: map 0F3A, vvvv 1111B, pp 01B. -/
theorem test_decode_vpextrb : decode true [0xC4#8, 0xE3#8, 0x79#8, 0x14#8, 0xC8#8, 0x05#8] =
    .ok (.vpextrb (vex0 0#4 6) (.reg 0#4) 1#4 0x05#8) [] := by decide

/-- VPEXTRD eax, xmm1, 2. -/
theorem test_decode_vpextrd : decode true [0xC4#8, 0xE3#8, 0x79#8, 0x16#8, 0xC8#8, 0x02#8] =
    .ok (.vpextrd (vex0 0#4 6) (.reg 0#4) 1#4 0x02#8) [] := by decide

/-- T102: VPEXTRQ [r8], xmm15, 0. -/
theorem test_decode_vpextrq : decode true [0xC4#8, 0x43#8, 0xF9#8, 0x16#8, 0x38#8, 0x00#8] =
    .ok (.vpextrq (vex true false true true 0#4 false 6) (.mem (at' 8#4)) 15#4 0x00#8) [] := by decide

/-- P2: PEXTRW edx, mm0, 0. -/
theorem test_decode_pextrwMmx : decode false [0x0F#8, 0xC5#8, 0xD0#8, 0x00#8] =
    .ok (.pextrwMmx (leg [] 4) 2#4 (.reg 0#3) 0x00#8) [] := by decide

/-- PEXTRW eax, xmm3, 5. -/
theorem test_decode_pextrwXmm : decode true [0x66#8, 0x0F#8, 0xC5#8, 0xC3#8, 0x05#8] =
    .ok (.pextrwXmm (leg [.opSize] 5) 0#4 (.reg 3#4) 0x05#8) [] := by decide

/-- PEXTRW [rbx], xmm1, 7. -/
theorem test_decode_pextrwStore : decode true [0x66#8, 0x0F#8, 0x3A#8, 0x15#8, 0x0B#8, 0x07#8] =
    .ok (.pextrwStore (leg [.opSize] 6) (.mem (at' 3#4)) 1#4 0x07#8) [] := by decide

/-- T99: VPEXTRW eax, xmm3, 1, three-byte VEX. -/
theorem test_decode_vpextrw : decode true [0xC4#8, 0xE1#8, 0x79#8, 0xC5#8, 0xC3#8, 0x01#8] =
    .ok (.vpextrw (vex0 0#4 6) 0#4 (.reg 3#4) 0x01#8) [] := by decide

/-- VPEXTRW [rbx], xmm1, 7. -/
theorem test_decode_vpextrwStore : decode true [0xC4#8, 0xE3#8, 0x79#8, 0x15#8, 0x0B#8, 0x07#8] =
    .ok (.vpextrwStore (vex0 0#4 6) (.mem (at' 3#4)) 1#4 0x07#8) [] := by decide

/-- PHADDW mm1, mm2. -/
theorem test_decode_phaddwMmx : decode true [0x0F#8, 0x38#8, 0x01#8, 0xCA#8] =
    .ok (.phaddwMmx (leg [] 4) 1#3 (.reg 2#3)) [] := by decide

/-- T97: PHADDW xmm0, [eax]. -/
theorem test_decode_phaddwXmm : decode false [0x66#8, 0x0F#8, 0x38#8, 0x01#8, 0x00#8] =
    .ok (.phaddwXmm (leg [.opSize] 5) 0#4 (.mem (at' 0#4))) [] := by decide

/-- P2: PHADDD mm0, mm0. -/
theorem test_decode_phadddMmx : decode false [0x0F#8, 0x38#8, 0x02#8, 0xC0#8] =
    .ok (.phadddMmx (leg [] 4) 0#3 (.reg 0#3)) [] := by decide

/-- PHADDD xmm1, xmm2. -/
theorem test_decode_phadddXmm : decode true [0x66#8, 0x0F#8, 0x38#8, 0x02#8, 0xCA#8] =
    .ok (.phadddXmm (leg [.opSize] 5) 1#4 (.reg 2#4)) [] := by decide

/-- T120: VPHADDW xmm0, xmm0, xmm1. -/
theorem test_decode_vphaddwXmm : decode true [0xC4#8, 0xE2#8, 0x79#8, 0x01#8, 0xC1#8] =
    .ok (.vphaddwXmm (vex0 0#4 5) 0#4 0#4 (.reg 1#4)) [] := by decide

/-- VPHADDD xmm2, xmm2, xmm0. -/
theorem test_decode_vphadddXmm : decode true [0xC4#8, 0xE2#8, 0x69#8, 0x02#8, 0xD0#8] =
    .ok (.vphadddXmm (vex0 2#4 5) 2#4 2#4 (.reg 0#4)) [] := by decide

/-- VPHADDW ymm2, ymm1, ymm0. -/
theorem test_decode_vphaddwYmm : decode true [0xC4#8, 0xE2#8, 0x75#8, 0x01#8, 0xD0#8] =
    .ok (.vphaddwYmm (vex false false false false 1#4 true 5) 2#4 1#4 (.reg 0#4)) [] := by decide

/-- T103: VPHADDD ymm0, ymm1, [eax]. -/
theorem test_decode_vphadddYmm : decode false [0xC4#8, 0xE2#8, 0x75#8, 0x02#8, 0x00#8] =
    .ok (.vphadddYmm (vex false false false false 1#4 true 5) 0#4 1#4 (.mem (at' 0#4))) [] := by decide

/-- PHADDSW mm1, mm2. -/
theorem test_decode_phaddswMmx : decode true [0x0F#8, 0x38#8, 0x03#8, 0xCA#8] =
    .ok (.phaddswMmx (leg [] 4) 1#3 (.reg 2#3)) [] := by decide

/-- PHADDSW xmm1, xmm2. -/
theorem test_decode_phaddswXmm : decode true [0x66#8, 0x0F#8, 0x38#8, 0x03#8, 0xCA#8] =
    .ok (.phaddswXmm (leg [.opSize] 5) 1#4 (.reg 2#4)) [] := by decide

/-- P3: VPHADDSW xmm2, xmm2, xmm0. -/
theorem test_decode_vphaddswXmm : decode true [0xC4#8, 0xE2#8, 0x69#8, 0x03#8, 0xD0#8] =
    .ok (.vphaddswXmm (vex0 2#4 5) 2#4 2#4 (.reg 0#4)) [] := by decide

/-- VPHADDSW ymm2, ymm1, ymm0. -/
theorem test_decode_vphaddswYmm : decode true [0xC4#8, 0xE2#8, 0x75#8, 0x03#8, 0xD0#8] =
    .ok (.vphaddswYmm (vex false false false false 1#4 true 5) 2#4 1#4 (.reg 0#4)) [] := by decide

/-- T108: PHMINPOSUW xmm0, xmm15. -/
theorem test_decode_phminposuw : decode true [0x66#8, 0x41#8, 0x0F#8, 0x38#8, 0x41#8, 0xC7#8] =
    .ok (.phminposuw ⟨[.opSize], some ⟨false, false, false, true⟩, 6⟩ 0#4 (.reg 15#4)) [] := by decide

/-- P3: VPHMINPOSUW xmm3, xmm2. -/
theorem test_decode_vphminposuw : decode true [0xC4#8, 0xE2#8, 0x79#8, 0x41#8, 0xDA#8] =
    .ok (.vphminposuw (vex0 0#4 5) 3#4 (.reg 2#4)) [] := by decide

/-- P5: PHSUBW mm0, mm1. -/
theorem test_decode_phsubwMmx : decode true [0x0F#8, 0x38#8, 0x05#8, 0xC1#8] =
    .ok (.phsubwMmx (leg [] 4) 0#3 (.reg 1#3)) [] := by decide

/-- P5: PHSUBW xmm0, [rsi]. -/
theorem test_decode_phsubwXmm : decode true [0x66#8, 0x0F#8, 0x38#8, 0x05#8, 0x06#8] =
    .ok (.phsubwXmm (leg [.opSize] 5) 0#4 (.mem (at' 6#4))) [] := by decide

/-- PHSUBD mm0, mm1. -/
theorem test_decode_phsubdMmx : decode true [0x0F#8, 0x38#8, 0x06#8, 0xC1#8] =
    .ok (.phsubdMmx (leg [] 4) 0#3 (.reg 1#3)) [] := by decide

/-- PHSUBD xmm0, xmm1. -/
theorem test_decode_phsubdXmm : decode true [0x66#8, 0x0F#8, 0x38#8, 0x06#8, 0xC1#8] =
    .ok (.phsubdXmm (leg [.opSize] 5) 0#4 (.reg 1#4)) [] := by decide

/-- T105: VPHSUBW xmm8, xmm9, [r10 + r11*4 + 20H]. -/
theorem test_decode_vphsubwXmm : decode true [0xC4#8, 0x02#8, 0x31#8, 0x05#8, 0x44#8, 0x9A#8, 0x20#8] =
    .ok (.vphsubwXmm (vex true true true false 9#4 false 7) 8#4 9#4
      (.mem (.sib 10#4 11#4 2#2 (.d8 0x20#8)))) [] := by decide

/-- VPHSUBD xmm2, xmm2, xmm0. -/
theorem test_decode_vphsubdXmm : decode true [0xC4#8, 0xE2#8, 0x69#8, 0x06#8, 0xD0#8] =
    .ok (.vphsubdXmm (vex0 2#4 5) 2#4 2#4 (.reg 0#4)) [] := by decide

/-- VPHSUBW ymm2, ymm1, ymm0. -/
theorem test_decode_vphsubwYmm : decode true [0xC4#8, 0xE2#8, 0x75#8, 0x05#8, 0xD0#8] =
    .ok (.vphsubwYmm (vex false false false false 1#4 true 5) 2#4 1#4 (.reg 0#4)) [] := by decide

/-- VPHSUBD ymm2, ymm1, ymm0. -/
theorem test_decode_vphsubdYmm : decode true [0xC4#8, 0xE2#8, 0x75#8, 0x06#8, 0xD0#8] =
    .ok (.vphsubdYmm (vex false false false false 1#4 true 5) 2#4 1#4 (.reg 0#4)) [] := by decide

/-- PHSUBSW mm0, mm1. -/
theorem test_decode_phsubswMmx : decode true [0x0F#8, 0x38#8, 0x07#8, 0xC1#8] =
    .ok (.phsubswMmx (leg [] 4) 0#3 (.reg 1#3)) [] := by decide

/-- PHSUBSW xmm0, xmm1. -/
theorem test_decode_phsubswXmm : decode true [0x66#8, 0x0F#8, 0x38#8, 0x07#8, 0xC1#8] =
    .ok (.phsubswXmm (leg [.opSize] 5) 0#4 (.reg 1#4)) [] := by decide

/-- VPHSUBSW xmm2, xmm2, xmm0. -/
theorem test_decode_vphsubswXmm : decode true [0xC4#8, 0xE2#8, 0x69#8, 0x07#8, 0xD0#8] =
    .ok (.vphsubswXmm (vex0 2#4 5) 2#4 2#4 (.reg 0#4)) [] := by decide

/-- VPHSUBSW ymm2, ymm1, ymm0. -/
theorem test_decode_vphsubswYmm : decode true [0xC4#8, 0xE2#8, 0x75#8, 0x07#8, 0xD0#8] =
    .ok (.vphsubswYmm (vex false false false false 1#4 true 5) 2#4 1#4 (.reg 0#4)) [] := by decide

/-- T106: PINSRB xmm1, [ebx + ecx*2 + 10H], 15. -/
theorem test_decode_pinsrb : decode false [0x66#8, 0x0F#8, 0x3A#8, 0x20#8, 0x4C#8, 0x4B#8, 0x10#8, 0x0F#8] =
    .ok (.pinsrb (leg [.opSize] 8) 1#4 (.mem (.sib 3#4 1#4 1#2 (.d8 0x10#8))) 0x0F#8) [] := by decide

/-- PINSRD xmm1, eax, 2. -/
theorem test_decode_pinsrd : decode true [0x66#8, 0x0F#8, 0x3A#8, 0x22#8, 0xC8#8, 0x02#8] =
    .ok (.pinsrd (leg [.opSize] 6) 1#4 (.reg 0#4) 0x02#8) [] := by decide

/-- P1: PINSRQ xmm0, rax, 1. -/
theorem test_decode_pinsrq : decode true [0x66#8, 0x48#8, 0x0F#8, 0x3A#8, 0x22#8, 0xC0#8, 0x01#8] =
    .ok (.pinsrq ⟨[.opSize], some ⟨true, false, false, false⟩, 7⟩ 0#4 (.reg 0#4) 0x01#8) [] := by decide

/-- T107: VPINSRB xmm0, xmm1, [rip + 10H], 0. -/
theorem test_decode_vpinsrb : decode true [0xC4#8, 0xE3#8, 0x71#8, 0x20#8, 0x05#8, 0x10#8, 0x00#8, 0x00#8, 0x00#8, 0x00#8] =
    .ok (.vpinsrb (vex0 1#4 10) 0#4 1#4 (.mem (.abs 0x10#32)) 0x00#8) [] := by decide

/-- T100: VPINSRD xmm9, xmm10, r11d, 3. -/
theorem test_decode_vpinsrd : decode true [0xC4#8, 0x43#8, 0x29#8, 0x22#8, 0xCB#8, 0x03#8] =
    .ok (.vpinsrd (vex true false true false 10#4 false 6) 9#4 10#4 (.reg 11#4) 0x03#8) [] := by decide

/-- T101: VPINSRQ xmm1, xmm2, rax, 1. -/
theorem test_decode_vpinsrq : decode true [0xC4#8, 0xE3#8, 0xE9#8, 0x22#8, 0xC8#8, 0x01#8] =
    .ok (.vpinsrq (vex false false false true 2#4 false 6) 1#4 2#4 (.reg 0#4) 0x01#8) [] := by decide

/-- T96: PINSRW mm0, ecx, 1. -/
theorem test_decode_pinsrwMmx : decode false [0x0F#8, 0xC4#8, 0xC1#8, 0x01#8] =
    .ok (.pinsrwMmx (leg [] 4) 0#3 (.reg 1#4) 0x01#8) [] := by decide

/-- PINSRW xmm0, ecx, 5. -/
theorem test_decode_pinsrwXmm : decode true [0x66#8, 0x0F#8, 0xC4#8, 0xC1#8, 0x05#8] =
    .ok (.pinsrwXmm (leg [.opSize] 5) 0#4 (.reg 1#4) 0x05#8) [] := by decide

/-- VPINSRW xmm1, xmm2, eax, 5, two-byte VEX: vvvv 1101B. -/
theorem test_decode_vpinsrw : decode true [0xC5#8, 0xE9#8, 0xC4#8, 0xC8#8, 0x05#8] =
    .ok (.vpinsrw ⟨[], none, true, false, false, false, false, 2#4, false, 5⟩ 1#4 2#4 (.reg 0#4) 0x05#8) [] := by decide

/-- PMADDUBSW mm1, mm2. -/
theorem test_decode_pmaddubswMmx : decode true [0x0F#8, 0x38#8, 0x04#8, 0xCA#8] =
    .ok (.pmaddubswMmx (leg [] 4) 1#3 (.reg 2#3)) [] := by decide

/-- PMADDUBSW xmm1, xmm2. -/
theorem test_decode_pmaddubswXmm : decode true [0x66#8, 0x0F#8, 0x38#8, 0x04#8, 0xCA#8] =
    .ok (.pmaddubswXmm (leg [.opSize] 5) 1#4 (.reg 2#4)) [] := by decide

/-- P3: VPMADDUBSW xmm2, xmm0, xmm1. -/
theorem test_decode_vpmaddubswXmm : decode true [0xC4#8, 0xE2#8, 0x79#8, 0x04#8, 0xD1#8] =
    .ok (.vpmaddubswXmm (vex0 0#4 5) 2#4 0#4 (.reg 1#4)) [] := by decide

/-- VPMADDUBSW ymm2, ymm1, ymm0. -/
theorem test_decode_vpmaddubswYmm : decode true [0xC4#8, 0xE2#8, 0x75#8, 0x04#8, 0xD0#8] =
    .ok (.vpmaddubswYmm (vex false false false false 1#4 true 5) 2#4 1#4 (.reg 0#4)) [] := by decide

/-- P2: PMADDWD mm0, mm1. -/
theorem test_decode_pmaddwdMmx : decode false [0x0F#8, 0xF5#8, 0xC1#8] =
    .ok (.pmaddwdMmx (leg [] 3) 0#3 (.reg 1#3)) [] := by decide

/-- T109: PMADDWD xmm0, gs:[1000H]. -/
theorem test_decode_pmaddwdXmm : decode true [0x65#8, 0x66#8, 0x0F#8, 0xF5#8, 0x04#8, 0x25#8, 0x00#8, 0x10#8, 0x00#8, 0x00#8] =
    .ok (.pmaddwdXmm (leg [.seg .gs, .opSize] 10) 0#4 (.mem (.sibAbs 4#4 0#2 0x1000#32))) [] := by decide

/-- VPMADDWD xmm3, xmm4, xmm5. -/
theorem test_decode_vpmaddwdXmm : decode true [0xC5#8, 0xD9#8, 0xF5#8, 0xDD#8] =
    .ok (.vpmaddwdXmm ⟨[], none, true, false, false, false, false, 4#4, false, 4⟩ 3#4 4#4 (.reg 5#4)) [] := by decide

/-- T104: VPMADDWD ymm3, ymm4, ymm5. -/
theorem test_decode_vpmaddwdYmm : decode false [0xC5#8, 0xDD#8, 0xF5#8, 0xDD#8] =
    .ok (.vpmaddwdYmm ⟨[], none, true, false, false, false, false, 4#4, true, 4⟩ 3#4 4#4 (.reg 5#4)) [] := by decide

/-- Words that are no form in scope: LES and LDS in 32-bit mode (R58), F3 before 0F (R53), an opcode and a VEX map in no row
(R71, R56). -/
theorem test_decode_rejects :
    decode false [0xC4#8, 0x03#8] = .reject .lesLds ∧ decode false [0xC5#8, 0x7F#8] = .reject .lesLds ∧
      decode true [0xF3#8, 0x0F#8, 0xC4#8, 0xC1#8, 0x01#8] = .reject .repeatPrefix ∧ decode true [0x0F#8, 0x38#8, 0x00#8, 0xC1#8] = .reject .unknownOpcode ∧
      decode true [0x90#8] = .reject .unknownOpcode ∧ decode true [0xC4#8, 0xE4#8, 0x79#8, 0x01#8, 0xC1#8] = .reject .unknownVexMap := by
  decide

/-- A word cut short is no instruction; 66 before VEX in no row raises #UD (R59). -/
theorem test_decode_stops :
    decode true [0x66#8, 0x0F#8, 0x3A#8, 0x16#8, 0xC8#8] = .truncated ∧ decode true [0x66#8, 0xC4#8, 0xE4#8, 0x79#8, 0x01#8, 0xC1#8] = .undefined := by
  decide

/-- In 32-bit mode 40H is no prefix (R54), and 67 means 16-bit addressing: [bx+si], and disp16 alone (R66, R70). -/
theorem test_decode_32 :
    decode false [0x66#8, 0x48#8, 0x0F#8, 0x3A#8, 0x16#8, 0xC8#8, 0x01#8] = .reject .unknownOpcode ∧
      decode false [0x67#8, 0x0F#8, 0x38#8, 0x01#8, 0x00#8] = .ok (.phaddwMmx (leg [.addrSize] 5) 0#3 (.mem (.m16 0#3 .none))) [] ∧
      decode false [0x67#8, 0x0F#8, 0x38#8, 0x01#8, 0x06#8, 0x34#8, 0x12#8] = .ok (.phaddwMmx (leg [.addrSize] 7) 0#3 (.mem (.m16abs 0x1234#16))) [] := by
  decide

/-- The host's word of the first row, PEXT r32: bit 0 is the first byte's lowest bit. -/
theorem test_decodeTableWord : decodeTableWord 32 0xF50202C4 =
    some (.pextR32 (vex true true true false 15#4 false 5) 8#4 15#4 (.mem (at' 8#4))) := by decide

/-! ## Vectors of 95_test_vectors.md section 2 -/

/-- T10 to T16. -/
theorem test_pext_vectors :
    pext 0x12345678#32 0xFF00FFF0#32 = 0x00012567#32 ∧
      pext 0xDEADBEEF#32 0x00000000#32 = 0x00000000#32 ∧
      pext 0xDEADBEEF#32 0xFFFFFFFF#32 = 0xDEADBEEF#32 ∧
      pext 0xFFFFFFFF#32 0x80000001#32 = 0x00000003#32 ∧
      pext 0xA5A5A5A5#32 0x0F0F0F0F#32 = 0x00005555#32 ∧
      pext 0x0123456789ABCDEF#64 0xFF00FF00FF00FF00#64 = 0x00000000014589CD#64 ∧
      pext 0x8000000000000001#64 0x8000000000000001#64 = 0x0000000000000003#64 := by
  decide

/-- The elements of T20 to T27 and T30 to T35, by the selector of the imm8. -/
theorem test_pextr_vectors :
    elem 8 0x0F0E0D0C0B0A09080706050403020100#128 (sel 16 0x05#8) = 0x05#8 ∧
      elem 8 0x0F0E0D0C0B0A09080706050403020100#128 (sel 16 0xF5#8) = 0x05#8 ∧
      elem 32 0x0F0E0D0C0B0A09080706050403020100#128 (sel 4 0x02#8) = 0x0B0A0908#32 ∧
      elem 32 0x0F0E0D0C0B0A09080706050403020100#128 (sel 4 0x07#8) = 0x0F0E0D0C#32 ∧
      elem 64 0x0F0E0D0C0B0A09080706050403020100#128 (sel 2 0x01#8) = 0x0F0E0D0C0B0A0908#64 ∧
      elem 64 0x0F0E0D0C0B0A09080706050403020100#128 (sel 2 0x02#8) = 0x0706050403020100#64 ∧
      elem 16 0x7766554433221100#64 (sel 4 0x02#8) = 0x5544#16 ∧
      elem 16 0x7766554433221100#64 (sel 4 0x06#8) = 0x5544#16 ∧
      elem 16 0xFFEEDDCCBBAA99887766554433221100#128 (sel 8 0x05#8) = 0xBBAA#16 ∧
      elem 16 0xFFEEDDCCBBAA99887766554433221100#128 (sel 8 0x0D#8) = 0xBBAA#16 ∧
      elem 16 0xFFEEDDCCBBAA99887766554433221100#128 (sel 8 0x00#8) = 0x1100#16 := by
  decide

/-- T40, T41, T42, T46. -/
theorem test_phaddw_vectors :
    hpair (w := 16) addW 0x0004000300020001#64 0x0040003000200010#64 =
        0x0070003000070003#64 ∧
      hpair (w := 16) addW 0x8000800000017FFF#64 0xFFFF0001FFFFFFFF#64 =
        0x0000FFFE00008000#64 ∧
      hpair (w := 16) addW 0x00080007000600050004000300020001#128 0x00800070006000500040003000200010#128 =
        0x00F000B000700030000F000B00070003#128 ∧
      hpair (w := 16) addW 0x0010000F000E000D000C000B000A000900080007000600050004000300020001#256 0x010000F000E000D000C000B000A0009000800070006000500040003000200010#256 =
        0x01F001B001700130001F001B0017001300F000B000700030000F000B00070003#256 := by
  decide

/-- T43, T44, T45, T47. -/
theorem test_phaddd_vectors :
    hpair (w := 32) addW 0x0000000200000001#64 0x0000002000000010#64 =
        0x0000003000000003#64 ∧
      hpair (w := 32) addW 0x000000017FFFFFFF#64 0x8000000080000000#64 =
        0x0000000080000000#64 ∧
      hpair (w := 32) addW 0x00000004000000030000000200000001#128 0x00000040000000300000002000000010#128 =
        0x00000070000000300000000700000003#128 ∧
      hpair (w := 32) addW 0x0000000800000007000000060000000500000004000000030000000200000001#256 0x0000008000000070000000600000005000000040000000300000002000000010#256 =
        0x000000F0000000B00000000F0000000B00000070000000300000000700000003#256 := by
  decide

/-- T48, T49, T50. -/
theorem test_phaddsw_vectors :
    hpair (w := 16) addS16 0xFFFF800000017FFF#64 0xFF38FF9C00C80064#64 =
        0xFED4012C80007FFF#64 ∧
      hpair (w := 16) addS16 0x800080007FFF7FFFFFFF800000017FFF#128 0xBFFFC00040004000FFFFFFFF00020001#128 =
        0x80007FFFFFFE000380007FFF80007FFF#128 ∧
      hpair (w := 16) addS16 0xBFFFC00040004000FFFFFFFF00020001800080007FFF7FFFFFFF800000017FFF#256 0x800080007FFF7FFFFFFF800000017FFFBFFFC00040004000FFFFFFFF00020001#256 =
        0x80007FFF80007FFF80007FFFFFFE000380007FFFFFFE000380007FFF80007FFF#256 := by
  decide

/-- T52 to T55. -/
theorem test_phminposuw_vectors :
    minpos 0x00040006000800070003000900030005#128 = 0x10003#128 ∧
      minpos 0x0000000200017FFF9000FFFF7FFF8000#128 = 0x70000#128 ∧
      minpos 0xFFFFFFFFFFFFFFFFFFFFFFFFFFFFFFFF#128 = 0xFFFF#128 ∧
      minpos 0x0#128 = 0x0#128 := by
  decide

/-- T56, T57, T58, T63. -/
theorem test_phsubw_vectors :
    hpair (w := 16) subW 0x0004000300020001#64 0x0040003000200010#64 =
        0xFFF0FFF0FFFFFFFF#64 ∧
      hpair (w := 16) subW 0x8000000000018000#64 0x00050005FFFF7FFF#64 =
        0x0000800080007FFF#64 ∧
      hpair (w := 16) subW 0x00080007000600050004000300020001#128 0x00800070006000500040003000200010#128 =
        0xFFF0FFF0FFF0FFF0FFFFFFFFFFFFFFFF#128 ∧
      hpair (w := 16) subW 0x0010000F000E000D000C000B000A000900080007000600050004000300020001#256 0x010000F000E000D000C000B000A0009000800070006000500040003000200010#256 =
        0xFFF0FFF0FFF0FFF0FFFFFFFFFFFFFFFFFFF0FFF0FFF0FFF0FFFFFFFFFFFFFFFF#256 := by
  decide

/-- T59, T61, T62, T64. -/
theorem test_phsubd_vectors :
    hpair (w := 32) subW 0x0000000200000001#64 0x0000002000000010#64 =
        0xFFFFFFF0FFFFFFFF#64 ∧
      hpair (w := 32) subW 0x0000000180000000#64 0x800000007FFFFFFF#64 =
        0xFFFFFFFF7FFFFFFF#64 ∧
      hpair (w := 32) subW 0x00000004000000030000000200000001#128 0x00000040000000300000002000000010#128 =
        0xFFFFFFF0FFFFFFF0FFFFFFFFFFFFFFFF#128 ∧
      hpair (w := 32) subW 0x0000000800000007000000060000000500000004000000030000000200000001#256 0x0000008000000070000000600000005000000040000000300000002000000010#256 =
        0xFFFFFFF0FFFFFFF0FFFFFFFFFFFFFFFFFFFFFFF0FFFFFFF0FFFFFFFFFFFFFFFF#256 := by
  decide

/-- T65, T66, T67. -/
theorem test_phsubsw_vectors :
    hpair (w := 16) subS16 0x8000000000018000#64 0x00050005FFFF7FFF#64 =
        0x00007FFF7FFF8000#64 ∧
      hpair (w := 16) subS16 0x00050005FFFF7FFF8000000000018000#128 0x000A00030003000A7FFF800080007FFF#128 =
        0xFFF9000780007FFF00007FFF7FFF8000#128 ∧
      hpair (w := 16) subS16 0x000A00030003000A7FFF800080007FFF00050005FFFF7FFF8000000000018000#256 0x00050005FFFF7FFF8000000000018000000A00030003000A7FFF800080007FFF#256 =
        0x00007FFF7FFF8000FFF9000780007FFFFFF9000780007FFF00007FFF7FFF8000#256 := by
  decide

/-- T68 to T72 and T75 to T78. -/
theorem test_pinsr_vectors :
    insertElem 0x0F0E0D0C0B0A09080706050403020100#128 (sel 16 0x05#8) 0xAB#8 =
        0x0F0E0D0C0B0A09080706AB0403020100#128 ∧
      insertElem 0x0F0E0D0C0B0A09080706050403020100#128 (sel 16 0x1F#8) 0xEE#8 =
        0xEE0E0D0C0B0A09080706050403020100#128 ∧
      insertElem 0x0F0E0D0C0B0A09080706050403020100#128 (sel 4 0x02#8) 0xDEADBEEF#32 =
        0x0F0E0D0CDEADBEEF0706050403020100#128 ∧
      insertElem 0x0F0E0D0C0B0A09080706050403020100#128 (sel 4 0x06#8) 0xDEADBEEF#32 =
        0x0F0E0D0CDEADBEEF0706050403020100#128 ∧
      insertElem 0x0F0E0D0C0B0A09080706050403020100#128 (sel 2 0x01#8) 0x1122334455667788#64 =
        0x11223344556677880706050403020100#128 ∧
      insertElem 0x7766554433221100#64 (sel 4 0x02#8) 0xBABE#16 =
        0x7766BABE33221100#64 ∧
      insertElem 0x7766554433221100#64 (sel 4 0x07#8) 0xAAAA#16 =
        0xAAAA554433221100#64 ∧
      insertElem 0xFFEEDDCCBBAA99887766554433221100#128 (sel 8 0x05#8) 0xABCD#16 =
        0xFFEEDDCCABCD99887766554433221100#128 ∧
      insertElem 0xFFEEDDCCBBAA99887766554433221100#128 (sel 8 0x0D#8) 0xABCD#16 =
        0xFFEEDDCCABCD99887766554433221100#128 := by
  decide

/-- T79, T80, T81 in the low word, T84, T85, T86. -/
theorem test_pmaddubsw_vectors :
    maddubs 0xFFFF#16 0x8080#16 =
        0x8000#16 ∧
      maddubs 0xFFFF#16 0x7F7F#16 =
        0x7FFF#16 ∧
      maddubs 0x8080#16 0xFFFF#16 =
        0xFF00#16 ∧
      maddubs 0xFFFF8001FF7F0201#64 0x7F7F80807F808003#64 =
        0x7FFFBF803F01FF03#64 ∧
      maddubs 0x0102030405060708090A0B0C0D0E0F10#128 0xFF01FF01FF01FF017F7F80807F808001#128 =
        0x0001000100010001096DF480FF73F890#128 ∧
      maddubs 0xFFFF8001FF7F02010102030405060708090A0B0C0D0E0F10FFFF8001FF7F0201#256 0x7F7F80807F808003FF01FF01FF01FF017F7F80807F8080017F7F80807F808003#256 =
        0x7FFFBF803F01FF030001000100010001096DF480FF73F8907FFFBF803F01FF03#256 := by
  decide

/-- T60, T87 to T93. -/
theorem test_pmaddwd_vectors :
    maddwd 0x80008000#32 0x80008000#32 =
        0x80000000#32 ∧
      maddwd 0xFFFFFFFF#32 0xFFFFFFFF#32 =
        0x00000002#32 ∧
      maddwd 0x80008000#32 0x7FFF7FFF#32 =
        0x80010000#32 ∧
      maddwd 0x80007FFF#32 0x80007FFF#32 =
        0x7FFF0001#32 ∧
      maddwd 0x800080007FFF7FFF#64 0x800080007FFF7FFF#64 =
        0x800000007FFE0002#64 ∧
      maddwd 0x0004000300020001#64 0xFFFF000A00640010#64 =
        0x0000001A000000D8#64 ∧
      maddwd 0x800080007FFF8000FFFF000100020003#128 0x8000800080007FFF0001000100050004#128 =
        0x80000000800100000000000000000016#128 ∧
      maddwd 0x800080007FFF8000FFFF0001000200038000800080007FFF0001000100050004#256 0x8000800080007FFF00010001000500048000800080007FFF0001000100050004#256 =
        0x80000000800100000000000000000016800000007FFF00010000000200000029#256 := by
  decide

/-! ## Single steps (95_test_vectors.md sections 4 and 5) -/

/-- P1 at 1000 and T123: PEXT rax, rbx, [rsi], with CR0.TS = 1; flags as before. -/
theorem test_step_pext :
    nextIs (step (env (gp (gp (gp (launch true [0xC4#8, 0xE2#8, 0xE2#8, 0xF5#8, 0x06#8] [0x00#8, 0xFF#8, 0x00#8, 0xFF#8, 0x00#8, 0xFF#8, 0x00#8, 0xFF#8]) 0 0xFFFFFFFFFFFFFFFF#64) 3 0x0123456789ABCDEF#64) 6 0x2000#64)
        fun e => { e with cr0 := 8#64 })) (fun t => t.reg64 0#4 == 0x14589CD#64 && t.rip == 0x1005#64 && t.rflags == 2#64) = true := by
  decide +kernel

/-- T17: PEXT r32 clears bits 63:32. -/
theorem test_step_pextR32_clears :
    nextIs (step (gp (gp (gp (launch true [0xC4#8, 0xE2#8, 0x6A#8, 0xF5#8, 0xC1#8] []) 0 0xFFFFFFFFFFFFFFFF#64) 2 0x12345678#64) 1 0xFF00FFF0#64)) (fun t => t.reg64 0#4 == 0x12567#64) = true := by
  decide +kernel

/-- P1 at 1005: PINSRQ xmm0, rax, 1 keeps bits 255:128. -/
theorem test_step_pinsrq :
    nextIs (step (yr (gp (launch true [0x66#8, 0x48#8, 0x0F#8, 0x3A#8, 0x22#8, 0xC0#8, 0x01#8] []) 0 0x14589CD#64) 0 (BitVec.allOnes 128 ++ 0x0F0E0D0C0B0A09080706050403020100#128)))
        (fun t => t.ymmReg 0#4 == BitVec.allOnes 128 ++ 0x00000000014589CD0706050403020100#128 && t.rip == 0x1007#64) = true := by
  decide +kernel

/-- P1 at 100C: PEXTRD [rdi+4], xmm0, 2 stores four bytes, low byte first, and no others. -/
theorem test_step_pextrd :
    nextIs (step (yr (gp (launch true [0x66#8, 0x0F#8, 0x3A#8, 0x16#8, 0x47#8, 0x04#8, 0x02#8] [0x00#8, 0x00#8, 0x00#8, 0x00#8, 0x00#8, 0x00#8, 0x00#8, 0x00#8, 0xAA#8]) 7 0x2000#64) 0 0x014589CD0706050403020100#256))
        (fun t => [0x2003, 0x2004, 0x2005, 0x2006, 0x2007, 0x2008].map t.mem.read ==
          [some 0#8, some 0xCD#8, some 0x89#8, some 0x45#8, some 0x01#8, some 0xAA#8]) = true := by
  decide +kernel

/-- P2 at 1004: PINSRW mm0, ecx, 1, with the x87 side effects of R16. -/
theorem test_step_pinsrw_mmx :
    nextIs (step (gp (xr (launch false [0x0F#8, 0xC4#8, 0xC1#8, 0x01#8] []) 0 3#80) 1 4#64))
        (fun t => t.x87[0] == 0xFFFF0000000000040003#80 && t.fpuTop == 0#3 && t.fpuTag == 0#16) = true := by
  decide +kernel

/-- P2 at 1008: PMADDWD mm0, mm1. -/
theorem test_step_pmaddwd_mmx :
    nextIs (step (xr (xr (launch false [0x0F#8, 0xF5#8, 0xC1#8] []) 0 0x40003#80) 1 0x60005#80)) (fun t => t.mm 0#3 == 0x27#64 && t.rip == 0x1003#64) = true := by
  decide +kernel

/-- P2 at 100B: PHADDD mm0, mm0 reads both sources before it writes. -/
theorem test_step_phaddd_mmx :
    nextIs (step (xr (launch false [0x0F#8, 0x38#8, 0x02#8, 0xC0#8] []) 0 0x27#80)) (fun t => t.mm 0#3 == 0x0000002700000027#64) = true := by
  decide +kernel

/-- P2 at 100F and T36: PEXTRW edx, mm0, 0 writes the whole register and marks the x87 tags valid. -/
theorem test_step_pextrw_mmx :
    nextIs (step (gp (xr (launch false [0x0F#8, 0xC5#8, 0xD0#8, 0x00#8] []) 0 0x0000002700000027#80) 2 0xFFFFFFFF#64))
        (fun t => t.reg64 2#4 == 0x27#64 && t.fpuTag == 0#16 && t.x87[0] == 0x0000002700000027#80) = true := by
  decide +kernel

/-- P3 at 1000: VPMADDUBSW xmm2, xmm0, xmm1 zeroes bits 255:128. -/
theorem test_step_vpmaddubsw :
    nextIs (step (yr (yr (yr (launch true [0xC4#8, 0xE2#8, 0x79#8, 0x04#8, 0xD1#8] []) 0 0x0102030405060708090A0B0C0D0E0F10#256) 1 0xFF01FF01FF0101017F7F80807F808001#256) 2 (BitVec.allOnes 256)))
        (fun t => t.ymmReg 2#4 == 0x000100010001000F096DF480FF73F890#256) = true := by
  decide +kernel

/-- P3 at 1005: VPHADDSW xmm2, xmm2, xmm0, destination and first source the same. -/
theorem test_step_vphaddsw :
    nextIs (step (yr (yr (launch true [0xC4#8, 0xE2#8, 0x69#8, 0x03#8, 0xD0#8] []) 0 0x0102030405060708090A0B0C0D0E0F10#256) 2 0x000100010001000F096DF480FF73F890#256))
        (fun t => t.ymmReg 2#4 == 0x04060C0E14161C1E00020010FDEDF803#256) = true := by
  decide +kernel

/-- P3 at 100A: VPHMINPOSUW xmm3, xmm2. -/
theorem test_step_vphminposuw :
    nextIs (step (yr (yr (launch true [0xC4#8, 0xE2#8, 0x79#8, 0x41#8, 0xDA#8] []) 2 0x04060C0E14161C1E00020010FDEDF803#256) 3 (BitVec.allOnes 256)))
        (fun t => t.ymmReg 3#4 == 0x30002#256) = true := by
  decide +kernel

/-- P3 at 100F and T98: VPEXTRW eax, xmm3, 1. -/
theorem test_step_vpextrw :
    nextIs (step (yr (gp (launch true [0xC5#8, 0xF9#8, 0xC5#8, 0xC3#8, 0x01#8] []) 0 0xFFFFFFFFFFFFFFFF#64) 3 0x30002#256)) (fun t => t.reg64 0#4 == 3#64) = true := by
  decide +kernel

/-- P4 at 1000: PINSRB xmm1, [ebx + ecx*2 + 10H], 15. -/
theorem test_step_pinsrb :
    nextIs (step (yr (gp (gp (launch false [0x66#8, 0x0F#8, 0x3A#8, 0x20#8, 0x4C#8, 0x4B#8, 0x10#8, 0x0F#8] [0xA5#8]) 3 0x1FE0#64) 1 8#64) 1 0x0F0E0D0C0B0A09080706050403020100#256))
        (fun t => t.xmm 1#4 == 0xA50E0D0C0B0A09080706050403020100#128) = true := by
  decide +kernel

/-- P4 at 1008: PEXTRB [ebx], xmm1, 15. -/
theorem test_step_pextrb :
    nextIs (step (yr (gp (launch false [0x66#8, 0x0F#8, 0x3A#8, 0x14#8, 0x0B#8, 0x0F#8] [0xF0#8, 0xFF#8]) 3 0x2000#64) 1 0xA50E0D0C0B0A09080706050403020100#256))
        (fun t => t.mem.read 0x2000 == some 0xA5#8 && t.mem.read 0x2001 == some 0xFF#8) = true := by
  decide +kernel

/-- P5 at 1000, and the #GP(0) of P5 at 1004. -/
theorem test_step_phsubw :
    nextIs (step (xr (xr (launch true [0x0F#8, 0x38#8, 0x05#8, 0xC1#8] []) 0 0x0004000300020001#80) 1 0x0040003000200010#80)) (fun t => t.mm 0#3 == 0xFFF0FFF0FFFFFFFF#64) = true ∧
      faults (gp (launch true [0x66#8, 0x0F#8, 0x38#8, 0x05#8, 0x06#8] []) 6 0x2004#64) 13 (some 0#32) none = true := by
  decide +kernel

/-- T73: VPINSRD xmm0, xmm1, eax, 2 takes XMM1 and zeroes bits 255:128. -/
theorem test_step_vpinsrd :
    nextIs (step (yr (yr (gp (launch true [0xC4#8, 0xE3#8, 0x71#8, 0x22#8, 0xC0#8, 0x02#8] []) 0 0xDEADBEEF#64) 0 (BitVec.allOnes 256)) 1 (BitVec.allOnes 128 ++ 0x0F0E0D0C0B0A09080706050403020100#128)))
        (fun t => t.ymmReg 0#4 == 0x0F0E0D0CDEADBEEF0706050403020100#256) = true := by
  decide +kernel

/-- T107: the byte is read at rip + 10 + 10H. -/
theorem test_step_vpinsrb_rip :
    nextIs (step { (launch true [0xC4#8, 0xE3#8, 0x71#8, 0x20#8, 0x05#8, 0x10#8, 0x00#8, 0x00#8, 0x00#8, 0x00#8] []) with mem := cells 0x1000 [0xC4#8, 0xE3#8, 0x71#8, 0x20#8, 0x05#8, 0x10#8, 0x00#8, 0x00#8, 0x00#8, 0x00#8] ++ [(0x101A, 0xEE#8)] })
        (fun t => t.xmm 0#4 == 0xEE#128) = true := by
  decide +kernel

/-- T109 with a GS base: PMADDWD xmm0, gs:[1000H] reads at 2000H. -/
theorem test_step_pmaddwd_gs :
    nextIs (step (yr (env (launch true [0x65#8, 0x66#8, 0x0F#8, 0xF5#8, 0x04#8, 0x25#8, 0x00#8, 0x10#8, 0x00#8, 0x00#8] [0x01#8, 0x00#8, 0x02#8, 0x00#8, 0x03#8, 0x00#8, 0x04#8, 0x00#8, 0x00#8, 0x00#8, 0x00#8, 0x00#8, 0x00#8, 0x00#8, 0x00#8, 0x00#8])
        fun e => { e with segs := { e.segs with gs := ⟨0x1000#64, .flat⟩ } }) 0 0x00010001000100010001000100010001#256))
        (fun t => t.xmm 0#4 == 0x0000000700000003#128) = true := by
  decide +kernel

/-- T110, T111, T112: an m128 of a legacy form must be aligned; of a VEX.128 form only if VEX_M128_ALIGN; an m64 need not be. -/
theorem test_step_alignment :
    faults (gp (launch true [0x66#8, 0x0F#8, 0x38#8, 0x01#8, 0x00#8] [0x00#8, 0x01#8, 0x02#8, 0x03#8, 0x04#8, 0x05#8, 0x06#8, 0x07#8, 0x08#8, 0x09#8, 0x0A#8, 0x0B#8, 0x0C#8, 0x0D#8, 0x0E#8, 0x0F#8, 0x10#8, 0x11#8, 0x12#8, 0x13#8, 0x14#8, 0x15#8, 0x16#8, 0x17#8]) 0 0x2008#64) 13 (some 0#32) none = true ∧
      nextIs (step (gp (launch true [0xC4#8, 0xE2#8, 0x79#8, 0x01#8, 0x00#8] [0x00#8, 0x01#8, 0x02#8, 0x03#8, 0x04#8, 0x05#8, 0x06#8, 0x07#8, 0x08#8, 0x09#8, 0x0A#8, 0x0B#8, 0x0C#8, 0x0D#8, 0x0E#8, 0x0F#8, 0x10#8, 0x11#8, 0x12#8, 0x13#8, 0x14#8, 0x15#8, 0x16#8, 0x17#8]) 0 0x2008#64)) (fun _ => true) = true ∧
      faults (env (gp (launch true [0xC4#8, 0xE2#8, 0x79#8, 0x01#8, 0x00#8] [0x00#8, 0x01#8, 0x02#8, 0x03#8, 0x04#8, 0x05#8, 0x06#8, 0x07#8, 0x08#8, 0x09#8, 0x0A#8, 0x0B#8, 0x0C#8, 0x0D#8, 0x0E#8, 0x0F#8, 0x10#8, 0x11#8, 0x12#8, 0x13#8, 0x14#8, 0x15#8, 0x16#8, 0x17#8]) 0 0x2008#64) fun e => { e with vexM128Align := true }) 13 (some 0#32) none = true ∧
      nextIs (step (gp (launch true [0x0F#8, 0x38#8, 0x01#8, 0x00#8] [0x00#8, 0x01#8, 0x02#8, 0x03#8, 0x04#8, 0x05#8, 0x06#8, 0x07#8, 0x08#8, 0x09#8, 0x0A#8, 0x0B#8, 0x0C#8, 0x0D#8, 0x0E#8, 0x0F#8, 0x10#8, 0x11#8, 0x12#8, 0x13#8, 0x14#8, 0x15#8, 0x16#8, 0x17#8]) 0 0x2003#64)) (fun _ => true) = true := by
  decide +kernel

/-- A VEX.256 form reads 32 bytes at any address (R36): VPHADDD ymm0, ymm1, [rax]. -/
theorem test_step_ymm_unaligned :
    nextIs (step (gp (launch true [0xC4#8, 0xE2#8, 0x75#8, 0x02#8, 0x00#8] [0x00#8, 0x01#8, 0x02#8, 0x03#8, 0x04#8, 0x05#8, 0x06#8, 0x07#8, 0x08#8, 0x09#8, 0x0A#8, 0x0B#8, 0x0C#8, 0x0D#8, 0x0E#8, 0x0F#8, 0x10#8, 0x11#8, 0x12#8, 0x13#8, 0x14#8, 0x15#8, 0x16#8, 0x17#8, 0x18#8, 0x19#8, 0x1A#8, 0x1B#8, 0x1C#8, 0x1D#8, 0x1E#8, 0x1F#8, 0x20#8, 0x21#8, 0x22#8, 0x23#8, 0x24#8, 0x25#8, 0x26#8, 0x27#8]) 0 0x2001#64))
        (fun t => t.ymmReg 0#4 == 0x3C3A38362C2A282600000000000000001C1A18160C0A08060000000000000000#256) = true := by
  decide +kernel

/-- T113 to T117: the illegal encodings of R73, and LOCK. -/
theorem test_step_ud :
    faults (launch true [0xC4#8, 0xE3#8, 0x7D#8, 0x14#8, 0x00#8, 0x00#8] []) 6 none none = true ∧
      faults (launch true [0xC4#8, 0xE3#8, 0x71#8, 0x14#8, 0xC0#8, 0x00#8] []) 6 none none = true ∧
      faults (launch false [0xC4#8, 0xE3#8, 0xF9#8, 0x16#8, 0xC0#8, 0x00#8] []) 6 none none = true ∧
      faults (launch false [0xF0#8, 0x0F#8, 0xC4#8, 0xC0#8, 0x00#8] []) 6 none none = true ∧
      faults (launch true [0x0F#8, 0xC5#8, 0x00#8, 0x00#8] []) 6 none none = true := by
  decide +kernel

/-- T118 to T121: CPUID.BMI2 = 0; CR0.EM = 1 on a legacy and on a VEX form; XCR0.AVX = 0. -/
theorem test_step_features :
    faults (env (launch true [0xC4#8, 0xE2#8, 0xE2#8, 0xF5#8, 0x06#8] []) fun e => { e with cpuid7Ebx := 0x20#32 }) 6 none none = true ∧
      faults (env (launch true [0x66#8, 0x0F#8, 0x38#8, 0x01#8, 0xC1#8] []) fun e => { e with cr0 := 4#64 }) 6 none none = true ∧
      nextIs (step (env (launch true [0xC4#8, 0xE2#8, 0x79#8, 0x01#8, 0xC1#8] []) fun e => { e with cr0 := 4#64 })) (fun _ => true) = true ∧
      faults (env (launch true [0xC4#8, 0xE2#8, 0x79#8, 0x01#8, 0xC1#8] []) fun e => { e with xcr0 := 3#64 }) 6 none none = true := by
  decide +kernel

/-- T122: #NM before #GP. T126: #MF. -/
theorem test_step_priority :
    faults (env (gp (launch true [0x66#8, 0x0F#8, 0x38#8, 0x01#8, 0x00#8] []) 0 0x1008#64) fun e => { e with cr0 := 8#64 }) 7 none none = true ∧
      faults (env (launch true [0x0F#8, 0xF5#8, 0xC1#8] []) fun e => { e with x87Pending := true }) 16 none none = true := by
  decide +kernel

/-- T124 and T125: a non-canonical address is #GP(0), through SS #SS(0). -/
theorem test_step_canonical :
    faults (gp (launch true [0xC4#8, 0xE2#8, 0xE2#8, 0xF5#8, 0x06#8] []) 6 0x0000800000000000#64) 13 (some 0#32) none = true ∧
      faults (gp (launch true [0xC4#8, 0xE2#8, 0xE2#8, 0xF5#8, 0x45#8, 0x00#8] []) 5 0x0000800000000000#64) 12 (some 0#32) none = true := by
  decide +kernel

/-- T127: #AC(0). -/
theorem test_step_alignment_check :
    faults { env (gp (launch false [0x66#8, 0x0F#8, 0x3A#8, 0x16#8, 0x03#8, 0x00#8] [0x00#8, 0x00#8, 0x00#8, 0x00#8, 0x00#8, 0x00#8]) 3 0x2002#64) (fun e => { e with cr0 := 0x40000#64 }) with rflags := 0x40000#64 }
        17 (some 0#32) none = true := by
  decide +kernel

/-- #PF of R231: the lowest faulting byte and the rule's error code. -/
theorem test_step_page_fault :
    faults (env (gp (launch true [0x0F#8, 0x38#8, 0x01#8, 0x00#8] [0x00#8, 0x00#8, 0x00#8, 0x00#8, 0x00#8, 0x00#8, 0x00#8, 0x00#8]) 0 0x2000#64)
        fun e => { e with trans := [⟨⟨0x2004, 0x1000⟩, .read, 3#2, .pageFault 4#32⟩] }) 14 (some 4#32) (some 0x2004#64) = true := by
  decide +kernel

/-- A store into the text is refused (R44); rip just after the text ends the run (R266). -/
theorem test_step_text :
    refusalIs (step (env (gp (launch true [0x66#8, 0x0F#8, 0x3A#8, 0x14#8, 0x03#8, 0x00#8] []) 3 0x1005#64) fun e => { e with text := some ⟨0x1000#64, 6⟩ })) (.storeIntoText 0x1005) = true ∧
      faultIs (step (env { (launch true [0x66#8, 0x0F#8, 0x3A#8, 0x14#8, 0x03#8, 0x00#8] []) with rip := 0x1006#64 } fun e => { e with text := some ⟨0x1000#64, 6⟩ })) .endOfRun = true := by
  decide +kernel

/-- The host's placement: PINSRW mm0, ecx, 1 placed at reset is what the next step runs. -/
theorem test_step_withFetchWord :
    nextIs (step (State.reset.withFetchWord 32 0x01C1C40F)) (fun t => t.rip == 4#64 && t.fpuTag == 0#16) = true := by
  decide +kernel

/-! ## Every statement with hypotheses has a state and operands that meet them

The witness of `Obligations.X` is `test_witness_X`; where a statement has several clauses it meets each of them. -/

/-- A state of the mode with code at rip = 1000H, the bytes 00H to 1FH at 2000H and 2000H in every general register. -/
def st (m : Bool) (code : List Byte) : State :=
  { launch m code ((List.range 32).map (BitVec.ofNat 8)) with
    gpr := Vector.replicate 16 0x2000#64
    ymm := Vector.replicate 16 0x0001000200030004000500060007000800090010001100120013001400150016#256
    x87 := Vector.replicate 8 0xFFFF0001000200030004#80 }

/-- The value of the `w/8` bytes at 2000H in `st`. -/
def dat (w : Nat) : BitVec w := ofBytes w ((List.range (w / 8)).map (BitVec.ofNat 8))

/-- Legacy encodings without a prefix, and with 66. -/
abbrev eM : LegEnc := leg [] 4
abbrev eS : LegEnc := leg [.opSize] 5
/-- A VEX encoding with vvvv = 0, and the same with L = 1. -/
abbrev eV : VexEnc := vex0 0#4 5
abbrev eL : VexEnc := vex false false false false 0#4 true 5
/-- The memory operand [rbx]. -/
abbrev mB : MemOp := at' 3#4

theorem test_witness_EncodeThenDecode :
    (.pextR32 (vex0 2#4 5) 0#4 2#4 (.mem mB) : Instr).wf false = true ∧
      (.phaddwMmx ⟨List.replicate 11 (.seg .ds), none, 15⟩ 0#3 (.reg 1#3) : Instr).wf true = true := by decide

theorem test_witness_DecodeThenEncode :
    decode true [0x0F#8, 0x38#8, 0x01#8, 0xCA#8, 0x90#8] = .ok (.phaddwMmx eM 1#3 (.reg 2#3)) [0x90#8] ∧
      [0x0F#8, 0x38#8, 0x01#8, 0xCA#8, 0x90#8].length ≤ [0x90#8].length + 15 := by decide

theorem test_witness_MandatoryPrefixSelectsForm :
    decode true [0x0F#8, 0x38#8, 0x01#8, 0xCA#8] = .ok (.phaddwMmx eM 1#3 (.reg 2#3)) [] ∧
      (.phaddwMmx eM 1#3 (.reg 2#3) : Instr).enc = .leg eM ∧
      decode true [0x66#8, 0x0F#8, 0x38#8, 0x01#8, 0xCA#8] = .ok (.phaddwXmm eS 1#4 (.reg 2#4)) [] ∧
      (.phaddwXmm eS 1#4 (.reg 2#4) : Instr).enc = .leg eS := by decide

theorem test_witness_StepKeepsGood :
    ((st true [0x66#8, 0x0F#8, 0x3A#8, 0x14#8, 0x03#8, 0x00#8]).good ∧ ∃ t, step (st true [0x66#8, 0x0F#8, 0x3A#8, 0x14#8, 0x03#8, 0x00#8]) = .next t) ∧
      ((st false [0x66#8, 0x0F#8, 0x3A#8, 0x14#8, 0x03#8, 0x00#8]).good ∧ ∃ t, step (st false [0x66#8, 0x0F#8, 0x3A#8, 0x14#8, 0x03#8, 0x00#8]) = .next t) := by
  have h : ∀ m, (st m [0x66#8, 0x0F#8, 0x3A#8, 0x14#8, 0x03#8, 0x00#8]).good := by unfold State.good; decide +kernel
  exact ⟨⟨h true, next_of (by decide +kernel)⟩, h false, next_of (by decide +kernel)⟩

theorem test_witness_StepRunsTheDecodedInstruction :
    (∃ x, (env { (st true [0x66#8, 0x0F#8, 0x3A#8, 0x14#8, 0x03#8, 0x00#8]) with rip := 0x1006#64 } fun e => { e with text := some ⟨0x1000#64, 6⟩ }).env.text = some x ∧ (0x1006#64 : Word) = (st true [0x66#8, 0x0F#8, 0x3A#8, 0x14#8, 0x03#8, 0x00#8]).wrapLin (x.start + BitVec.ofNat 64 x.len)) ∧
      ((st false [0x66#8, 0x0F#8, 0x3A#8, 0x14#8, 0x03#8, 0x00#8]).atEnd = false ∧
        decode false ((st false [0x66#8, 0x0F#8, 0x3A#8, 0x14#8, 0x03#8, 0x00#8]).fetchFrom Config.maxLen 0).1 = .ok (.pextrb (leg [.opSize] 6) (.mem mB) 0#4 0#8) []) ∧
      ((st true [0x90#8]).atEnd = false ∧ decode true ((st true [0x90#8]).fetchFrom Config.maxLen 0).1 = .reject .unknownOpcode) ∧
      ((st true [0x66#8, 0xC4#8, 0xE4#8, 0x79#8, 0x01#8]).atEnd = false ∧ decode true ((st true [0x66#8, 0xC4#8, 0xE4#8, 0x79#8, 0x01#8]).fetchFrom Config.maxLen 0).1 = .undefined) ∧
      ((st true [0x66#8, 0x0F#8, 0x3A#8, 0x14#8, 0x03#8]).atEnd = false ∧ decode true ((st true [0x66#8, 0x0F#8, 0x3A#8, 0x14#8, 0x03#8]).fetchFrom Config.maxLen 0).1 = .truncated ∧
        ((st true [0x66#8, 0x0F#8, 0x3A#8, 0x14#8, 0x03#8]).fetchFrom Config.maxLen 0).1.length < 15) ∧
      ((st true (List.replicate 15 0x66#8)).atEnd = false ∧
        decode true ((st true (List.replicate 15 0x66#8)).fetchFrom Config.maxLen 0).1 = .truncated ∧
        ((st true (List.replicate 15 0x66#8)).fetchFrom Config.maxLen 0).1.length = 15) := by
  refine ⟨⟨⟨0x1000#64, 6⟩, rfl, by decide⟩, ?_⟩
  decide +kernel

theorem test_witness_StepRunsTheEncodedInstruction :
    (st false [0x66#8, 0x0F#8, 0x3A#8, 0x14#8, 0x03#8, 0x00#8]).atEnd = false ∧
      (.pextrb (leg [.opSize] 6) (.mem mB) 0#4 0#8 : Instr).wf false = true ∧
      ∀ j, (hj : j < (encode (.pextrb (leg [.opSize] 6) (.mem mB) 0#4 0#8)).length) →
        (st false [0x66#8, 0x0F#8, 0x3A#8, 0x14#8, 0x03#8, 0x00#8]).fetchByte j = .ok (encode (.pextrb (leg [.opSize] 6) (.mem mB) 0#4 0#8))[j] := by
  refine ⟨by decide, by decide, fun j hj => ?_⟩
  have h : okIs ((st false [0x66#8, 0x0F#8, 0x3A#8, 0x14#8, 0x03#8, 0x00#8]).fetchByte j) (encode (.pextrb (leg [.opSize] 6) (.mem mB) 0#4 0#8))[j] = true := by
    revert j
    decide +kernel
  cases hr : (st false [0x66#8, 0x0F#8, 0x3A#8, 0x14#8, 0x03#8, 0x00#8]).fetchByte j <;> simp_all [okIs]

/-- The last canonical byte below the hole, the last byte of a flat 32-bit segment, the last byte within a limit. -/
abbrev atTop64 : State := { State.reset with rip := 0x7FFFFFFFFFFF#64, mem := [(0x7FFFFFFFFFFF, 0x90#8), (0x800000000000, 0x90#8)] }
abbrev atTop32 : State := { State.reset with rip := 0xFFFFFFFF#64, mem := [(0, 0x90#8), (0xFFFFFFFF, 0x90#8)], env := { Env.reset with mode64 := false } }
abbrev atLimit : State := { launch false [0x90#8, 0x90#8] [] with env := { Env.reset with mode64 := false, segs := { Env.reset.segs with cs := ⟨0#64, .limited 0x1000#32 true false⟩ } } }

/-- The edges of each branch: the byte is fetched, the next one is not. -/
theorem test_witness_FetchReadsMemoryThroughCs :
    (isOk (atTop64.fetchByte 0) = true ∧ isOk (atTop64.fetchByte 1) = false) ∧
      (isOk (atTop32.fetchByte 0) = true ∧ isOk (atTop32.fetchByte 1) = false) ∧
      isOk (atLimit.fetchByte 0) = true ∧ isOk (atLimit.fetchByte 1) = false := by
  decide +kernel

/-- Sixteen bytes: twelve 66 bytes before PHADDW xmm0, xmm1. -/
abbrev longBytes : List Byte := [0x66#8, 0x66#8, 0x66#8, 0x66#8, 0x66#8, 0x66#8, 0x66#8, 0x66#8, 0x66#8, 0x66#8, 0x66#8, 0x66#8, 0x0F#8, 0x38#8, 0x01#8, 0xC1#8]

theorem longBytes_fetch : ∀ j, (h : j < longBytes.length) → (launch true longBytes []).fetchByte j = .ok longBytes[j] := by
  intro j h
  have h' : okIs ((launch true longBytes []).fetchByte j) longBytes[j] = true := by
    revert j
    decide +kernel
  cases hr : (launch true longBytes []).fetchByte j <;> simp_all [okIs]

theorem test_witness_OverlongInstructionRaisesGp :
    (launch true longBytes []).atEnd = false ∧
      decode true longBytes = .ok (.phaddwXmm ⟨List.replicate 12 .opSize, none, 16⟩ 0#4 (.reg 1#4)) [] ∧
      15 < (.phaddwXmm ⟨List.replicate 12 .opSize, none, 16⟩ 0#4 (.reg 1#4) : Instr).len ∧
      (∀ j < 15, ∃ b, longBytes[j]? = some b ∧ (launch true longBytes []).fetchByte j = .ok b) ∧
      faults (launch true longBytes []) 13 (some 0#32) none = true := by
  refine ⟨by decide, by decide, by decide, fun j hj => ?_, by decide +kernel⟩
  have h : j < longBytes.length := Nat.lt_succ_of_lt hj
  exact ⟨longBytes[j], List.getElem?_eq_getElem h, longBytes_fetch j h⟩

theorem test_witness_StepKeepsProgramText :
    (∃ t, step (env (st true [0x66#8, 0x0F#8, 0x3A#8, 0x14#8, 0x03#8, 0x00#8]) fun e => { e with text := some ⟨0x1000#64, 6⟩ }) = .next t) ∧
      0x1005 ∈ (env (st true [0x66#8, 0x0F#8, 0x3A#8, 0x14#8, 0x03#8, 0x00#8]) fun e => { e with text := some ⟨0x1000#64, 6⟩ }).textAddrs := ⟨next_of (by decide +kernel), by decide +kernel⟩

theorem test_witness_HighRegistersUntouchedIn32BitMode :
    (st false [0x66#8, 0x0F#8, 0x3A#8, 0x14#8, 0x03#8, 0x00#8]).env.mode64 = false ∧
      (∃ t, step (st false [0x66#8, 0x0F#8, 0x3A#8, 0x14#8, 0x03#8, 0x00#8]) = .next t) ∧
      8 ≤ (8#4).toNat ∧
      8 ≤ (15#4).toNat := ⟨rfl, next_of (by decide +kernel), by decide, by decide⟩

theorem test_witness_RipAdvancesAndSystemStateStays :
    ((.pextrb (leg [.opSize] 6) (.mem mB) 0#4 0#8) : Instr).wf (st true []).env.mode64 = true ∧
      (∃ t, exec (.pextrb (leg [.opSize] 6) (.mem mB) 0#4 0#8) (st true []) = .next t) ∧
      ∃ o, exec (.pextrb (leg [.opSize] 6) (.mem mB) 0#4 0#8) (env (st true []) fun e => { e with cr0 := 4#64 }) = .fault (.exception o) := ⟨by decide, next_of (by decide +kernel), ⟨6, none, none, 0x1000#64⟩, fault_of (by decide +kernel)⟩

theorem test_witness_FlagsAndMxcsrAreNotRead :
    (0xFFFFFFFFFFFBFFFF#64).getLsbD 18 = (st true []).rflags.getLsbD 18 := by decide

theorem test_witness_CplMattersOnlyThroughChecks :
    cr0AM (st true []) = false ∧
      (st true []).env.trans = [] := ⟨by decide, rfl⟩

theorem test_witness_MemoryChangesOnlyByStores :
    (∃ t, exec (.phaddwMmx eM 1#3 (.mem mB)) (st true []) = .next t) ∧
      ((.phaddwMmx eM 1#3 (.mem mB)) : Instr).row.store = false ∧
      (∃ t, exec (.pextrb (leg [.opSize] 6) (.reg 3#4) 0#4 0#8) (st true []) = .next t) ∧
      ((.pextrb (leg [.opSize] 6) (.reg 3#4) 0#4 0#8) : Instr).memOp = none := ⟨next_of (by decide +kernel), rfl, next_of (by decide +kernel), rfl⟩

theorem test_witness_X87StateChangesOnlyByMmxForms :
    (∃ t, exec (.phaddwMmx eM 1#3 (.mem mB)) (st true []) = .next t) ∧
      ((.phaddwMmx eM 1#3 (.mem mB)) : Instr).row.kind = .mmx ∧
      (∃ t, exec (.phaddwXmm eS 1#4 (.mem mB)) (st true []) = .next t) ∧
      ((.phaddwXmm eS 1#4 (.mem mB)) : Instr).row.kind ≠ .mmx := ⟨next_of (by decide +kernel), rfl, next_of (by decide +kernel), by decide⟩

theorem test_witness_UpperHalvesByEncoding :
    (∃ t, exec (.phaddwXmm eS 1#4 (.mem mB)) (st true []) = .next t) ∧
      ((.phaddwXmm eS 1#4 (.mem mB)) : Instr).row.kind = .sse ∧
      (∃ t, exec (.vphaddwXmm eV 1#4 0#4 (.mem mB)) (st true []) = .next t) ∧
      ((.vphaddwXmm eV 1#4 0#4 (.mem mB)) : Instr).row.kind = .vex ∧
      ((.vphaddwXmm eV 1#4 0#4 (.mem mB)) : Instr).row.bytes ≤ 16 ∧
      (∃ t, exec (.pextR32 eV 1#4 0#4 (.mem mB)) (st true []) = .next t) ∧
      (∃ t, exec (.phaddwMmx eM 1#3 (.mem mB)) (st true []) = .next t) := ⟨next_of (by decide +kernel), rfl, next_of (by decide +kernel), rfl, by decide, next_of (by decide +kernel), next_of (by decide +kernel)⟩

theorem test_witness_UdRaisedExactly :
    ((.phaddwXmm eS 1#4 (.mem mB)) : Instr).wf true = true ∧
      udCond (.phaddwXmm eS 1#4 (.mem mB)) (st true []) = false ∧
      udCond (.phaddwXmm eS 1#4 (.mem mB)) (env (st true []) fun e => { e with cr0 := 4#64 }) = true := by decide +kernel

theorem test_witness_NmAndMfRaisedExactly :
    ((.phaddwMmx eM 1#3 (.mem mB)) : Instr).wf true = true ∧
      udCond (.phaddwMmx eM 1#3 (.mem mB)) (env (st true []) fun e => { e with cr0 := 8#64 }) = false ∧
      vexWOpen (.phaddwMmx eM 1#3 (.mem mB)) (env (st true []) fun e => { e with cr0 := 8#64 }) = false ∧
      cr0TS (env (st true []) fun e => { e with cr0 := 8#64 }) = true ∧
      udCond (.phaddwMmx eM 1#3 (.mem mB)) (env (st true []) fun e => { e with x87Pending := true }) = false ∧
      vexWOpen (.phaddwMmx eM 1#3 (.mem mB)) (env (st true []) fun e => { e with x87Pending := true }) = false ∧
      cr0TS (env (st true []) fun e => { e with x87Pending := true }) = false ∧
      (env (st true []) fun e => { e with x87Pending := true }).env.x87Pending = true := by decide +kernel

/-- Each branch: #SS and #GP of the segment check, #GP of the alignment, #PF alone, #PF with #AC, #AC alone. -/
theorem test_witness_MemoryOperandFaultsInOrder :
    (((.pextR32 (vex0 0#4 6) 1#4 0#4 (.mem (.base 5#4 (.d8 0#8)))) : Instr).wf true = true ∧ passesChecks (.pextR32 (vex0 0#4 6) 1#4 0#4 (.mem (.base 5#4 (.d8 0#8)))) (gp (st true []) 5 0x0000800000000000#64) = true ∧ ((.pextR32 (vex0 0#4 6) 1#4 0#4 (.mem (.base 5#4 (.d8 0#8)))) : Instr).memOp = some (.base 5#4 (.d8 0#8)) ∧
        operandSeg true ((.pextR32 (vex0 0#4 6) 1#4 0#4 (.mem (.base 5#4 (.d8 0#8)))) : Instr).prefixes (.base 5#4 (.d8 0#8)) = .ss ∧ (gp (st true []) 5 0x0000800000000000#64).segOk (operandSeg true ((.pextR32 (vex0 0#4 6) 1#4 0#4 (.mem (.base 5#4 (.d8 0#8)))) : Instr).prefixes (.base 5#4 (.d8 0#8))) ((gp (st true []) 5 0x0000800000000000#64).offset ((.pextR32 (vex0 0#4 6) 1#4 0#4 (.mem (.base 5#4 (.d8 0#8)))) : Instr).prefixes ((.pextR32 (vex0 0#4 6) 1#4 0#4 (.mem (.base 5#4 (.d8 0#8)))) : Instr).len (.base 5#4 (.d8 0#8))) ((.pextR32 (vex0 0#4 6) 1#4 0#4 (.mem (.base 5#4 (.d8 0#8)))) : Instr).row.bytes ((.pextR32 (vex0 0#4 6) 1#4 0#4 (.mem (.base 5#4 (.d8 0#8)))) : Instr).row.store = false) ∧
      (((.pextR32 eV 1#4 0#4 (.mem mB)) : Instr).wf true = true ∧ passesChecks (.pextR32 eV 1#4 0#4 (.mem mB)) (gp (st true []) 3 0x0000800000000000#64) = true ∧ ((.pextR32 eV 1#4 0#4 (.mem mB)) : Instr).memOp = some mB ∧
        operandSeg true ((.pextR32 eV 1#4 0#4 (.mem mB)) : Instr).prefixes mB ≠ .ss ∧ (gp (st true []) 3 0x0000800000000000#64).segOk (operandSeg true ((.pextR32 eV 1#4 0#4 (.mem mB)) : Instr).prefixes mB) ((gp (st true []) 3 0x0000800000000000#64).offset ((.pextR32 eV 1#4 0#4 (.mem mB)) : Instr).prefixes ((.pextR32 eV 1#4 0#4 (.mem mB)) : Instr).len mB) ((.pextR32 eV 1#4 0#4 (.mem mB)) : Instr).row.bytes ((.pextR32 eV 1#4 0#4 (.mem mB)) : Instr).row.store = false) ∧
      (((.phaddwXmm eS 1#4 (.mem mB)) : Instr).wf true = true ∧ passesChecks (.phaddwXmm eS 1#4 (.mem mB)) (gp (st true []) 3 0x2008#64) = true ∧ (gp (st true []) 3 0x2008#64).segOk (operandSeg true ((.phaddwXmm eS 1#4 (.mem mB)) : Instr).prefixes mB) ((gp (st true []) 3 0x2008#64).offset ((.phaddwXmm eS 1#4 (.mem mB)) : Instr).prefixes ((.phaddwXmm eS 1#4 (.mem mB)) : Instr).len mB) ((.phaddwXmm eS 1#4 (.mem mB)) : Instr).row.bytes ((.phaddwXmm eS 1#4 (.mem mB)) : Instr).row.store = true ∧
        mustAlign16 (.phaddwXmm eS 1#4 (.mem mB)) (gp (st true []) 3 0x2008#64) = true ∧ ((gp (st true []) 3 0x2008#64).linear (operandSeg true ((.phaddwXmm eS 1#4 (.mem mB)) : Instr).prefixes mB) ((gp (st true []) 3 0x2008#64).offset ((.phaddwXmm eS 1#4 (.mem mB)) : Instr).prefixes ((.phaddwXmm eS 1#4 (.mem mB)) : Instr).len mB)).toNat % 16 ≠ 0) ∧
      (((.phaddwMmx eM 1#3 (.mem mB)) : Instr).wf true = true ∧ passesChecks (.phaddwMmx eM 1#3 (.mem mB)) (env (st true []) fun e => { e with trans := [⟨⟨0x2004, 0x1000⟩, .read, 3#2, .pageFault 4#32⟩] }) = true ∧ (env (st true []) fun e => { e with trans := [⟨⟨0x2004, 0x1000⟩, .read, 3#2, .pageFault 4#32⟩] }).segOk (operandSeg true ((.phaddwMmx eM 1#3 (.mem mB)) : Instr).prefixes mB) ((env (st true []) fun e => { e with trans := [⟨⟨0x2004, 0x1000⟩, .read, 3#2, .pageFault 4#32⟩] }).offset ((.phaddwMmx eM 1#3 (.mem mB)) : Instr).prefixes ((.phaddwMmx eM 1#3 (.mem mB)) : Instr).len mB) ((.phaddwMmx eM 1#3 (.mem mB)) : Instr).row.bytes ((.phaddwMmx eM 1#3 (.mem mB)) : Instr).row.store = true ∧ ((env (st true []) fun e => { e with trans := [⟨⟨0x2004, 0x1000⟩, .read, 3#2, .pageFault 4#32⟩] }).pageFault (accessOf (.phaddwMmx eM 1#3 (.mem mB))) ((env (st true []) fun e => { e with trans := [⟨⟨0x2004, 0x1000⟩, .read, 3#2, .pageFault 4#32⟩] }).linBytes ((env (st true []) fun e => { e with trans := [⟨⟨0x2004, 0x1000⟩, .read, 3#2, .pageFault 4#32⟩] }).linear (operandSeg true ((.phaddwMmx eM 1#3 (.mem mB)) : Instr).prefixes mB) ((env (st true []) fun e => { e with trans := [⟨⟨0x2004, 0x1000⟩, .read, 3#2, .pageFault 4#32⟩] }).offset ((.phaddwMmx eM 1#3 (.mem mB)) : Instr).prefixes ((.phaddwMmx eM 1#3 (.mem mB)) : Instr).len mB)) ((.phaddwMmx eM 1#3 (.mem mB)) : Instr).row.bytes)).isSome = true ∧ (env (st true []) fun e => { e with trans := [⟨⟨0x2004, 0x1000⟩, .read, 3#2, .pageFault 4#32⟩] }).misaligned ((env (st true []) fun e => { e with trans := [⟨⟨0x2004, 0x1000⟩, .read, 3#2, .pageFault 4#32⟩] }).linear (operandSeg true ((.phaddwMmx eM 1#3 (.mem mB)) : Instr).prefixes mB) ((env (st true []) fun e => { e with trans := [⟨⟨0x2004, 0x1000⟩, .read, 3#2, .pageFault 4#32⟩] }).offset ((.phaddwMmx eM 1#3 (.mem mB)) : Instr).prefixes ((.phaddwMmx eM 1#3 (.mem mB)) : Instr).len mB)) ((.phaddwMmx eM 1#3 (.mem mB)) : Instr).row.bytes = false) ∧
      (((.pextR32 eV 1#4 0#4 (.mem mB)) : Instr).wf true = true ∧ passesChecks (.pextR32 eV 1#4 0#4 (.mem mB)) { env (gp (st true []) 3 0x2001#64) (fun e => { e with cr0 := 0x40000#64, trans := [⟨⟨0x2004, 0x1000⟩, .read, 3#2, .pageFault 4#32⟩] }) with rflags := 0x40000#64 } = true ∧ { env (gp (st true []) 3 0x2001#64) (fun e => { e with cr0 := 0x40000#64, trans := [⟨⟨0x2004, 0x1000⟩, .read, 3#2, .pageFault 4#32⟩] }) with rflags := 0x40000#64 }.segOk (operandSeg true ((.pextR32 eV 1#4 0#4 (.mem mB)) : Instr).prefixes mB) ({ env (gp (st true []) 3 0x2001#64) (fun e => { e with cr0 := 0x40000#64, trans := [⟨⟨0x2004, 0x1000⟩, .read, 3#2, .pageFault 4#32⟩] }) with rflags := 0x40000#64 }.offset ((.pextR32 eV 1#4 0#4 (.mem mB)) : Instr).prefixes ((.pextR32 eV 1#4 0#4 (.mem mB)) : Instr).len mB) ((.pextR32 eV 1#4 0#4 (.mem mB)) : Instr).row.bytes ((.pextR32 eV 1#4 0#4 (.mem mB)) : Instr).row.store = true ∧ ({ env (gp (st true []) 3 0x2001#64) (fun e => { e with cr0 := 0x40000#64, trans := [⟨⟨0x2004, 0x1000⟩, .read, 3#2, .pageFault 4#32⟩] }) with rflags := 0x40000#64 }.pageFault (accessOf (.pextR32 eV 1#4 0#4 (.mem mB))) ({ env (gp (st true []) 3 0x2001#64) (fun e => { e with cr0 := 0x40000#64, trans := [⟨⟨0x2004, 0x1000⟩, .read, 3#2, .pageFault 4#32⟩] }) with rflags := 0x40000#64 }.linBytes ({ env (gp (st true []) 3 0x2001#64) (fun e => { e with cr0 := 0x40000#64, trans := [⟨⟨0x2004, 0x1000⟩, .read, 3#2, .pageFault 4#32⟩] }) with rflags := 0x40000#64 }.linear (operandSeg true ((.pextR32 eV 1#4 0#4 (.mem mB)) : Instr).prefixes mB) ({ env (gp (st true []) 3 0x2001#64) (fun e => { e with cr0 := 0x40000#64, trans := [⟨⟨0x2004, 0x1000⟩, .read, 3#2, .pageFault 4#32⟩] }) with rflags := 0x40000#64 }.offset ((.pextR32 eV 1#4 0#4 (.mem mB)) : Instr).prefixes ((.pextR32 eV 1#4 0#4 (.mem mB)) : Instr).len mB)) ((.pextR32 eV 1#4 0#4 (.mem mB)) : Instr).row.bytes)).isSome = true ∧ { env (gp (st true []) 3 0x2001#64) (fun e => { e with cr0 := 0x40000#64, trans := [⟨⟨0x2004, 0x1000⟩, .read, 3#2, .pageFault 4#32⟩] }) with rflags := 0x40000#64 }.misaligned ({ env (gp (st true []) 3 0x2001#64) (fun e => { e with cr0 := 0x40000#64, trans := [⟨⟨0x2004, 0x1000⟩, .read, 3#2, .pageFault 4#32⟩] }) with rflags := 0x40000#64 }.linear (operandSeg true ((.pextR32 eV 1#4 0#4 (.mem mB)) : Instr).prefixes mB) ({ env (gp (st true []) 3 0x2001#64) (fun e => { e with cr0 := 0x40000#64, trans := [⟨⟨0x2004, 0x1000⟩, .read, 3#2, .pageFault 4#32⟩] }) with rflags := 0x40000#64 }.offset ((.pextR32 eV 1#4 0#4 (.mem mB)) : Instr).prefixes ((.pextR32 eV 1#4 0#4 (.mem mB)) : Instr).len mB)) ((.pextR32 eV 1#4 0#4 (.mem mB)) : Instr).row.bytes = true) ∧
      (((.pextR32 eV 1#4 0#4 (.mem mB)) : Instr).wf true = true ∧ passesChecks (.pextR32 eV 1#4 0#4 (.mem mB)) { env (gp (st true []) 3 0x2001#64) (fun e => { e with cr0 := 0x40000#64 }) with rflags := 0x40000#64 } = true ∧ { env (gp (st true []) 3 0x2001#64) (fun e => { e with cr0 := 0x40000#64 }) with rflags := 0x40000#64 }.segOk (operandSeg true ((.pextR32 eV 1#4 0#4 (.mem mB)) : Instr).prefixes mB) ({ env (gp (st true []) 3 0x2001#64) (fun e => { e with cr0 := 0x40000#64 }) with rflags := 0x40000#64 }.offset ((.pextR32 eV 1#4 0#4 (.mem mB)) : Instr).prefixes ((.pextR32 eV 1#4 0#4 (.mem mB)) : Instr).len mB) ((.pextR32 eV 1#4 0#4 (.mem mB)) : Instr).row.bytes ((.pextR32 eV 1#4 0#4 (.mem mB)) : Instr).row.store = true ∧ ({ env (gp (st true []) 3 0x2001#64) (fun e => { e with cr0 := 0x40000#64 }) with rflags := 0x40000#64 }.pageFault (accessOf (.pextR32 eV 1#4 0#4 (.mem mB))) ({ env (gp (st true []) 3 0x2001#64) (fun e => { e with cr0 := 0x40000#64 }) with rflags := 0x40000#64 }.linBytes ({ env (gp (st true []) 3 0x2001#64) (fun e => { e with cr0 := 0x40000#64 }) with rflags := 0x40000#64 }.linear (operandSeg true ((.pextR32 eV 1#4 0#4 (.mem mB)) : Instr).prefixes mB) ({ env (gp (st true []) 3 0x2001#64) (fun e => { e with cr0 := 0x40000#64 }) with rflags := 0x40000#64 }.offset ((.pextR32 eV 1#4 0#4 (.mem mB)) : Instr).prefixes ((.pextR32 eV 1#4 0#4 (.mem mB)) : Instr).len mB)) ((.pextR32 eV 1#4 0#4 (.mem mB)) : Instr).row.bytes)).isSome = false ∧ { env (gp (st true []) 3 0x2001#64) (fun e => { e with cr0 := 0x40000#64 }) with rflags := 0x40000#64 }.misaligned ({ env (gp (st true []) 3 0x2001#64) (fun e => { e with cr0 := 0x40000#64 }) with rflags := 0x40000#64 }.linear (operandSeg true ((.pextR32 eV 1#4 0#4 (.mem mB)) : Instr).prefixes mB) ({ env (gp (st true []) 3 0x2001#64) (fun e => { e with cr0 := 0x40000#64 }) with rflags := 0x40000#64 }.offset ((.pextR32 eV 1#4 0#4 (.mem mB)) : Instr).prefixes ((.pextR32 eV 1#4 0#4 (.mem mB)) : Instr).len mB)) ((.pextR32 eV 1#4 0#4 (.mem mB)) : Instr).row.bytes = true) := by
  decide +kernel

theorem test_witness_PageFaultReportsItsPage :
    (env (st true []) fun e => { e with trans := [⟨⟨0x2004, 0x1000⟩, .read, 3#2, .pageFault 4#32⟩] }).pageFault .read [0x2003#64, 0x2004#64] = some (.pf 4#32 0x2004#64) := by decide +kernel

theorem test_witness_FaultOutcomeOfEveryStep :
    (∃ o, step (launch false [0xF0#8, 0x0F#8, 0xC4#8, 0xC0#8, 0x00#8] []) = .fault (.exception o)) ∧
      (∃ o, step (gp (launch true [0x66#8, 0x0F#8, 0x38#8, 0x01#8, 0x00#8] []) 0 0x1008#64) = .fault (.exception o)) ∧
      ∃ o, step (env (st true [0x0F#8, 0x38#8, 0x01#8, 0x03#8]) fun e => { e with trans := [⟨⟨0x2004, 0x1000⟩, .read, 3#2, .pageFault 4#32⟩] }) = .fault (.exception o) := ⟨⟨⟨6, none, none, 0x1000#64⟩, fault_of (by decide +kernel)⟩, ⟨⟨13, some 0#32, none, 0x1000#64⟩, fault_of (by decide +kernel)⟩,
    ⟨14, some 4#32, some 0x2004#64, 0x1000#64⟩, fault_of (by decide +kernel)⟩

theorem test_witness_CompletesExactly :
    (((.phaddwXmm eS 1#4 (.mem mB)) : Instr).wf true = true ∧ (∃ t, exec (.phaddwXmm eS 1#4 (.mem mB)) (st true []) = .next t)) ∧
      ((.phaddwMmx eM 1#3 (.mem mB)) : Instr).wf false = true := ⟨⟨by decide, next_of (by decide +kernel)⟩, by decide⟩

/-- Each clause: a last byte outside PHYS_MEM, a byte of the text, a byte that nothing has written. -/
theorem test_witness_UnreadyOperandStopsByName :
    (((.phaddwMmx eM 1#3 (.mem mB)) : Instr).wf true = true ∧ passesChecks (.phaddwMmx eM 1#3 (.mem mB)) (env (st true []) fun e => { e with physMem := some [⟨0, 0x2000⟩] }) = true ∧ ((.phaddwMmx eM 1#3 (.mem mB)) : Instr).memOp = some mB ∧ accepts (accessOf (.phaddwMmx eM 1#3 (.mem mB))) (mustAlign16 (.phaddwMmx eM 1#3 (.mem mB)) (env (st true []) fun e => { e with physMem := some [⟨0, 0x2000⟩] })) ((.phaddwMmx eM 1#3 (.mem mB)) : Instr).row.bytes (operandSeg true ((.phaddwMmx eM 1#3 (.mem mB)) : Instr).prefixes mB)
        ((env (st true []) fun e => { e with physMem := some [⟨0, 0x2000⟩] }).offset ((.phaddwMmx eM 1#3 (.mem mB)) : Instr).prefixes ((.phaddwMmx eM 1#3 (.mem mB)) : Instr).len mB) (env (st true []) fun e => { e with physMem := some [⟨0, 0x2000⟩] }) ∧
        (env (st true []) fun e => { e with physMem := some [⟨0, 0x2000⟩] }).operandByte (accessOf (.phaddwMmx eM 1#3 (.mem mB))) (operandSeg true ((.phaddwMmx eM 1#3 (.mem mB)) : Instr).prefixes mB)
        ((env (st true []) fun e => { e with physMem := some [⟨0, 0x2000⟩] }).offset ((.phaddwMmx eM 1#3 (.mem mB)) : Instr).prefixes ((.phaddwMmx eM 1#3 (.mem mB)) : Instr).len mB) 7 = some 0x2007 ∧ (env (st true []) fun e => { e with physMem := some [⟨0, 0x2000⟩] }).inPhysMem 0x2007 = false) ∧
      (((.pextrb (leg [.opSize] 6) (.mem mB) 0#4 0#8) : Instr).wf true = true ∧ passesChecks (.pextrb (leg [.opSize] 6) (.mem mB) 0#4 0#8) (env (st true []) fun e => { e with text := some ⟨0x2000#64, 1⟩ }) = true ∧ ((.pextrb (leg [.opSize] 6) (.mem mB) 0#4 0#8) : Instr).memOp = some mB ∧ accepts (accessOf (.pextrb (leg [.opSize] 6) (.mem mB) 0#4 0#8)) (mustAlign16 (.pextrb (leg [.opSize] 6) (.mem mB) 0#4 0#8) (env (st true []) fun e => { e with text := some ⟨0x2000#64, 1⟩ })) ((.pextrb (leg [.opSize] 6) (.mem mB) 0#4 0#8) : Instr).row.bytes (operandSeg true ((.pextrb (leg [.opSize] 6) (.mem mB) 0#4 0#8) : Instr).prefixes mB)
        ((env (st true []) fun e => { e with text := some ⟨0x2000#64, 1⟩ }).offset ((.pextrb (leg [.opSize] 6) (.mem mB) 0#4 0#8) : Instr).prefixes ((.pextrb (leg [.opSize] 6) (.mem mB) 0#4 0#8) : Instr).len mB) (env (st true []) fun e => { e with text := some ⟨0x2000#64, 1⟩ }) ∧
        (env (st true []) fun e => { e with text := some ⟨0x2000#64, 1⟩ }).operandByte (accessOf (.pextrb (leg [.opSize] 6) (.mem mB) 0#4 0#8)) (operandSeg true ((.pextrb (leg [.opSize] 6) (.mem mB) 0#4 0#8) : Instr).prefixes mB)
        ((env (st true []) fun e => { e with text := some ⟨0x2000#64, 1⟩ }).offset ((.pextrb (leg [.opSize] 6) (.mem mB) 0#4 0#8) : Instr).prefixes ((.pextrb (leg [.opSize] 6) (.mem mB) 0#4 0#8) : Instr).len mB) 0 = some 0x2000 ∧ (env (st true []) fun e => { e with text := some ⟨0x2000#64, 1⟩ }).inPhysMem 0x2000 = true ∧ 0x2000 ∈ (env (st true []) fun e => { e with text := some ⟨0x2000#64, 1⟩ }).textAddrs) ∧
      (((.phaddwMmx eM 1#3 (.mem mB)) : Instr).wf true = true ∧ passesChecks (.phaddwMmx eM 1#3 (.mem mB)) (env (gp (st true []) 3 0x201F#64) fun e => { e with physMem := some [⟨0, 0x3000⟩] }) = true ∧ ((.phaddwMmx eM 1#3 (.mem mB)) : Instr).memOp = some mB ∧ accepts (accessOf (.phaddwMmx eM 1#3 (.mem mB))) (mustAlign16 (.phaddwMmx eM 1#3 (.mem mB)) (env (gp (st true []) 3 0x201F#64) fun e => { e with physMem := some [⟨0, 0x3000⟩] })) ((.phaddwMmx eM 1#3 (.mem mB)) : Instr).row.bytes (operandSeg true ((.phaddwMmx eM 1#3 (.mem mB)) : Instr).prefixes mB)
        ((env (gp (st true []) 3 0x201F#64) fun e => { e with physMem := some [⟨0, 0x3000⟩] }).offset ((.phaddwMmx eM 1#3 (.mem mB)) : Instr).prefixes ((.phaddwMmx eM 1#3 (.mem mB)) : Instr).len mB) (env (gp (st true []) 3 0x201F#64) fun e => { e with physMem := some [⟨0, 0x3000⟩] }) ∧
        (env (gp (st true []) 3 0x201F#64) fun e => { e with physMem := some [⟨0, 0x3000⟩] }).operandByte (accessOf (.phaddwMmx eM 1#3 (.mem mB))) (operandSeg true ((.phaddwMmx eM 1#3 (.mem mB)) : Instr).prefixes mB)
        ((env (gp (st true []) 3 0x201F#64) fun e => { e with physMem := some [⟨0, 0x3000⟩] }).offset ((.phaddwMmx eM 1#3 (.mem mB)) : Instr).prefixes ((.phaddwMmx eM 1#3 (.mem mB)) : Instr).len mB) 1 = some 0x2020 ∧ (env (gp (st true []) 3 0x201F#64) fun e => { e with physMem := some [⟨0, 0x3000⟩] }).inPhysMem 0x2020 = true ∧ (env (gp (st true []) 3 0x201F#64) fun e => { e with physMem := some [⟨0, 0x3000⟩] }).mem.read 0x2020 = none) := by
  unfold accepts
  decide +kernel

theorem test_witness_StatedRefusalsIn32BitMode :
    decode false [0x0F#8, 0x38#8, 0x01#8, 0xCA#8] = .ok (.phaddwMmx eM 1#3 (.reg 2#3)) [] ∧
      (st false []).env.mode64 = false ∧
      udCond (.vpextrb (vex false false false true 0#4 false 6) (.reg 0#4) 1#4 0#8) (st false []) = false ∧
      vexWOpen (.vpextrb (vex false false false true 0#4 false 6) (.reg 0#4) 1#4 0#8) (st false []) = true := by decide +kernel

theorem test_witness_EffectiveOffset :
    32 ≤ 64 ∧
      16 ≤ 64 ∧
      ((st true []).env.mode64 = true ∧ hasAddrSize [.opSize] = false) ∧
      hasAddrSize [.addrSize] = (st true []).env.mode64 ∧
      hasAddrSize [] = (st false []).env.mode64 ∧
      (st false []).env.mode64 = false ∧
      hasAddrSize [.addrSize] = true := by decide

theorem test_witness_LinearAddressAndSegment :
    (∀ h, Prefix.seg h ∈ [Prefix.opSize] → false = true ∧ h ≠ .fs ∧ h ≠ .gs) ∧
      (∀ h, Prefix.seg h ∈ [Prefix.seg .ds] → true = true ∧ h ≠ .fs ∧ h ≠ .gs) ∧
      ∀ g, Prefix.addrSize ≠ .seg g := by
  refine ⟨?_, ?_, ?_⟩ <;> intro h <;> cases h <;> decide

theorem test_witness_PextGathersInOrder :
    31 < 32 ∧
      (0xFF00FFF0#32).getLsbD 31 = true ∧
      ((List.range 32).filter fun j => (0xFF00FFF0#32).getLsbD j).length ≤ 20 := by decide

theorem test_witness_HpairLayout :
    (64 ∈ [64, 128, 256] ∧ 16 ∈ [16, 32] ∧ 0 < 64 / min 64 128 ∧ 1 < min 64 128 / 16 / 2) ∧
      256 ∈ [64, 128, 256] ∧
      32 ∈ [16, 32] ∧
      1 < 256 / min 256 128 ∧
      1 < min 256 128 / 32 / 2 := by decide

theorem test_witness_MaddubsWords :
    256 ∈ [64, 128, 256] ∧
      15 < 256 / 16 ∧
      64 ∈ [64, 128, 256] ∧
      3 < 64 / 16 := by decide

theorem test_witness_MaddwdDwords :
    256 ∈ [64, 128, 256] ∧
      7 < 256 / 32 ∧
      (elem 16 0x8000800080008000#64 2 = 0x8000#16 ∧ elem 16 0x8000800080008000#64 3 = 0x8000#16) ∧
      elem 16 0x7FFF800080008000#64 3 ≠ 0x8000#16 := by decide

theorem test_witness_InsertReplacesOneElement :
    8 * 15 + 8 ≤ 128 ∧
      119 < 8 * 15 ∧
      8 * 15 + 8 ≤ 128 ∧
      64 * 0 + 64 ≤ 64 := by decide

theorem test_witness_PextResult :
    pextReady eV (st true []) ∧
      pextReady eV (st false []) ∧
      (st true []).env.mode64 = true ∧
      sourceIs false eV.prefixes eV.len (st true []).reg32 (.reg 1#4) ((st true []).reg32 1#4) (st true []) ∧
      sourceIs false eV.prefixes eV.len (st true []).reg32 (.mem mB : RM 4) (dat 32) (st true []) ∧
      sourceIs false eV.prefixes eV.len (st true []).reg64 (.reg 1#4) ((st true []).reg64 1#4) (st true []) ∧
      sourceIs false eV.prefixes eV.len (st true []).reg64 (.mem mB : RM 4) (dat 64) (st true []) ∧
      sourceIs false eV.prefixes eV.len (st false []).reg32 (.reg 1#4) ((st false []).reg32 1#4) (st false []) ∧
      sourceIs false eV.prefixes eV.len (st false []).reg32 (.mem mB : RM 4) (dat 32) (st false []) := ⟨by unfold pextReady; decide,
    by unfold pextReady; decide,
    by decide,
    source_of (by decide) (by decide +kernel),
    source_of (by decide) (by decide +kernel),
    source_of (by decide) (by decide +kernel),
    source_of (by decide) (by decide +kernel),
    source_of (by decide) (by decide +kernel),
    source_of (by decide) (by decide +kernel)⟩

theorem test_witness_PextrToRegister :
    sseReady .sse41 eS (st true []) ∧
      (st true []).env.mode64 = true := ⟨by unfold sseReady; decide,
    by decide⟩

theorem test_witness_VpextrToRegister :
    vexReady .avx (vex false false false true 0#4 false 6) (st true []) ∧
      (vex false false false true 0#4 false 6).l = false ∧
      (vex false false false true 0#4 false 6).srcReg (st true []).env.mode64 = 0#4 ∧
      vexWFine (vex false false false true 0#4 false 6) (st true []) ∧
      (st true []).env.mode64 = true := ⟨by unfold vexReady; decide, rfl, by decide, fun _ => rfl, rfl⟩

theorem test_witness_PextrToMemory :
    sseReady .sse41 eS (st true []) ∧
      (st true []).env.mode64 = true ∧
      (accepts .write false 1 (operandSeg (st true []).env.mode64 eS.prefixes mB) ((st true []).offset eS.prefixes eS.len mB) (st true []) ∧
        storable 1 (operandSeg (st true []).env.mode64 eS.prefixes mB) ((st true []).offset eS.prefixes eS.len mB) (st true [])) ∧
      (accepts .write false 4 (operandSeg (st true []).env.mode64 eS.prefixes mB) ((st true []).offset eS.prefixes eS.len mB) (st true []) ∧
        storable 4 (operandSeg (st true []).env.mode64 eS.prefixes mB) ((st true []).offset eS.prefixes eS.len mB) (st true [])) ∧
      (accepts .write false 8 (operandSeg (st true []).env.mode64 eS.prefixes mB) ((st true []).offset eS.prefixes eS.len mB) (st true []) ∧
        storable 8 (operandSeg (st true []).env.mode64 eS.prefixes mB) ((st true []).offset eS.prefixes eS.len mB) (st true [])) ∧
      (accepts .write false 2 (operandSeg (st true []).env.mode64 eS.prefixes mB) ((st true []).offset eS.prefixes eS.len mB) (st true []) ∧
        storable 2 (operandSeg (st true []).env.mode64 eS.prefixes mB) ((st true []).offset eS.prefixes eS.len mB) (st true [])) := ⟨by unfold sseReady; decide, rfl,
    ready_of (0#8) (by decide +kernel), ready_of (0#32) (by decide +kernel), ready_of (0#64) (by decide +kernel), ready_of (0#16) (by decide +kernel)⟩

theorem test_witness_VpextrToMemory :
    vexReady .avx (vex false false false true 0#4 false 6) (st true []) ∧
      (vex false false false true 0#4 false 6).l = false ∧
      (vex false false false true 0#4 false 6).srcReg (st true []).env.mode64 = 0#4 ∧
      vexWFine (vex false false false true 0#4 false 6) (st true []) ∧
      (st true []).env.mode64 = true ∧
      (accepts .write false 1 (operandSeg (st true []).env.mode64 (vex false false false true 0#4 false 6).prefixes mB) ((st true []).offset (vex false false false true 0#4 false 6).prefixes (vex false false false true 0#4 false 6).len mB) (st true []) ∧
        storable 1 (operandSeg (st true []).env.mode64 (vex false false false true 0#4 false 6).prefixes mB) ((st true []).offset (vex false false false true 0#4 false 6).prefixes (vex false false false true 0#4 false 6).len mB) (st true [])) ∧
      (accepts .write false 4 (operandSeg (st true []).env.mode64 (vex false false false true 0#4 false 6).prefixes mB) ((st true []).offset (vex false false false true 0#4 false 6).prefixes (vex false false false true 0#4 false 6).len mB) (st true []) ∧
        storable 4 (operandSeg (st true []).env.mode64 (vex false false false true 0#4 false 6).prefixes mB) ((st true []).offset (vex false false false true 0#4 false 6).prefixes (vex false false false true 0#4 false 6).len mB) (st true [])) ∧
      (accepts .write false 8 (operandSeg (st true []).env.mode64 (vex false false false true 0#4 false 6).prefixes mB) ((st true []).offset (vex false false false true 0#4 false 6).prefixes (vex false false false true 0#4 false 6).len mB) (st true []) ∧
        storable 8 (operandSeg (st true []).env.mode64 (vex false false false true 0#4 false 6).prefixes mB) ((st true []).offset (vex false false false true 0#4 false 6).prefixes (vex false false false true 0#4 false 6).len mB) (st true [])) ∧
      (accepts .write false 2 (operandSeg (st true []).env.mode64 (vex false false false true 0#4 false 6).prefixes mB) ((st true []).offset (vex false false false true 0#4 false 6).prefixes (vex false false false true 0#4 false 6).len mB) (st true []) ∧
        storable 2 (operandSeg (st true []).env.mode64 (vex false false false true 0#4 false 6).prefixes mB) ((st true []).offset (vex false false false true 0#4 false 6).prefixes (vex false false false true 0#4 false 6).len mB) (st true [])) := ⟨by unfold vexReady; decide, rfl, by decide, fun _ => rfl, rfl,
    ready_of (0#8) (by decide +kernel), ready_of (0#32) (by decide +kernel), ready_of (0#64) (by decide +kernel), ready_of (0#16) (by decide +kernel)⟩

theorem test_witness_PextrwFromMmx :
    mmxReady .sse eM (st true []) := by unfold mmxReady; decide

theorem test_witness_PextrwFromXmm :
    sseReady .sse2 eS (st true []) ∧
      sseReady .sse41 eS (st true []) ∧
      vexReady .avx (vex false false false true 0#4 false 6) (st true []) ∧
      (vex false false false true 0#4 false 6).l = false ∧
      (vex false false false true 0#4 false 6).srcReg (st true []).env.mode64 = 0#4 ∧
      vexWFine (vex false false false true 0#4 false 6) (st true []) := ⟨by unfold sseReady; decide, by unfold sseReady; decide, by unfold vexReady; decide, rfl, by decide, fun _ => rfl⟩

theorem test_witness_PhaddMmxForms :
    mmxReady .ssse3 eM (st true []) ∧
      sourceIs false eM.prefixes eM.len (st true []).mm (.reg 1#3) ((st true []).mm 1#3) (st true []) ∧
      sourceIs false eM.prefixes eM.len (st true []).mm (.mem mB : RM 3) (dat 64) (st true []) := ⟨by unfold mmxReady; decide,
    source_of (by decide) (by decide +kernel),
    source_of (by decide) (by decide +kernel)⟩

theorem test_witness_PhaddSseForms :
    sseReady .ssse3 eS (st true []) ∧
      sourceIs true eS.prefixes eS.len (st true []).xmm (.reg 1#4) ((st true []).xmm 1#4) (st true []) ∧
      sourceIs true eS.prefixes eS.len (st true []).xmm (.mem mB : RM 4) (dat 128) (st true []) := ⟨by unfold sseReady; decide,
    source_of (by decide) (by decide +kernel),
    source_of (by decide) (by decide +kernel)⟩

theorem test_witness_VphaddXmmForms :
    vexReady .avx eV (st true []) ∧
      sourceIs (st true []).env.vexM128Align eV.prefixes eV.len (st true []).xmm (.reg 1#4) ((st true []).xmm 1#4) (st true []) ∧
      sourceIs (st true []).env.vexM128Align eV.prefixes eV.len (st true []).xmm (.mem mB : RM 4) (dat 128) (st true []) := ⟨by unfold vexReady; decide,
    source_of (by decide) (by decide +kernel),
    source_of (by decide) (by decide +kernel)⟩

theorem test_witness_VphaddYmmForms :
    vexReady .avx2 eL (st true []) ∧
      sourceIs false eL.prefixes eL.len (st true []).ymmReg (.reg 1#4) ((st true []).ymmReg 1#4) (st true []) ∧
      sourceIs false eL.prefixes eL.len (st true []).ymmReg (.mem mB : RM 4) (dat 256) (st true []) := ⟨by unfold vexReady; decide,
    source_of (by decide) (by decide +kernel),
    source_of (by decide) (by decide +kernel)⟩

theorem test_witness_PhsubMmxForms :
    mmxReady .ssse3 eM (st true []) ∧
      sourceIs false eM.prefixes eM.len (st true []).mm (.reg 1#3) ((st true []).mm 1#3) (st true []) ∧
      sourceIs false eM.prefixes eM.len (st true []).mm (.mem mB : RM 3) (dat 64) (st true []) := ⟨by unfold mmxReady; decide,
    source_of (by decide) (by decide +kernel),
    source_of (by decide) (by decide +kernel)⟩

theorem test_witness_PhsubSseForms :
    sseReady .ssse3 eS (st true []) ∧
      sourceIs true eS.prefixes eS.len (st true []).xmm (.reg 1#4) ((st true []).xmm 1#4) (st true []) ∧
      sourceIs true eS.prefixes eS.len (st true []).xmm (.mem mB : RM 4) (dat 128) (st true []) := ⟨by unfold sseReady; decide,
    source_of (by decide) (by decide +kernel),
    source_of (by decide) (by decide +kernel)⟩

theorem test_witness_VphsubXmmForms :
    vexReady .avx eV (st true []) ∧
      sourceIs (st true []).env.vexM128Align eV.prefixes eV.len (st true []).xmm (.reg 1#4) ((st true []).xmm 1#4) (st true []) ∧
      sourceIs (st true []).env.vexM128Align eV.prefixes eV.len (st true []).xmm (.mem mB : RM 4) (dat 128) (st true []) := ⟨by unfold vexReady; decide,
    source_of (by decide) (by decide +kernel),
    source_of (by decide) (by decide +kernel)⟩

theorem test_witness_VphsubYmmForms :
    vexReady .avx2 eL (st true []) ∧
      sourceIs false eL.prefixes eL.len (st true []).ymmReg (.reg 1#4) ((st true []).ymmReg 1#4) (st true []) ∧
      sourceIs false eL.prefixes eL.len (st true []).ymmReg (.mem mB : RM 4) (dat 256) (st true []) := ⟨by unfold vexReady; decide,
    source_of (by decide) (by decide +kernel),
    source_of (by decide) (by decide +kernel)⟩

theorem test_witness_PhminposuwForms :
    sseReady .sse41 eS (st true []) ∧
      vexReady .avx eV (st true []) ∧
      eV.l = false ∧
      eV.srcReg (st true []).env.mode64 = 0#4 ∧
      sourceIs true eS.prefixes eS.len (st true []).xmm (.reg 1#4) ((st true []).xmm 1#4) (st true []) ∧
      sourceIs true eS.prefixes eS.len (st true []).xmm (.mem mB : RM 4) (dat 128) (st true []) ∧
      sourceIs (st true []).env.vexM128Align eV.prefixes eV.len (st true []).xmm (.reg 1#4) ((st true []).xmm 1#4) (st true []) ∧
      sourceIs (st true []).env.vexM128Align eV.prefixes eV.len (st true []).xmm (.mem mB : RM 4) (dat 128) (st true []) := ⟨by unfold sseReady; decide,
    by unfold vexReady; decide,
    by decide,
    by decide,
    source_of (by decide) (by decide +kernel),
    source_of (by decide) (by decide +kernel),
    source_of (by decide) (by decide +kernel),
    source_of (by decide) (by decide +kernel)⟩

theorem test_witness_PinsrForms :
    sseReady .sse41 eS (st true []) ∧
      (st true []).env.mode64 = true ∧
      sourceIs false eS.prefixes eS.len (st true []).reg8 (.reg 1#4) ((st true []).reg8 1#4) (st true []) ∧
      sourceIs false eS.prefixes eS.len (st true []).reg8 (.mem mB : RM 4) (dat 8) (st true []) ∧
      sourceIs false eS.prefixes eS.len (st true []).reg32 (.reg 1#4) ((st true []).reg32 1#4) (st true []) ∧
      sourceIs false eS.prefixes eS.len (st true []).reg32 (.mem mB : RM 4) (dat 32) (st true []) ∧
      sourceIs false eS.prefixes eS.len (st true []).reg64 (.reg 1#4) ((st true []).reg64 1#4) (st true []) ∧
      sourceIs false eS.prefixes eS.len (st true []).reg64 (.mem mB : RM 4) (dat 64) (st true []) := ⟨by unfold sseReady; decide,
    by decide,
    source_of (by decide) (by decide +kernel),
    source_of (by decide) (by decide +kernel),
    source_of (by decide) (by decide +kernel),
    source_of (by decide) (by decide +kernel),
    source_of (by decide) (by decide +kernel),
    source_of (by decide) (by decide +kernel)⟩

theorem test_witness_VpinsrForms :
    vexReady .avx (vex false false false true 0#4 false 6) (st true []) ∧
      (vex false false false true 0#4 false 6).l = false ∧
      vexWFine (vex false false false true 0#4 false 6) (st true []) ∧
      (st true []).env.mode64 = true ∧
      sourceIs false (vex false false false true 0#4 false 6).prefixes (vex false false false true 0#4 false 6).len (st true []).reg8 (.reg 1#4) ((st true []).reg8 1#4) (st true []) ∧
      sourceIs false (vex false false false true 0#4 false 6).prefixes (vex false false false true 0#4 false 6).len (st true []).reg8 (.mem mB : RM 4) (dat 8) (st true []) ∧
      sourceIs false (vex false false false true 0#4 false 6).prefixes (vex false false false true 0#4 false 6).len (st true []).reg32 (.reg 1#4) ((st true []).reg32 1#4) (st true []) ∧
      sourceIs false (vex false false false true 0#4 false 6).prefixes (vex false false false true 0#4 false 6).len (st true []).reg32 (.mem mB : RM 4) (dat 32) (st true []) ∧
      sourceIs false (vex false false false true 0#4 false 6).prefixes (vex false false false true 0#4 false 6).len (st true []).reg64 (.reg 1#4) ((st true []).reg64 1#4) (st true []) ∧
      sourceIs false (vex false false false true 0#4 false 6).prefixes (vex false false false true 0#4 false 6).len (st true []).reg64 (.mem mB : RM 4) (dat 64) (st true []) := ⟨by unfold vexReady; decide, rfl, fun _ => rfl, rfl,
    source_of (by decide) (by decide +kernel), source_of (by decide) (by decide +kernel), source_of (by decide) (by decide +kernel), source_of (by decide) (by decide +kernel), source_of (by decide) (by decide +kernel), source_of (by decide) (by decide +kernel)⟩

theorem test_witness_PinsrwForms :
    mmxReady .sse eM (st true []) ∧
      sseReady .sse2 eS (st true []) ∧
      vexReady .avx (vex false false false true 0#4 false 6) (st true []) ∧
      (vex false false false true 0#4 false 6).l = false ∧
      vexWFine (vex false false false true 0#4 false 6) (st true []) ∧
      sourceIs false eM.prefixes eM.len (st true []).reg16 (.reg 1#4) ((st true []).reg16 1#4) (st true []) ∧
      sourceIs false eM.prefixes eM.len (st true []).reg16 (.mem mB : RM 4) (dat 16) (st true []) ∧
      sourceIs false eS.prefixes eS.len (st true []).reg16 (.reg 1#4) ((st true []).reg16 1#4) (st true []) ∧
      sourceIs false eS.prefixes eS.len (st true []).reg16 (.mem mB : RM 4) (dat 16) (st true []) ∧
      sourceIs false (vex false false false true 0#4 false 6).prefixes (vex false false false true 0#4 false 6).len (st true []).reg16 (.reg 1#4) ((st true []).reg16 1#4) (st true []) ∧
      sourceIs false (vex false false false true 0#4 false 6).prefixes (vex false false false true 0#4 false 6).len (st true []).reg16 (.mem mB : RM 4) (dat 16) (st true []) := ⟨by unfold mmxReady; decide, by unfold sseReady; decide, by unfold vexReady; decide, rfl, fun _ => rfl,
    source_of (by decide) (by decide +kernel), source_of (by decide) (by decide +kernel), source_of (by decide) (by decide +kernel), source_of (by decide) (by decide +kernel), source_of (by decide) (by decide +kernel), source_of (by decide) (by decide +kernel)⟩

theorem test_witness_PmaddubswLegacyForms :
    mmxReady .ssse3 eM (st true []) ∧
      sseReady .ssse3 eS (st true []) ∧
      sourceIs false eM.prefixes eM.len (st true []).mm (.reg 1#3) ((st true []).mm 1#3) (st true []) ∧
      sourceIs false eM.prefixes eM.len (st true []).mm (.mem mB : RM 3) (dat 64) (st true []) ∧
      sourceIs true eS.prefixes eS.len (st true []).xmm (.reg 1#4) ((st true []).xmm 1#4) (st true []) ∧
      sourceIs true eS.prefixes eS.len (st true []).xmm (.mem mB : RM 4) (dat 128) (st true []) := ⟨by unfold mmxReady; decide,
    by unfold sseReady; decide,
    source_of (by decide) (by decide +kernel),
    source_of (by decide) (by decide +kernel),
    source_of (by decide) (by decide +kernel),
    source_of (by decide) (by decide +kernel)⟩

theorem test_witness_VpmaddubswForms :
    vexReady .avx eV (st true []) ∧
      vexReady .avx2 eL (st true []) ∧
      sourceIs (st true []).env.vexM128Align eV.prefixes eV.len (st true []).xmm (.reg 1#4) ((st true []).xmm 1#4) (st true []) ∧
      sourceIs (st true []).env.vexM128Align eV.prefixes eV.len (st true []).xmm (.mem mB : RM 4) (dat 128) (st true []) ∧
      sourceIs false eL.prefixes eL.len (st true []).ymmReg (.reg 1#4) ((st true []).ymmReg 1#4) (st true []) ∧
      sourceIs false eL.prefixes eL.len (st true []).ymmReg (.mem mB : RM 4) (dat 256) (st true []) := ⟨by unfold vexReady; decide,
    by unfold vexReady; decide,
    source_of (by decide) (by decide +kernel),
    source_of (by decide) (by decide +kernel),
    source_of (by decide) (by decide +kernel),
    source_of (by decide) (by decide +kernel)⟩

theorem test_witness_PmaddwdLegacyForms :
    mmxReady .mmx eM (st true []) ∧
      sseReady .sse2 eS (st true []) ∧
      sourceIs false eM.prefixes eM.len (st true []).mm (.reg 1#3) ((st true []).mm 1#3) (st true []) ∧
      sourceIs false eM.prefixes eM.len (st true []).mm (.mem mB : RM 3) (dat 64) (st true []) ∧
      sourceIs true eS.prefixes eS.len (st true []).xmm (.reg 1#4) ((st true []).xmm 1#4) (st true []) ∧
      sourceIs true eS.prefixes eS.len (st true []).xmm (.mem mB : RM 4) (dat 128) (st true []) := ⟨by unfold mmxReady; decide,
    by unfold sseReady; decide,
    source_of (by decide) (by decide +kernel),
    source_of (by decide) (by decide +kernel),
    source_of (by decide) (by decide +kernel),
    source_of (by decide) (by decide +kernel)⟩

theorem test_witness_VpmaddwdForms :
    vexReady .avx eV (st true []) ∧
      vexReady .avx2 eL (st true []) ∧
      sourceIs (st true []).env.vexM128Align eV.prefixes eV.len (st true []).xmm (.reg 1#4) ((st true []).xmm 1#4) (st true []) ∧
      sourceIs (st true []).env.vexM128Align eV.prefixes eV.len (st true []).xmm (.mem mB : RM 4) (dat 128) (st true []) ∧
      sourceIs false eL.prefixes eL.len (st true []).ymmReg (.reg 1#4) ((st true []).ymmReg 1#4) (st true []) ∧
      sourceIs false eL.prefixes eL.len (st true []).ymmReg (.mem mB : RM 4) (dat 256) (st true []) := ⟨by unfold vexReady; decide,
    by unfold vexReady; decide,
    source_of (by decide) (by decide +kernel),
    source_of (by decide) (by decide +kernel),
    source_of (by decide) (by decide +kernel),
    source_of (by decide) (by decide +kernel)⟩

end Sys2Proof.Tests
end

section
/-! What a completed instruction does to `rip`, the flags, MXCSR and the parameters of the run, and what `rip` an exception
reports (spec/00_scope.md R3; spec/10_state.md R12, R14, R19, R20; spec/20_memory.md R41). -/

namespace Sys2Proof.Laws

open EncodedLength in
/-- The lemmas of `EncodedLength`, one for each form, together. -/
theorem encode_length : ∀ i : Instr, EncodedLength.Statement i
  | .pextR32 e dst src mask => pextR32 e dst src mask
  | .pextR64 e dst src mask => pextR64 e dst src mask
  | .pextrb e dst src imm => pextrb e dst src imm
  | .pextrd e dst src imm => pextrd e dst src imm
  | .pextrq e dst src imm => pextrq e dst src imm
  | .vpextrb e dst src imm => vpextrb e dst src imm
  | .vpextrd e dst src imm => vpextrd e dst src imm
  | .vpextrq e dst src imm => vpextrq e dst src imm
  | .pextrwMmx e dst src imm => pextrwMmx e dst src imm
  | .pextrwXmm e dst src imm => pextrwXmm e dst src imm
  | .pextrwStore e dst src imm => pextrwStore e dst src imm
  | .vpextrw e dst src imm => vpextrw e dst src imm
  | .vpextrwStore e dst src imm => vpextrwStore e dst src imm
  | .phaddwMmx e dst src => phaddwMmx e dst src
  | .phaddwXmm e dst src => phaddwXmm e dst src
  | .phadddMmx e dst src => phadddMmx e dst src
  | .phadddXmm e dst src => phadddXmm e dst src
  | .vphaddwXmm e dst src1 src2 => vphaddwXmm e dst src1 src2
  | .vphadddXmm e dst src1 src2 => vphadddXmm e dst src1 src2
  | .vphaddwYmm e dst src1 src2 => vphaddwYmm e dst src1 src2
  | .vphadddYmm e dst src1 src2 => vphadddYmm e dst src1 src2
  | .phaddswMmx e dst src => phaddswMmx e dst src
  | .phaddswXmm e dst src => phaddswXmm e dst src
  | .vphaddswXmm e dst src1 src2 => vphaddswXmm e dst src1 src2
  | .vphaddswYmm e dst src1 src2 => vphaddswYmm e dst src1 src2
  | .phminposuw e dst src => phminposuw e dst src
  | .vphminposuw e dst src => vphminposuw e dst src
  | .phsubwMmx e dst src => phsubwMmx e dst src
  | .phsubwXmm e dst src => phsubwXmm e dst src
  | .phsubdMmx e dst src => phsubdMmx e dst src
  | .phsubdXmm e dst src => phsubdXmm e dst src
  | .vphsubwXmm e dst src1 src2 => vphsubwXmm e dst src1 src2
  | .vphsubdXmm e dst src1 src2 => vphsubdXmm e dst src1 src2
  | .vphsubwYmm e dst src1 src2 => vphsubwYmm e dst src1 src2
  | .vphsubdYmm e dst src1 src2 => vphsubdYmm e dst src1 src2
  | .phsubswMmx e dst src => phsubswMmx e dst src
  | .phsubswXmm e dst src => phsubswXmm e dst src
  | .vphsubswXmm e dst src1 src2 => vphsubswXmm e dst src1 src2
  | .vphsubswYmm e dst src1 src2 => vphsubswYmm e dst src1 src2
  | .pinsrb e dst src imm => pinsrb e dst src imm
  | .pinsrd e dst src imm => pinsrd e dst src imm
  | .pinsrq e dst src imm => pinsrq e dst src imm
  | .vpinsrb e dst src1 src2 imm => vpinsrb e dst src1 src2 imm
  | .vpinsrd e dst src1 src2 imm => vpinsrd e dst src1 src2 imm
  | .vpinsrq e dst src1 src2 imm => vpinsrq e dst src1 src2 imm
  | .pinsrwMmx e dst src imm => pinsrwMmx e dst src imm
  | .pinsrwXmm e dst src imm => pinsrwXmm e dst src imm
  | .vpinsrw e dst src1 src2 imm => vpinsrw e dst src1 src2 imm
  | .pmaddubswMmx e dst src => pmaddubswMmx e dst src
  | .pmaddubswXmm e dst src => pmaddubswXmm e dst src
  | .vpmaddubswXmm e dst src1 src2 => vpmaddubswXmm e dst src1 src2
  | .vpmaddubswYmm e dst src1 src2 => vpmaddubswYmm e dst src1 src2
  | .pmaddwdMmx e dst src => pmaddwdMmx e dst src
  | .pmaddwdXmm e dst src => pmaddwdXmm e dst src
  | .vpmaddwdXmm e dst src1 src2 => vpmaddwdXmm e dst src1 src2
  | .vpmaddwdYmm e dst src1 src2 => vpmaddwdYmm e dst src1 src2

end Sys2Proof.Laws

namespace Sys2Proof.Machine

/-! ## PHYS_MEM after a write (20_memory.md R41) -/

/-- No write takes the value of a byte away. -/
theorem isSome_read_write {a b : Nat} {v : Byte} {m : Memory} (h : (m.read b).isSome = true) :
    ((m.write a v).read b).isSome = true := by
  by_cases hab : b = a
  · subst hab; simp [read_write_same]
  · rwa [read_write_other v m hab]

theorem isSome_read_writeAll {b : Nat} {m : Memory} (as : List Nat) (vs : List Byte) (h : (m.read b).isSome = true) :
    ((m.writeAll as vs).read b).isSome = true := by
  induction as generalizing m vs with
  | nil => simpa [Memory.writeAll] using h
  | cons a as ih =>
    cases vs with
    | nil => simpa [Memory.writeAll] using h
    | cons v vs => exact ih vs (isSome_read_write h)

/-- PHYS_MEM depends on the parameters and on which bytes have a value. -/
theorem inPhysMem_congr {s t : State} {a : Nat} (he : t.env = s.env)
    (hm : (t.mem.read a).isSome = (s.mem.read a).isSome) : t.inPhysMem a = s.inPhysMem a := by
  simp only [State.inPhysMem, he, hm]

/-- A byte in PHYS_MEM stays in it when memory is written. -/
theorem inPhysMem_writeAll {s : State} {a : Nat} (as : List Nat) (vs : List Byte) (h : s.inPhysMem a = true) :
    State.inPhysMem { s with mem := s.mem.writeAll as vs } a = true := by
  cases hp : s.env.physMem with
  | some rs => simpa [State.inPhysMem, hp] using h
  | none =>
    have hr : (s.mem.read a).isSome = true := by simpa [State.inPhysMem, hp] using h
    simpa [State.inPhysMem, hp] using isSome_read_writeAll as vs hr

/-- A store that completes lists no new byte: it goes to bytes of PHYS_MEM only. -/
theorem writeBytes_inPhysMem {s t : State} {as : List Nat} {vs : List Byte} (h : s.writeBytes as vs = .ok t) (a : Nat) :
    t.inPhysMem a = s.inPhysMem a := by
  obtain ⟨hin, rfl⟩ := writeBytes_eq_ok.1 h
  by_cases ha : a ∈ as
  · rw [(hin a ha).1, inPhysMem_writeAll as vs (hin a ha).1]
  · exact inPhysMem_congr rfl (by rw [read_writeAll_other as vs ha])

theorem memWrite_inPhysMem {w : Nat} {s t : State} {g : Seg} {off : Word} {v : BitVec w}
    (h : s.memWrite g off v = .ok t) (a : Nat) : t.inPhysMem a = s.inPhysMem a := by
  unfold State.memWrite at h
  cases ha : s.operandAddrs g off (w / 8) .write false with
  | error e => simp [ha, bind, Except.bind] at h
  | ok as => exact writeBytes_inPhysMem (by simpa [ha, bind, Except.bind] using h) a

/-! ## What the one write of an instruction keeps -/

theorem RegWrite.keepsSystem {i : Instr} {s t : State} (h : RegWrite i s t) : keepsSystem s t := by
  cases h <;> exact ⟨rfl, rfl, rfl⟩

theorem RegWrite.mem_eq {i : Instr} {s t : State} (h : RegWrite i s t) : t.mem = s.mem := by
  cases h <;> rfl

theorem RegWrite.inPhysMem_eq {i : Instr} {s t : State} (h : RegWrite i s t) (a : Nat) :
    t.inPhysMem a = s.inPhysMem a :=
  inPhysMem_congr h.keepsSystem.2.2 (by rw [h.mem_eq])

theorem memWrite_keepsSystem {w : Nat} {s t : State} {g : Seg} {off : Word} {v : BitVec w}
    (h : s.memWrite g off v = .ok t) : keepsSystem s t := by
  obtain ⟨-, -, rfl⟩ := memWrite_eq_ok.1 h
  exact ⟨rfl, rfl, rfl⟩

/-- Any instruction that completes advances `rip` by its length and keeps the flags, MXCSR, the parameters and PHYS_MEM. -/
theorem exec_next_system {i : Instr} {s t : State} (h : exec i s = .next t) :
    keepsSystem s t ∧ (∀ a, t.inPhysMem a = s.inPhysMem a) ∧ t.rip = s.nextRip i.len := by
  obtain ⟨-, u, rfl, hw⟩ := exec_next h
  have hu : keepsSystem s u ∧ ∀ a, u.inPhysMem a = s.inPhysMem a := by
    rcases hw with hw | ⟨o, w, v, -, -, -, hw⟩
    · exact ⟨hw.keepsSystem, hw.inPhysMem_eq⟩
    · exact ⟨memWrite_keepsSystem hw, memWrite_inPhysMem hw⟩
  exact ⟨hu.1, hu.2, rfl⟩

/-! ## The `rip` that an exception reports (60_exceptions.md R240) -/

/-- Every exception that a part of a step ends in reports the `rip` of `s`. -/
def ReportsRip {α : Type} (s : State) (r : Res α) : Prop :=
  ∀ o, r = .error (.fault (.exception o)) → o.rip = s.rip

namespace ReportsRip

variable {α β : Type} {s : State}

theorem raise (x : Exn) : ReportsRip s (raise x s : Res α) := by
  rintro o ⟨⟩
  rfl

theorem refuse (r : Refusal) : ReportsRip s (refuse r : Res α) := by
  rintro o ⟨⟩

theorem ok (a : α) : ReportsRip s (.ok a : Res α) := by
  rintro o ⟨⟩

theorem unwrittenByte (a : Nat) : ReportsRip s (.error (.fault (.unwrittenByte a)) : Res α) := by
  rintro o ⟨⟩

theorem bind {r : Res α} {f : α → Res β} (hr : ReportsRip s r) (hf : ∀ a, ReportsRip s (f a)) :
    ReportsRip s (r >>= f) := by
  cases r with
  | ok a => exact hf a
  | error e =>
    rintro o ⟨⟩
    exact hr o rfl

theorem preChecks (i : Instr) (s : State) : ReportsRip s (preChecks i s) := by
  unfold Machine.preChecks
  split
  · exact raise .ud
  split
  · exact refuse _
  split
  · exact raise .nm
  split
  · exact raise .mf
  · exact ok ()

theorem operandAddrs (g : Seg) (off : Word) (n : Nat) (k : Access) (al : Bool) :
    ReportsRip s (s.operandAddrs g off n k al) := by
  unfold State.operandAddrs
  dsimp only
  split
  · exact raise _
  split
  · exact raise .gp
  split
  · exact ok _
  · exact raise .ac
  · exact raise _
  · split
    · exact raise .ac
    · exact raise _

theorem readAll (m : Memory) (as : List Nat) : ReportsRip s (m.readAll as) := by
  induction as with
  | nil => exact ok []
  | cons a as ih =>
    unfold Memory.readAll
    split
    · exact unwrittenByte a
    · exact bind ih fun vs => ok _

theorem readBytes (as : List Nat) : ReportsRip s (s.readBytes as) := by
  unfold State.readBytes
  split
  · exact refuse _
  · exact readAll s.mem as

theorem writeBytes (as : List Nat) (vs : List Byte) : ReportsRip s (s.writeBytes as vs) := by
  unfold State.writeBytes
  split
  · exact refuse _
  split
  · exact refuse _
  · exact ok _

theorem memRead (w : Nat) (al : Bool) (g : Seg) (off : Word) : ReportsRip s (s.memRead w al g off) :=
  bind (operandAddrs _ _ _ _ _) fun as => bind (readBytes as) fun _ => ok _

theorem memWrite {w : Nat} (g : Seg) (off : Word) (v : BitVec w) : ReportsRip s (s.memWrite g off v) :=
  bind (operandAddrs _ _ _ _ _) fun as => writeBytes as _

/-- The end of a meaning passes an exception on as it is. -/
theorem of_finish {len : Nat} {r : Res State} {o : FaultOutcome} (hr : ReportsRip s r)
    (h : finish len s r = .fault (.exception o)) : o.rip = s.rip := by
  cases r with
  | ok u => simp at h
  | error e =>
    cases e with
    | refused x => simp [Stop.outcome] at h
    | fault x =>
      simp only [finish_error, Stop.outcome, Host.Outcome.fault.injEq] at h
      exact hr o (by rw [h])

end ReportsRip

/-- An instruction raises its exceptions in the state before it. -/
theorem exec_exception_rip {i : Instr} {s : State} {o : FaultOutcome} (h : exec i s = .fault (.exception o)) :
    o.rip = s.rip := by
  have hc := ReportsRip.preChecks i s
  cases exec_shape i s with
  | refused _ he => simp [he] at h
  | plain t _ _ he => exact ReportsRip.of_finish (hc.bind fun _ => .ok t) (he ▸ h)
  | load m w f _ _ _ _ he =>
    exact ReportsRip.of_finish (hc.bind fun _ => (ReportsRip.memRead _ _ _ _).bind fun b => .ok (f b)) (he ▸ h)
  | store m w v _ _ _ he => exact ReportsRip.of_finish (hc.bind fun _ => .memWrite _ _ _) (he ▸ h)

/-- Settles O14, from what the one write of an instruction keeps (`exec_next_system`) and from the state in which each of
its parts raises an exception (`exec_exception_rip`). -/
theorem ripAdvancesAndSystemStateStays : Obligations.RipAdvancesAndSystemStateStays := by
  intro i s
  exact ⟨fun hwf => (Laws.encode_length i _ hwf).1.symm, fun _ h => exec_next_system h, fun _ h => exec_exception_rip h⟩

end Sys2Proof.Machine
end

section
/-! What the decoder answers is well-formed (spec/30_encoding.md R50 to R72): each part of it reads an allowed part of an
encoding and consumes as many bytes as that part has. -/

namespace Sys2Proof

/-! ## Prefixes (30_encoding.md R52, R54) -/

/-- No byte by itself is read as an ignored REX byte. -/
theorem prefixOfByte_ne_rexIgnored {c : Byte} {p : Prefix} (h : prefixOfByte c = some p) (r : Rex) :
    p ≠ .rexIgnored r := by
  rintro rfl
  unfold prefixOfByte at h
  repeat' split at h
  all_goals cases h

theorem prefixesWf_cons {m : Bool} {p : Prefix} {ps : List Prefix} (h : ∀ r, p ≠ .rexIgnored r) :
    prefixesWf m (p :: ps) = prefixesWf m ps := by
  cases p with
  | rexIgnored r => exact absurd rfl (h r)
  | _ => rfl

/-- In 64-bit mode an ignored REX byte is allowed before any of the other prefixes. -/
theorem prefixesWf_rexIgnored {r : Rex} {p : Prefix} {ps : List Prefix} (hp : ∀ r, p ≠ .rexIgnored r)
    (h : prefixesWf true (p :: ps) = true) : prefixesWf true (.rexIgnored r :: p :: ps) = true := by
  cases p with
  | rexIgnored q => exact absurd rfl (hp q)
  | _ => simpa [prefixesWf] using h

/-- The scan reads an allowed list of prefixes, a REX byte in 64-bit mode only, and splits the bytes at their end. -/
theorem scanPrefixes_wf {m : Bool} {bs t : List Byte} {ps : List Prefix} {rex : Option Rex}
    (h : scanPrefixes m bs = (ps, rex, t)) :
    prefixesWf m ps = true ∧ (m || rex.isNone) = true ∧ bs.length = ps.length + rexBytes rex + t.length := by
  induction bs generalizing ps with
  | nil =>
    simp only [scanPrefixes, Prod.mk.injEq] at h
    obtain ⟨rfl, rfl, rfl⟩ := h
    exact ⟨rfl, by simp, rfl⟩
  | cons c bs ih =>
    rw [scanPrefixes_cons] at h
    rcases hs : scanPrefixes m bs with ⟨qs, q, u⟩
    rw [hs] at h
    cases hc : prefixOfByte c with
    | some p =>
      simp only [hc, Prod.mk.injEq] at h
      obtain ⟨rfl, rfl, rfl⟩ := h
      obtain ⟨hw, hr, hl⟩ := ih hs
      exact ⟨(prefixesWf_cons (prefixOfByte_ne_rexIgnored hc)).trans hw, hr, by simp only [List.length_cons]; omega⟩
    | none =>
      cases hx : (m && isRexByte c) with
      | false =>
        simp only [hc, hx, Bool.false_eq_true, ↓reduceIte, Prod.mk.injEq] at h
        obtain ⟨rfl, rfl, rfl⟩ := h
        exact ⟨rfl, by simp, by simp [rexBytes]⟩
      | true =>
        obtain ⟨rfl, -⟩ := Bool.and_eq_true_iff.1 hx
        cases bs with
        | nil =>
          simp only [hc, hx, ↓reduceIte, Prod.mk.injEq] at h
          obtain ⟨rfl, rfl, rfl⟩ := h
          exact ⟨rfl, rfl, rfl⟩
        | cons d ds =>
          cases hd : prefixOfByte d with
          | none =>
            simp only [hc, hx, hd, ↓reduceIte, Option.isSome_none, Bool.false_eq_true, Prod.mk.injEq] at h
            obtain ⟨rfl, rfl, rfl⟩ := h
            exact ⟨rfl, rfl, by simp [rexBytes]; omega⟩
          | some p =>
            simp only [hc, hx, hd, ↓reduceIte, Option.isSome_some, Prod.mk.injEq] at h
            obtain ⟨rfl, rfl, rfl⟩ := h
            obtain ⟨hw, hr, hl⟩ := ih hs
            rw [scanPrefixes_cons, hd] at hs
            obtain ⟨rfl, -⟩ := Prod.mk.inj hs
            exact ⟨prefixesWf_rexIgnored (prefixOfByte_ne_rexIgnored hd) hw, hr, by
              simp only [List.length_cons] at hl ⊢; omega⟩

/-! ## ModRM, SIB, displacement (30_encoding.md R61 to R70) -/

theorem read16_length {t u : List Byte} {v : BitVec 16} (h : read16 t = some (v, u)) : t.length = 2 + u.length := by
  rcases t with _ | ⟨a, _ | ⟨b, t⟩⟩ <;> simp only [read16, reduceCtorEq, Option.some.injEq, Prod.mk.injEq] at h
  simp [h.2]; omega

theorem read32_length {t u : List Byte} {v : BitVec 32} (h : read32 t = some (v, u)) : t.length = 4 + u.length := by
  rcases t with _ | ⟨a, _ | ⟨b, _ | ⟨c, _ | ⟨d, t⟩⟩⟩⟩ <;>
    simp only [read32, reduceCtorEq, Option.some.injEq, Prod.mk.injEq] at h
  simp [h.2]; omega

/-- A displacement is absent only where mod says so, and takes its bytes. -/
theorem readDisp_spec {w : Nat} {full : List Byte → Option (BitVec w × List Byte)} {md : BitVec 2} {t u : List Byte}
    {d : Disp w} (hf : ∀ {t u v}, full t = some (v, u) → t.length = w / 8 + u.length)
    (h : readDisp full md t = some (d, u)) : (d = .none → md = 0#2) ∧ t.length = d.bytes + u.length := by
  unfold readDisp at h
  split at h
  · next h0 =>
    cases h
    exact ⟨fun _ => by simpa using h0, by simp [Disp.bytes]⟩
  split at h
  · cases t with
    | nil => cases h
    | cons c t =>
      cases h
      exact ⟨nofun, by simp [Disp.bytes]; omega⟩
  · obtain ⟨⟨v, t'⟩, hr, h⟩ := Option.map_eq_some_iff.1 h
    cases h
    exact ⟨nofun, hf hr⟩

theorem readSib_spec {m a67 x b : Bool} {md : BitVec 2} {t u : List Byte} {o : MemOp} (ha : (!m && a67) = false)
    (h : readSib x b md t = some (o, u)) : o.wf m a67 x b = true ∧ 1 + t.length = (RM.mem o : RM 4).bytes + u.length := by
  have ha' : (m || !a67) = true := by cases m <;> simp_all
  cases t with
  | nil => cases h
  | cons c t =>
    simp only [readSib] at h
    split at h
    · obtain ⟨⟨v, t'⟩, hr, h⟩ := Option.map_eq_some_iff.1 h
      cases h
      have := read32_length hr
      exact ⟨by simp [MemOp.wf, ha', extReg_msb], by simp [RM.bytes]; omega⟩
    · next h5 =>
      obtain ⟨⟨v, t'⟩, hr, h⟩ := Option.map_eq_some_iff.1 h
      cases h
      obtain ⟨hd, hl⟩ := readDisp_spec read32_length hr
      refine ⟨?_, by simp [RM.bytes]; omega⟩
      have : v = .none → bits 0 3 c ≠ 5#3 := by
        intro hv he
        simp [hd hv, he] at h5
      simp only [MemOp.wf, ha', extReg_msb, setWidth_extReg, beq_self_eq_true, Bool.and_self, Bool.true_and,
        Bool.or_eq_true, bne_iff_ne]
      by_cases hv : v = .none
      · exact .inr (this hv)
      · exact .inl hv

theorem readMem_spec {m a67 x b : Bool} {md : BitVec 2} {rm : BitVec 3} {t u : List Byte} {o : MemOp}
    (h : readMem m a67 x b md rm t = some (o, u)) :
    o.wf m a67 x b = true ∧ 1 + t.length = (RM.mem o : RM 4).bytes + u.length := by
  unfold readMem at h
  split at h
  · next ha =>
    split at h
    · obtain ⟨⟨v, t'⟩, hr, h⟩ := Option.map_eq_some_iff.1 h
      cases h
      have := read16_length hr
      exact ⟨by simpa [MemOp.wf] using ha, by simp [RM.bytes]; omega⟩
    · next h6 =>
      obtain ⟨⟨v, t'⟩, hr, h⟩ := Option.map_eq_some_iff.1 h
      cases h
      obtain ⟨hd, hl⟩ := readDisp_spec read16_length hr
      refine ⟨?_, by simp [RM.bytes]; omega⟩
      simp only [MemOp.wf, ha, Bool.true_and, Bool.or_eq_true, bne_iff_ne]
      by_cases hv : v = .none
      · exact .inr fun he => by simp [hd hv, he] at h6
      · exact .inl hv
  · next ha =>
    have ha : (!m && a67) = false := by simpa using ha
    have ha' : (m || !a67) = true := by cases m <;> simp_all
    split at h
    · exact readSib_spec ha h
    · next h4 =>
      split at h
      · obtain ⟨⟨v, t'⟩, hr, h⟩ := Option.map_eq_some_iff.1 h
        cases h
        have := read32_length hr
        exact ⟨by simp [MemOp.wf, ha'], by simp [RM.bytes]; omega⟩
      · next h5 =>
        obtain ⟨⟨v, t'⟩, hr, h⟩ := Option.map_eq_some_iff.1 h
        cases h
        obtain ⟨hd, hl⟩ := readDisp_spec read32_length hr
        refine ⟨?_, by simp [RM.bytes]; omega⟩
        have h4 : rm ≠ 4#3 := by simpa using h4
        simp only [MemOp.wf, ha', extReg_msb, setWidth_extReg, beq_self_eq_true, Bool.and_self, Bool.true_and,
          Bool.and_eq_true, Bool.or_eq_true, bne_iff_ne]
        refine ⟨h4, ?_⟩
        by_cases hv : v = .none
        · exact .inr fun he => by simp [hd hv, he] at h5
        · exact .inl hv

/-- ModRM and what it calls for: an allowed operand, and as many bytes as it takes. -/
theorem readModRM_spec {m a67 x b : Bool} {t u : List Byte} {reg : BitVec 3} {o : RM 4}
    (h : readModRM m a67 x b t = some (reg, o, u)) : o.wf m a67 x b = true ∧ t.length = o.bytes + u.length := by
  cases t with
  | nil => cases h
  | cons c t =>
    simp only [readModRM] at h
    split at h
    · cases h
      exact ⟨by simp [RM.wf, extReg_msb], by simp [RM.bytes]; omega⟩
    · obtain ⟨⟨v, t'⟩, hr, h⟩ := Option.map_eq_some_iff.1 h
      cases h
      obtain ⟨hw, hl⟩ := readMem_spec hr
      exact ⟨hw, by rw [List.length_cons, Nat.add_comm]; exact hl⟩

theorem readImm_length {has : Bool} {t u : List Byte} {v : Byte} (h : readImm has t = some (v, u)) :
    t.length = has.toNat + u.length := by
  cases t <;> cases has <;> simp only [readImm, ↓reduceIte, Bool.false_eq_true, reduceCtorEq, Option.some.injEq,
    Prod.mk.injEq] at h <;> simp [← h.2]; omega

theorem readLegacyOpcode_length {t u : List Byte} {map : OpMap} {opc : Byte}
    (h : readLegacyOpcode t = some (map, opc, u)) : 1 + t.length = map.legacyBytes + u.length := by
  cases t with
  | nil => cases h
  | cons c t =>
    simp only [readLegacyOpcode] at h
    split at h
    · cases t with
      | nil => cases h
      | cons d t =>
        simp only [Option.some.injEq, Prod.mk.injEq] at h
        obtain ⟨rfl, -, rfl⟩ := h
        split <;> simp [OpMap.legacyBytes] <;> omega
    · cases h
      simp [OpMap.legacyBytes]; omega

/-! ## Rows of the opcode table (30_encoding.md R71) -/

/-- A memory operand takes the same bytes beside every kind of register. -/
theorem RM.bytes_mem {j k : Nat} (o : MemOp) : (RM.mem o : RM j).bytes = (RM.mem o : RM k).bytes := by
  cases o <;> rfl

/-- What is allowed with a 4-bit register number as the r/m operand is allowed with an MMX register (10_state.md R15). -/
theorem LegEnc.wf_mmxRM {m p : Bool} {map : OpMap} {n : Nat} {e : LegEnc} {o : RM 4} (h : e.wf m p map n o = true) :
    e.wf m p map n (mmxRM o) = true := by
  cases o with
  | mem o => simpa only [LegEnc.wf, mmxRM, RM.wf, RM.bytes_mem (j := 3) (k := 4)] using h
  | reg r =>
    simp only [LegEnc.wf, Bool.and_eq_true] at h ⊢
    obtain ⟨⟨⟨hp, -⟩, hl⟩, h15⟩ := h
    exact ⟨⟨⟨hp, rfl⟩, hl⟩, h15⟩

/-- What a row of the legacy table builds from an allowed encoding is well-formed. -/
theorem legacyRow_wf {m p : Bool} {opc : Byte} {map : OpMap} {row : LegRow} {e : LegEnc} {g : BitVec 4} {o : RM 4}
    {v : Byte} (h : legacyRow p opc map = some row) (he : e.wf m p map row.imm.toNat o = true)
    (hg : regWf e.rexBits.r g = true) : (row.build e g o v).wf m = true := by
  have hm := LegEnc.wf_mmxRM he
  cases p <;> cases map
  all_goals
    simp only [legacyRow, Bool.not_false, Bool.not_true, Bool.true_and, Bool.false_and, Bool.false_eq_true,
      ↓reduceIte] at h
    repeat' split at h
  all_goals simp only [reduceCtorEq, Option.some.injEq] at h
  -- One goal for each row; two where REX.W chooses between the rows of an opcode.
  all_goals
    subst h
    dsimp only at he hm ⊢
    try split
  all_goals simp_all [Instr.wf]

/-- What a row of the VEX table builds from an allowed encoding is well-formed. -/
theorem vexRow_wf {m : Bool} {pp : BitVec 2} {opc : Byte} {map : OpMap} {row : VexRow} {e : VexEnc} {g : BitVec 4}
    {o : RM 4} {v : Byte} (h : vexRow m pp opc map = some row) (he : e.wf m map row.imm.toNat o = true)
    (hg : regWf e.r g = true) : (row.build e g (e.srcReg m) o v).wf m = true := by
  cases map
  all_goals
    simp only [vexRow] at h
    repeat' split at h
  all_goals simp only [reduceCtorEq, Option.some.injEq] at h
  -- One goal for each row; two where VEX.L or VEX.W chooses between the rows of an opcode.
  all_goals
    subst h
    dsimp only at he ⊢
    try split
  all_goals cases m <;> simp_all [Instr.wf]

/-! ## Whole instructions (30_encoding.md R72) -/

theorem decodeLegacy_wf {m : Bool} {n : Nat} {ps : List Prefix} {rex : Option Rex} {t rest : List Byte} {i : Instr}
    (hp : prefixesWf m ps = true) (hr : (m || rex.isNone) = true)
    (hn : n = ps.length + rexBytes rex + (1 + t.length)) (h15 : n ≤ rest.length + 15)
    (h : decodeLegacy m n ps rex t = .ok i rest) : i.wf m = true := by
  unfold decodeLegacy at h
  split at h
  · cases h
  next map opc t1 hop =>
  split at h
  · cases h
  next hrep =>
  split at h
  · cases h
  next row hrow =>
  dsimp only at h
  split at h
  · cases h
  next reg rm t2 hrm =>
  split at h
  · cases h
  next im t3 him =>
  cases h
  obtain ⟨hw, hl⟩ := readModRM_spec hrm
  have hlo := readLegacyOpcode_length hop
  have hli := readImm_length him
  refine legacyRow_wf hrow ?_ ?_
  · simp only [LegEnc.wf, LegEnc.rexBits, Bool.and_eq_true, beq_iff_eq, decide_eq_true_eq]
    exact ⟨⟨⟨⟨⟨⟨hp, hr⟩, by simpa using hrep⟩, trivial⟩, hw⟩, by omega⟩, by omega⟩
  · simp [regWf, LegEnc.rexBits, extReg_msb]

theorem decodeVex_wf {m : Bool} {n : Nat} {e : VexEnc} {mm : BitVec 5} {pp : BitVec 2} {t rest : List Byte} {i : Instr}
    (hp : prefixesWf m e.prefixes = true) (hr : (m || e.rex.isNone) = true)
    (h2 : e.two = true → mm = 1#5 ∧ e.x = false ∧ e.b = false ∧ e.w = false)
    (h32 : m = false → e.r = false ∧ e.x = false ∧ (e.two = true → e.vvvv.msb = false))
    (hn : n = e.prefixes.length + rexBytes e.rex + ((if e.two then 2 else 3) + t.length)) (h15 : n ≤ rest.length + 15)
    (h : decodeVex m n e mm pp t = .ok i rest) : i.wf m = true := by
  unfold decodeVex at h
  dsimp only at h
  split at h
  · split at h <;> cases h
  next map hmap =>
  split at h
  · cases h
  next opc t1 =>
  split at h
  · split at h <;> cases h
  next row hrow =>
  split at h
  · cases h
  next reg rm t2 hrm =>
  split at h
  · cases h
  next im t3 him =>
  cases h
  obtain ⟨hw, hl⟩ := readModRM_spec hrm
  have hli := readImm_length him
  have hmr : (m && e.r) = e.r := by cases m <;> simp_all
  have hmx : (m && e.x) = e.x := by cases m <;> simp_all
  have hmap2 : e.two = true → map = .m0F := by
    intro ht
    rw [(h2 ht).1] at hmap
    exact (Option.some.inj hmap).symm
  refine vexRow_wf hrow ?_ ?_
  · simp only [VexEnc.wf, Bool.and_eq_true, beq_iff_eq, decide_eq_true_eq]
    rw [hmx] at hw
    refine ⟨⟨⟨⟨⟨⟨hp, hr⟩, ?_⟩, ?_⟩, hw⟩, ?_⟩, by omega⟩
    · cases ht : e.two with
      | false => rfl
      | true => simp [h2 ht, hmap2 ht]
    · cases m with
      | true => rfl
      | false => cases ht : e.two <;> simp_all
    · simp only [List.length_cons] at hn
      cases ht : e.two <;> simp only [ht, ↓reduceIte, Bool.false_eq_true] at hn ⊢ <;> omega
  · simp [regWf, extReg_msb, hmr]

/-- The two top bits of the byte after C4 or C5, which are 11B in 32-bit mode (30_encoding.md R58). -/
theorem getLsbD_of_top {d : Byte} (h : bits 6 2 d = 3#2) : d.getLsbD 7 = true ∧ d.getLsbD 6 = true := by
  revert h; revert d; decide

theorem bits_vvvv_msb (d : Byte) : (bits 3 4 d).msb = d.getLsbD 6 := by revert d; decide

/-- Whatever the decoder answers within 15 bytes is well-formed for the mode. -/
theorem decode_wf {m : Bool} {bs rest : List Byte} {i : Instr} (h : decode m bs = .ok i rest)
    (h15 : bs.length ≤ rest.length + 15) : i.wf m = true := by
  unfold decode at h
  split at h
  · cases h
  next ps rex c t hs =>
  obtain ⟨hp, hr, hn⟩ := scanPrefixes_wf hs
  rw [List.length_cons] at hn
  split at h
  · exact decodeLegacy_wf hp hr (by omega) h15 h
  split at h
  · split at h
    · cases h
    next d t1 =>
    rw [List.length_cons] at hn
    split at h
    · cases h
    next htop =>
    have htop : m = false → d.getLsbD 7 = true ∧ d.getLsbD 6 = true := fun hm =>
      getLsbD_of_top (by simpa [hm] using htop)
    split at h
    · exact decodeVex_wf (e := vex2 ps rex d) hp hr (fun _ => ⟨rfl, rfl, rfl, rfl⟩)
        (fun hm => by simp [vex2, htop hm, bits_vvvv_msb]) (by simp only [vex2, ↓reduceIte]; omega) h15 h
    · split at h
      · cases h
      next d' t2 =>
      rw [List.length_cons] at hn
      exact decodeVex_wf (e := vex3 ps rex d d') hp hr nofun (fun hm => by simp [vex3, htop hm])
        (by simp only [vex3, Bool.false_eq_true, ↓reduceIte]; omega) h15 h
  · cases h

end Sys2Proof

namespace Sys2Proof.Machine

/-- Every instruction that a step runs is well-formed for the mode. -/
theorem fetchInstr_wf {s : State} {i : Instr} (h : s.fetchInstr = .ok i) : i.wf s.env.mode64 = true := by
  obtain ⟨-, rest, hd⟩ := fetchInstr_eq_ok.1 h
  exact decode_wf hd ((fetchFrom_length s Config.maxLen 0).trans (Nat.le_add_left _ _))

end Sys2Proof.Machine
end

section
/-! What every step keeps, from what the one write of an instruction keeps: good states, the high registers in 32-bit mode,
the x87 state and the upper halves of the vector registers (spec/10_state.md R10 to R18). -/

namespace Sys2Proof.Machine

variable {i : Instr} {s t u : State}

/-! ## Good states -/

@[simp] theorem low32_low32 (a : Word) : low32 (low32 a) = low32 a := by
  simp [low32]

@[simp] theorem low32_setWidth (v : BitVec 32) : low32 (v.setWidth 64) = v.setWidth 64 := by
  simp [low32]

/-- In 32-bit mode `rip` stays a 32-bit value (10_state.md R12). -/
theorem low32_nextRip (h : s.env.mode64 = false) (len : Nat) : low32 (s.nextRip len) = s.nextRip len := by
  simp [State.nextRip, h]

/-- A 32-bit write keeps every general register a 32-bit value (10_state.md R11). -/
theorem setReg32_low32 (h : ∀ n, low32 (s.reg64 n) = s.reg64 n) (d : BitVec 4) (v : BitVec 32) (n : BitVec 4) :
    low32 ((s.setReg32 d v).reg64 n) = (s.setReg32 d v).reg64 n := by
  by_cases hn : n = d
  · subst hn; simp
  · rw [setReg32_other s v hn, h]

/-- In 32-bit mode the one write of an instruction keeps every general register a 32-bit value. -/
theorem RegWrite.gpr_low32 (hw : RegWrite i s u) (hm : s.env.mode64 = false) (h : ∀ n, low32 (s.reg64 n) = s.reg64 n) :
    ∀ n, low32 (u.reg64 n) = u.reg64 n := by
  cases hw with
  | gpr32 d v => exact setReg32_low32 h d v
  | gprMmx d v => exact setReg32_low32 h d v
  | gpr64 d v h64 => rw [h64] at hm; cases hm
  | mmx | xmmKeep | xmmZero | ymm => exact h

/-- A store writes no general register. -/
theorem memWrite_reg64 {w : Nat} {g : Seg} {off : Word} {v : BitVec w} (h : s.memWrite g off v = .ok u) (n : BitVec 4) :
    u.reg64 n = s.reg64 n := by
  obtain ⟨-, -, rfl⟩ := memWrite_eq_ok.1 h
  rfl

/-- An instruction takes good states to good states. -/
theorem exec_good (hs : s.good) (h : exec i s = .next t) : t.good := by
  obtain ⟨hwf, hlow⟩ := hs
  obtain ⟨⟨-, -, henv⟩, -, hrip⟩ := exec_next_system h
  obtain ⟨-, u, rfl, hw⟩ := exec_next h
  have hu : Memory.wf u.mem = true ∧ (s.env.mode64 = false → ∀ n, low32 (u.reg64 n) = u.reg64 n) := by
    rcases hw with hw | ⟨o, w, v, -, -, -, hw⟩
    · exact ⟨by rwa [hw.mem_eq], fun hm => hw.gpr_low32 hm (hlow hm).2⟩
    · have hg := memWrite_reg64 hw
      obtain ⟨-, -, rfl⟩ := memWrite_eq_ok.1 hw
      exact ⟨writeAll_wf _ _ hwf, fun hm n => by rw [hg, (hlow hm).2]⟩
  refine ⟨hu.1, fun hm => ?_⟩
  rw [henv] at hm
  rw [hrip]
  exact ⟨low32_nextRip hm _, hu.2 hm⟩

/-- Settles O6: memory is empty, and the launch state is one of 64-bit mode. -/
theorem resetIsGood : Obligations.ResetIsGood :=
  ⟨reset_mem_wf, nofun⟩

/-- Settles O7, from what an instruction keeps (`exec_good`). -/
theorem stepKeepsGood : Obligations.StepKeepsGood := by
  intro s t hs h
  obtain ⟨i, -, he⟩ := step_eq_next.1 h
  exact exec_good hs he

/-! ## Registers 8 to 15 in 32-bit mode -/

theorem ne_of_msb_false {d n : BitVec 4} (hd : d.msb = false) (hn : 8 ≤ n.toNat) : n ≠ d := by
  rintro rfl
  have := BitVec.toNat_lt_of_msb_false hd
  omega

/-- In 32-bit mode the one write of a well-formed instruction leaves general and vector registers 8 to 15. -/
theorem RegWrite.high_eq (hw : RegWrite i s u) (hwf : i.wf s.env.mode64 = true) (hm : s.env.mode64 = false)
    {n : BitVec 4} (hn : 8 ≤ n.toNat) : u.reg64 n = s.reg64 n ∧ u.ymmReg n = s.ymmReg n := by
  have hne : ∀ {d}, LowIn32 i s d → n ≠ d := fun hd => ne_of_msb_false (hd hwf hm) hn
  cases hw with
  | gpr32 d v hd => exact ⟨setReg32_other s v (hne hd), rfl⟩
  | gprMmx d v hd => exact ⟨setReg32_other s v (hne hd), rfl⟩
  | gpr64 d v h64 => rw [h64] at hm; cases hm
  | mmx => exact ⟨rfl, rfl⟩
  | xmmKeep d v hd => exact ⟨rfl, setXmmKeep_other s v (hne hd)⟩
  | xmmZero d v hd => exact ⟨rfl, setXmmZero_other s v (hne hd)⟩
  | ymm d v hd => exact ⟨rfl, setYmm_other s v (hne hd)⟩

/-- Settles O13: what a step runs is well-formed (`fetchInstr_wf`), so its registers are below 8 (`RegWrite.high_eq`). -/
theorem highRegistersUntouchedIn32BitMode : Obligations.HighRegistersUntouchedIn32BitMode := by
  intro s t hm h n hn
  obtain ⟨i, hf, he⟩ := step_eq_next.1 h
  obtain ⟨-, u, rfl, hw | ⟨o, w, v, -, -, -, hw⟩⟩ := exec_next he
  · exact hw.high_eq (fetchInstr_wf hf) hm hn
  · obtain ⟨-, -, rfl⟩ := memWrite_eq_ok.1 hw
    exact ⟨rfl, rfl⟩

/-! ## The x87 state -/

/-- The forms that store to memory are no MMX forms (20_memory.md R37). -/
theorem kind_ne_mmx_of_store (h : i.row.store = true) : i.row.kind ≠ .mmx := by
  cases i <;> simp [Instr.row] at h ⊢

/-- A legacy MMX form sets FPU.TOP, FPU.TAG and bits 79:64 of what it writes (10_state.md R16). -/
theorem RegWrite.x87_of_mmx (hw : RegWrite i s u) (hk : i.row.kind = .mmx) :
    u.fpuTop = 0#3 ∧ u.fpuTag = 0#16 ∧ ∀ n : BitVec 3, u.x87[n.toNat]'n.isLt = s.x87[n.toNat]'n.isLt ∨
      (u.x87[n.toNat]'n.isLt).extractLsb' 64 16 = 0xFFFF#16 := by
  cases hw with
  | gprMmx => exact ⟨rfl, rfl, fun _ => .inl rfl⟩
  | mmx d v =>
    refine ⟨rfl, rfl, fun n => ?_⟩
    by_cases hn : n = d
    · subst hn
      right
      rw [touchX87_x87, setMm_same, BitVec.extractLsb'_append_eq_left]
    · exact .inl (setMm_other s v hn)
  | gpr32 _ _ _ h | gpr64 _ _ _ h => exact absurd hk h
  | xmmKeep _ _ _ h | xmmZero _ _ _ h | ymm _ _ _ h => rw [h] at hk; cases hk

/-- No other form touches the x87 state. -/
theorem RegWrite.x87_of_ne_mmx (hw : RegWrite i s u) (hk : i.row.kind ≠ .mmx) :
    keepsX87But [] s u ∧ keepsX87Status s u := by
  cases hw with
  | gprMmx _ _ _ h | mmx _ _ h => exact absurd h hk
  | gpr32 | gpr64 | xmmKeep | xmmZero | ymm => exact ⟨fun _ _ => rfl, rfl, rfl⟩

/-- Settles O18, by the kind of the form. -/
theorem x87StateChangesOnlyByMmxForms : Obligations.X87StateChangesOnlyByMmxForms := by
  intro i s t h
  obtain ⟨-, u, rfl, hw | ⟨o, w, v, -, hs, -, hw⟩⟩ := exec_next h
  · split
    · next hk => exact hw.x87_of_mmx hk
    · next hk => exact hw.x87_of_ne_mmx hk
  · obtain ⟨-, -, rfl⟩ := memWrite_eq_ok.1 hw
    rw [if_neg (kind_ne_mmx_of_store hs)]
    exact ⟨fun _ _ => rfl, rfl, rfl⟩

/-! ## Bits 255:128 of the vector registers -/

/-- A legacy SSE form keeps bits 255:128 (10_state.md R18). -/
theorem RegWrite.upper_of_sse (hw : RegWrite i s u) (hk : i.row.kind = .sse) (n : BitVec 4) :
    (u.ymmReg n).extractLsb' 128 128 = (s.ymmReg n).extractLsb' 128 128 := by
  cases hw with
  | gpr32 | gpr64 | gprMmx | mmx => rfl
  | xmmKeep d v =>
    by_cases hn : n = d
    · subst hn
      rw [setXmmKeep_same, BitVec.extractLsb'_append_eq_left]
    · rw [setXmmKeep_other s v hn]
  | xmmZero _ _ _ h | ymm _ _ _ h => rw [h] at hk; cases hk

/-- A VEX.128 form zeroes bits 255:128 of what it writes (10_state.md R18). -/
theorem RegWrite.upper_of_vex (hw : RegWrite i s u) (hk : i.row.kind = .vex) (hb : i.row.bytes ≤ 16) (n : BitVec 4) :
    u.ymmReg n = s.ymmReg n ∨ (u.ymmReg n).extractLsb' 128 128 = 0#128 := by
  cases hw with
  | gpr32 | gpr64 | gprMmx | mmx => exact .inl rfl
  | xmmZero d v =>
    by_cases hn : n = d
    · subst hn
      exact .inr (by rw [setXmmZero_same, BitVec.extractLsb'_append_eq_left])
    · exact .inl (setXmmZero_other s v hn)
  | xmmKeep _ _ _ h => rw [h] at hk; cases hk
  | ymm _ _ _ _ h => rw [h] at hb; exact absurd hb (by decide)

/-- PEXT and the MMX forms write no vector register (10_state.md R18). -/
theorem RegWrite.ymmReg_eq (hw : RegWrite i s u) (hs : i.row.kind ≠ .sse) (hv : i.row.kind ≠ .vex) (n : BitVec 4) :
    u.ymmReg n = s.ymmReg n := by
  cases hw with
  | gpr32 | gpr64 | gprMmx | mmx => rfl
  | xmmKeep _ _ _ h => exact absurd h hs
  | xmmZero _ _ _ h | ymm _ _ _ h => exact absurd h hv

/-- Settles O19, by the kind of the form; a store writes no vector register. -/
theorem upperHalvesByEncoding : Obligations.UpperHalvesByEncoding := by
  intro i s t h
  obtain ⟨-, u, rfl, hw | ⟨o, w, v, -, -, -, hw⟩⟩ := exec_next h
  · split
    · next hk => exact hw.upper_of_sse hk
    · next hk => exact hw.upper_of_vex hk
    · next hs hv => exact hw.ymmReg_eq hs hv
  · obtain ⟨-, -, rfl⟩ := memWrite_eq_ok.1 hw
    split
    · exact fun _ => rfl
    · exact fun _ _ => .inl rfl
    · exact fun _ => rfl

end Sys2Proof.Machine
end

section
/-! Where the bytes of an instruction are read (spec/10_state.md R13; spec/20_memory.md R31, R41, R44). -/

namespace Sys2Proof.Machine

variable {s : State} {j : Nat} {b : Byte} {a : Word}

theorem linear_cs_64 (h : s.env.mode64 = true) (off : Word) : s.linear .cs off = off := by
  simp [State.linear, State.segBase, State.wrapLin, h]

theorem linear_cs_32 (h : s.env.mode64 = false) (off : Word) :
    s.linear .cs off = low32 ((s.seg .cs).base + off) := by
  simp [State.linear, State.segBase, State.wrapLin, h]

/-- A byte of the instruction is fetched exactly where its linear address is one of the code segment, translation for
execution gives that an address in PHYS_MEM, and the byte has a value. -/
theorem fetchByte_eq_ok : s.fetchByte j = .ok b ↔ ∃ a, s.fetchLinear j = .ok a ∧
    ∃ p, s.physical .fetch a = some p ∧ s.inPhysMem p = true ∧ s.mem.read p = some b := by
  unfold State.fetchByte
  cases s.fetchLinear j with
  | error e => simp [bind, Except.bind]
  | ok a =>
    simp only [bind, Except.bind, Except.ok.injEq, exists_eq_left']
    cases hp : s.physical .fetch a with
    | none =>
      have hpf : s.pageFault .fetch [a] ≠ none := fun h => by simpa [hp] using pageFault_eq_none.1 h a
      obtain ⟨pf, hpf⟩ := Option.ne_none_iff_exists'.1 hpf
      simp [hpf, raise]
    | some p =>
      have hpf : s.pageFault .fetch [a] = none := pageFault_eq_none.2 (by simp [hp])
      have hread : ∀ vs, s.readBytes [p] = .ok vs ↔ s.inPhysMem p = true ∧ ∃ v, s.mem.read p = some v ∧ vs = [v] := by
        simp [readBytes_eq_ok, List.forall₂_cons_left_iff]
      simp only [hpf, Option.toList_some, Option.some.injEq, exists_eq_left']
      cases hr : s.readBytes [p] with
      | error e =>
        simp only [reduceCtorEq, false_iff, not_and]
        intro hin hb
        have := (hread [b]).2 ⟨hin, b, hb, rfl⟩
        rw [hr] at this
        cases this
      | ok vs =>
        obtain ⟨hin, v, hv, rfl⟩ := (hread vs).1 hr
        simp [hin, hv, pure, Except.pure]

/-- In 64-bit mode: a canonical address (10_state.md R13). -/
theorem fetchLinear_64 (h : s.env.mode64 = true) :
    s.fetchLinear j = .ok a ↔ canonical (s.rip + BitVec.ofNat 64 j) = true ∧ a = s.rip + BitVec.ofNat 64 j := by
  simp only [State.fetchLinear, h, ↓reduceIte, linear_cs_64 h]
  cases canonical (s.rip + BitVec.ofNat 64 j) <;> simp [raise, eq_comm]

/-- In 32-bit mode with a flat code segment: below 2^32 (10_state.md R13). -/
theorem fetchLinear_flat (h : s.env.mode64 = false) (hc : (s.seg .cs).check = .flat) :
    s.fetchLinear j = .ok a ↔ s.rip.toNat + j < 2 ^ 32 ∧
      a = low32 ((s.seg .cs).base + BitVec.ofNat 64 (s.rip.toNat + j)) := by
  simp only [State.fetchLinear, h, Bool.false_eq_true, ↓reduceIte, hc, linear_cs_32 h]
  split
  · next hj => simp only [refuse, reduceCtorEq, Nat.not_lt.2 hj, false_and]
  · next hj => exact ⟨fun e => ⟨Nat.not_le.1 hj, (Except.ok.inj e).symm⟩, fun e => e.2 ▸ rfl⟩

/-- In 32-bit mode with a limited code segment: usable, and within the limit (10_state.md R13). -/
theorem fetchLinear_limited (h : s.env.mode64 = false) {limit : BitVec 32} {usable writable : Bool}
    (hc : (s.seg .cs).check = .limited limit usable writable) :
    s.fetchLinear j = .ok a ↔ (usable = true ∧ s.rip.toNat + j ≤ limit.toNat) ∧
      a = low32 ((s.seg .cs).base + BitVec.ofNat 64 (s.rip.toNat + j)) := by
  simp only [State.fetchLinear, h, Bool.false_eq_true, ↓reduceIte, hc, linear_cs_32 h]
  split
  · next hj => simp [(by simpa using hj : usable = true ∧ s.rip.toNat + j ≤ limit.toNat), eq_comm]
  · next hj =>
    have hj : ¬(usable = true ∧ s.rip.toNat + j ≤ limit.toNat) := by simpa using hj
    simp [raise, hj]

/-- Settles O10: `fetchByte_eq_ok`, with the linear address of each mode and each kind of code segment. -/
theorem fetchReadsMemoryThroughCs : Obligations.FetchReadsMemoryThroughCs := by
  intro s j b
  dsimp only
  split
  · next h => simp only [fetchByte_eq_ok, fetchLinear_64 h, and_assoc, exists_eq_left, exists_and_left]
  · next h =>
    have h : s.env.mode64 = false := by simpa using h
    rw [fetchByte_eq_ok]
    cases hc : (s.seg .cs).check with
    | flat => simp only [fetchLinear_flat h hc, and_assoc, exists_eq_left, exists_and_left]
    | limited limit usable writable =>
      simp only [fetchLinear_limited h hc, and_assoc, exists_eq_left, exists_and_left]

end Sys2Proof.Machine
end

section
/-! What single forms compute: a form that is past its checks and whose source can be read completes, with the write of its
encoding kind (spec/40_pext.md, 42_pextrw.md, 44_phminposuw.md, 47_pinsrw.md, 48_pmaddubsw.md, 49_pmaddwd.md). -/

namespace Sys2Proof.Machine

variable {s : State} {P : State → Prop}

/-! ## A meaning that gets past its checks completes -/

/-- A check that passes, a source that can be read, then a write. -/
theorem completes_of_load {k w len n : Nat} {c : Res Unit} {al : Bool} {ps : List Prefix} {reg : BitVec k → BitVec w}
    {o : RM k} {f : BitVec w → State} {b : BitVec w} (hw : w % 8 = 0) (hc : c = .ok ())
    (hb : sourceIs al ps n reg o b s) (hP : P ((f b).setRip (s.nextRip len))) :
    completes (finish len s (do c; let b ← loadRM w al ps n reg o s; return f b)) P :=
  ⟨_, finish_eq_next.2 ⟨_, check_read_eq_ok.2 ⟨hc, b, (loadRM_eq_ok hw).2 hb, rfl⟩, rfl⟩, hP⟩

/-- A check that passes, then a write. -/
theorem completes_of_write {len : Nat} {c : Res Unit} {t : State} (hc : c = .ok ())
    (hP : P (t.setRip (s.nextRip len))) : completes (finish len s (do c; .ok t)) P :=
  ⟨_, finish_eq_next.2 ⟨_, check_then_eq_ok.2 ⟨hc, rfl⟩, rfl⟩, hP⟩

variable {f : Feature}

theorem mmxForm_completes {g : BitVec 64 → BitVec 64 → BitVec 64} {e : LegEnc} {dst : BitVec 3} {src : RM 3}
    {b : BitVec 64} (hr : mmxReady f e s) (hb : sourceIs false e.prefixes e.len s.mm src b s) :
    completes (mmxForm f g e dst src s) (writesMm dst (g (s.mm dst) b) e.len s) :=
  ⟨_, mmxForm_eq_next.2 ⟨hr, b, hb, rfl⟩, writesMm_set ..⟩

theorem sseForm_completes {g : BitVec 128 → BitVec 128 → BitVec 128} {e : LegEnc} {dst : BitVec 4} {src : RM 4}
    {b : BitVec 128} (hr : sseReady f e s) (hb : sourceIs true e.prefixes e.len s.xmm src b s) :
    completes (sseForm f g e dst src s) (writesXmmKeep dst (g (s.xmm dst) b) e.len s) :=
  ⟨_, sseForm_eq_next.2 ⟨hr, b, hb, rfl⟩, writesXmmKeep_set ..⟩

theorem vex128Form_completes {g : BitVec 128 → BitVec 128 → BitVec 128} {e : VexEnc} {dst src1 : BitVec 4} {src2 : RM 4}
    {b : BitVec 128} (hr : vexReady f e s) (hb : sourceIs s.env.vexM128Align e.prefixes e.len s.xmm src2 b s) :
    completes (vex128Form f g e dst src1 src2 s) (writesXmmZero dst (g (s.xmm src1) b) e.len s) :=
  ⟨_, vex128Form_eq_next.2 ⟨hr, b, hb, rfl⟩, writesXmmZero_set ..⟩

theorem vex256Form_completes {g : BitVec 256 → BitVec 256 → BitVec 256} {e : VexEnc} {dst src1 : BitVec 4} {src2 : RM 4}
    {b : BitVec 256} (hr : vexReady f e s) (hb : sourceIs false e.prefixes e.len s.ymmReg src2 b s) :
    completes (vex256Form f g e dst src1 src2 s) (writesYmm dst (g (s.ymmReg src1) b) e.len s) :=
  ⟨_, vex256Form_eq_next.2 ⟨hr, b, hb, rfl⟩, writesYmm_set ..⟩

/-- The selector of 2^k elements is the low k bits of imm8. -/
theorem sel_two_pow (k : Nat) (imm : Byte) : sel (2 ^ k) imm = (imm.extractLsb' 0 k).toNat := by
  simp [sel]

/-! ## PEXT -/

/-- The 64-bit form in 64-bit mode, where it exists. -/
theorem exec_pextR64 (h64 : s.env.mode64 = true) (e : VexEnc) (dst src : BitVec 4) (mask : RM 4) :
    exec (.pextR64 e dst src mask) s = finish e.len s (do
      checkPext e s
      let m ← loadRM 64 false e.prefixes e.len s.reg64 mask s
      return s.setReg64 dst (pext (s.reg64 src) m)) := by
  simp [exec, execPextR64, h64]

/-- A 32-bit result, written to a general register. -/
theorem writesGpr_of_setReg32 (s : State) (d : BitVec 4) (v : BitVec 32) (len : Nat) :
    writesGpr d v len s ((s.setReg32 d v).setRip (s.nextRip len)) := by
  simpa using writesGpr_set32 s d v (Nat.le_refl 32) len

/-- Settles O38, by the width of the form. -/
theorem pextResult : Obligations.PextResult := by
  intro e dst src o s hr
  refine ⟨fun m hm => ?_, fun m h64 hm => ?_⟩
  · exact completes_of_load (by decide) (checkPext_eq_ok.2 hr) hm (writesGpr_of_setReg32 ..)
  · rw [exec_pextR64 h64]
    exact completes_of_load (by decide) (checkPext_eq_ok.2 hr) hm (writesGpr_set64 ..)

/-! ## PEXTRW -/

/-- Settles O43: after the check, one write of a general register and the x87 side effects. -/
theorem pextrwFromMmx : Obligations.PextrwFromMmx := by
  intro e d n imm s hr
  rw [← sel_two_pow]
  refine completes_of_write (checkMmx_eq_ok.2 ⟨rfl, hr⟩) ?_
  exact ⟨(writesGpr_set32 s d _ (by decide) e.len).1, rfl, rfl, rfl,
    fun _ h => setReg32_other s _ (by simpa using h), fun _ _ => rfl, fun _ _ => rfl, fun _ => rfl, rfl, rfl, rfl⟩

/-- Settles O44: after the check of each form, one write of a general register. -/
theorem pextrwFromXmm : Obligations.PextrwFromXmm := by
  intro d n imm s
  dsimp only
  rw [← sel_two_pow]
  refine ⟨fun e hr => ?_, fun e hr => ?_, fun e hr hl hv hw => ?_⟩
  · exact completes_of_write (checkSse_eq_ok.2 ⟨rfl, hr⟩) (writesGpr_set32 _ _ _ (by decide) _)
  · exact completes_of_write (checkSse_eq_ok.2 ⟨rfl, hr⟩) (writesGpr_set32 _ _ _ (by decide) _)
  · have hud : (e.l || vvvvUsed e s) = false := by simp [hl, vvvvUsed_eq, hv]
    have hud' : (e.l || vvvvUsed e s || rmIsMem (.reg n : RM 4)) = false := by rw [hud]; rfl
    constructor
    · exact completes_of_write (checkVex_eq_ok.2 ⟨hud', fun _ => hw, hr⟩) (writesGpr_set32 _ _ _ (by decide) _)
    · exact completes_of_write (checkVex_eq_ok.2 ⟨hud, fun _ => hw, hr⟩) (writesGpr_set32 _ _ _ (by decide) _)

/-! ## PHMINPOSUW -/

/-- Settles O53: the legacy form is an SSE form that ignores its old destination; the VEX form has a further check. -/
theorem phminposuwForms : Obligations.PhminposuwForms := by
  intro dst src s v
  refine ⟨fun e hr hb => sseForm_completes (g := fun _ v => minpos v) hr hb, fun e hr hl hv hb => ?_⟩
  have hud : (e.l || vvvvUsed e s) = false := by simp [hl, vvvvUsed_eq, hv]
  exact completes_of_load (by decide) (checkVex_eq_ok.2 ⟨hud, nofun, hr⟩) hb (writesXmmZero_set ..)

/-! ## PINSRW -/

/-- Settles O56, form by form: the check, the low word of the source, the write of the encoding kind. -/
theorem pinsrwForms : Obligations.PinsrwForms := by
  intro src imm s t
  refine ⟨fun e dst hr hb => ?_, fun e dst hr hb => ?_, fun e dst src1 hr hl hw hb => ?_⟩ <;> rw [← sel_two_pow]
  · exact completes_of_load (by decide) (checkMmx_eq_ok.2 ⟨rfl, hr⟩) hb (writesMm_set ..)
  · exact completes_of_load (by decide) (checkSse_eq_ok.2 ⟨rfl, hr⟩) hb (writesXmmKeep_set ..)
  · exact completes_of_load (by decide) (checkVex_eq_ok.2 ⟨hl, fun _ => hw, hr⟩) hb (writesXmmZero_set ..)

/-! ## PMADDUBSW and PMADDWD -/

/-- Settles O57, by the encoding kind. -/
theorem pmaddubswLegacyForms : Obligations.PmaddubswLegacyForms := by
  intro e s
  exact ⟨fun _ _ _ hr hb => mmxForm_completes hr hb, fun _ _ _ hr hb => sseForm_completes hr hb⟩

/-- Settles O58, by the encoding kind. -/
theorem vpmaddubswForms : Obligations.VpmaddubswForms := by
  intro e dst src1 src2 s
  exact ⟨fun _ hr hb => vex128Form_completes hr hb, fun _ hr hb => vex256Form_completes hr hb⟩

/-- Settles O59, by the encoding kind. -/
theorem pmaddwdLegacyForms : Obligations.PmaddwdLegacyForms := by
  intro e s
  exact ⟨fun _ _ _ hr hb => mmxForm_completes hr hb, fun _ _ _ hr hb => sseForm_completes hr hb⟩

/-- Settles O60, by the encoding kind. -/
theorem vpmaddwdForms : Obligations.VpmaddwdForms := by
  intro e dst src1 src2 s
  exact ⟨fun _ hr hb => vex128Form_completes hr hb, fun _ hr hb => vex256Form_completes hr hb⟩

end Sys2Proof.Machine
end

section
/-! When an instruction completes, and by what name a memory operand stops it that passes the checks of 20_memory.md R32
(spec/10_state.md R22; spec/20_memory.md R33, R34, R41, R44; spec/60_exceptions.md R233, R235). -/

namespace Sys2Proof.Machine

variable {i : Instr} {s : State} {o : MemOp} {g : Seg} {off : Word}

/-! ## Rows of the tables -/

/-- No form that stores asks for 16-byte alignment (20_memory.md R35, R36). -/
theorem mustAlign16_of_store (h : i.row.store = true) : mustAlign16 i s = false := by
  cases i <;> simp [Instr.row, mustAlign16] at h ⊢

/-- A memory operand on a form that takes a register only is a #UD condition (30_encoding.md R73 item 7). -/
theorem regOnly_of_passes (hp : passesChecks i s = true) (hm : i.memOp = some o) : i.row.regOnly = false := by
  cases hr : i.row.regOnly with
  | false => rfl
  | true => simp [passesChecks, udCond, hr, hm] at hp

/-! ## Reads and writes that complete -/

/-- `MemRead` answers some value exactly when the access is accepted and every byte is in PHYS_MEM and has a value. -/
theorem memRead_completes {w : Nat} (hw : w % 8 = 0) {al : Bool} :
    (∃ v, s.memRead w al g off = .ok v) ↔ accepts .read al (w / 8) g off s ∧ ∀ j < w / 8, ∃ a,
      s.operandByte .read g off j = some a ∧ s.inPhysMem a = true ∧ (s.mem.read a).isSome = true := by
  constructor
  · rintro ⟨v, hv⟩
    obtain ⟨hacc, hh⟩ := (memRead_eq_ok hw).1 hv
    refine ⟨hacc, fun j hj => ?_⟩
    obtain ⟨a, ha, hin, hr⟩ := hh j hj
    exact ⟨a, ha, hin, by rw [hr]; rfl⟩
  · rintro ⟨hacc, hh⟩
    have hbyte : ∀ j < w / 8, ∃ x : Byte, ∃ a,
        s.operandByte .read g off j = some a ∧ s.inPhysMem a = true ∧ s.mem.read a = some x := by
      intro j hj
      obtain ⟨a, ha, hin, hr⟩ := hh j hj
      obtain ⟨x, hx⟩ := Option.isSome_iff_exists.1 hr
      exact ⟨x, a, ha, hin, hx⟩
    choose! x hx using hbyte
    refine ⟨pack w x (w / 8), (memRead_eq_ok hw).2 ⟨hacc, fun j hj => ?_⟩⟩
    obtain ⟨a, ha, hin, hr⟩ := hx j hj
    exact ⟨a, ha, hin, hr.trans (congrArg some (elem_pack x hj (Nat.mul_div_le w 8)).symm)⟩

/-- What the operand of a form that reads it has to be. -/
theorem operandReady_of_load (hm : i.memOp = some o) (hs : i.row.store = false) :
    operandReady i s ↔
      accepts .read (mustAlign16 i s) i.row.bytes (operandSeg s.env.mode64 i.prefixes o) (s.offset i.prefixes i.len o) s ∧
      ∀ j < i.row.bytes, ∃ a,
        s.operandByte .read (operandSeg s.env.mode64 i.prefixes o) (s.offset i.prefixes i.len o) j = some a ∧
          s.inPhysMem a = true ∧ (s.mem.read a).isSome = true := by
  simp [operandReady, hm, hs, accessOf]

/-- What the operand of a form that stores to it has to be. -/
theorem operandReady_of_store (hm : i.memOp = some o) (hs : i.row.store = true) :
    operandReady i s ↔
      accepts .write false i.row.bytes (operandSeg s.env.mode64 i.prefixes o) (s.offset i.prefixes i.len o) s ∧
      storable i.row.bytes (operandSeg s.env.mode64 i.prefixes o) (s.offset i.prefixes i.len o) s := by
  simp [operandReady, hm, hs, accessOf, mustAlign16_of_store hs]

/-- A meaning answers a next state exactly when its checks pass and the rest of it answers a state. -/
theorem finish_preChecks_completes {r : Res State} :
    (∃ t, finish i.len s (do preChecks i s; r) = .next t) ↔ passesChecks i s = true ∧ ∃ u, r = .ok u := by
  simp only [finish_eq_next, check_then_eq_ok, preChecks_eq_ok]
  constructor
  · rintro ⟨t, u, ⟨hp, hu⟩, -⟩
    exact ⟨hp, u, hu⟩
  · rintro ⟨hp, u, hu⟩
    exact ⟨_, u, ⟨hp, hu⟩, rfl⟩

/-- A read and then a write answers a state exactly when the read answers a value. -/
theorem read_then_completes {α : Type} {r : Res α} {f : α → State} :
    (∃ u, (do let b ← r; .ok (f b)) = Except.ok u) ↔ ∃ b, r = .ok b := by
  cases r <;> simp [bind, Except.bind]

/-- Settles O26, by the shape of the instruction: no memory access, a read, or a store. -/
theorem completesExactly : Obligations.CompletesExactly := by
  intro i s hwf
  cases exec_shape i s with
  | refused hf _ => rw [hf] at hwf; cases hwf
  | plain t hm _ he =>
    rw [he, finish_preChecks_completes]
    simp [operandReady, hm]
  | load o w f hm hs hn _ he =>
    rw [he, finish_preChecks_completes]
    refine and_congr_right fun hp => ?_
    obtain rfl := hn (regOnly_of_passes hp hm)
    rw [read_then_completes, operandReady_of_load hm hs, memRead_completes (Nat.mul_mod_right 8 _),
      Nat.mul_div_cancel_left _ (by decide : 0 < 8)]
  | store o w v hm hs hn he =>
    rw [he, finish_preChecks_completes, operandReady_of_store hm hs]
    subst hn
    simp only [memWrite_eq_ok, Nat.mul_div_cancel_left _ (by decide : 0 < 8)]
    exact and_congr_right fun _ => ⟨fun ⟨_, ha, hst, _⟩ => ⟨ha, hst⟩, fun ⟨ha, hst⟩ => ⟨_, ha, hst, rfl⟩⟩

/-! ## Stops by name (20_memory.md R41, R44; 10_state.md R22) -/

/-- The addresses collected for an accepted operand are those of its bytes. -/
theorem mem_addrsOf {k : Access} {n a : Nat} (h : ∀ j < n, (s.operandByte k g off j).isSome = true) :
    a ∈ s.addrsOf k g off n ↔ ∃ j < n, s.operandByte k g off j = some a := by
  simp only [State.addrsOf, List.mem_map, List.mem_range]
  refine exists_congr fun j => and_congr_right fun hj => ?_
  obtain ⟨b, hb⟩ := Option.isSome_iff_exists.1 (h j hj)
  simp [hb]

/-- An access with a byte outside PHYS_MEM is refused, and names such a byte. -/
theorem outsidePhysMem_of {as : List Nat} (h : ∃ a ∈ as, s.inPhysMem a = false) :
    ∃ a ∈ as, s.inPhysMem a = false ∧ s.readBytes as = refuse (.outsidePhysMem a) ∧
      ∀ vs, s.writeBytes as vs = refuse (.outsidePhysMem a) := by
  cases hf : as.find? fun a => !s.inPhysMem a with
  | none =>
    obtain ⟨a, ha, hin⟩ := h
    have := List.find?_eq_none.1 hf a ha
    simp [hin] at this
  | some a =>
    have hin := List.find?_some hf
    exact ⟨a, List.mem_of_find?_eq_some hf, by simpa using hin, by simp [State.readBytes, hf],
      by simp [State.writeBytes, hf]⟩

theorem find_outside_eq_none {as : List Nat} (h : ∀ a ∈ as, s.inPhysMem a = true) :
    (as.find? fun a => !s.inPhysMem a) = none :=
  List.find?_eq_none.2 fun a ha => by simp [h a ha]

/-- A store in PHYS_MEM with a byte of the program text is refused, and names such a byte. -/
theorem storeIntoText_of {as : List Nat} (hin : ∀ a ∈ as, s.inPhysMem a = true) (h : ∃ a ∈ as, a ∈ s.textAddrs) :
    ∃ a ∈ as, a ∈ s.textAddrs ∧ ∀ vs, s.writeBytes as vs = refuse (.storeIntoText a) := by
  cases hf : as.find? fun a => s.textAddrs.contains a with
  | none =>
    obtain ⟨a, ha, ht⟩ := h
    have := List.find?_eq_none.1 hf a ha
    simp [ht] at this
  | some a =>
    have ht := List.find?_some hf
    exact ⟨a, List.mem_of_find?_eq_some hf, by simpa using ht, fun vs => by
      simp only [State.writeBytes, find_outside_eq_none hin, hf]⟩

/-- A read of a byte that nothing has written is a fault, and names such a byte. -/
theorem readAll_unwritten {m : Memory} {as : List Nat} (h : ∃ a ∈ as, m.read a = none) :
    ∃ a ∈ as, m.read a = none ∧ m.readAll as = .error (.fault (.unwrittenByte a)) := by
  induction as with
  | nil => simp at h
  | cons b as ih =>
    cases hb : m.read b with
    | none => exact ⟨b, List.mem_cons_self .., hb, by simp [Memory.readAll, hb]⟩
    | some v =>
      obtain ⟨a, ha, hn⟩ := h
      have ha : a ∈ as := (List.mem_cons.1 ha).resolve_left (by rintro rfl; rw [hn] at hb; cases hb)
      obtain ⟨c, hc, hcn, hr⟩ := ih ⟨a, ha, hn⟩
      exact ⟨c, List.mem_cons_of_mem _ hc, hcn, by simp [Memory.readAll, hb, hr, Except.map]⟩

theorem unwrittenByte_of {as : List Nat} (hin : ∀ a ∈ as, s.inPhysMem a = true) (h : ∃ a ∈ as, s.mem.read a = none) :
    ∃ a ∈ as, s.mem.read a = none ∧ s.readBytes as = .error (.fault (.unwrittenByte a)) := by
  obtain ⟨a, ha, hn, hr⟩ := readAll_unwritten h
  exact ⟨a, ha, hn, by simp [State.readBytes, find_outside_eq_none hin, hr]⟩

/-- After the checks, the stop of an accepted operand's bytes is the stop of the instruction. -/
theorem exec_operand_stop (hwf : i.wf s.env.mode64 = true) (hp : passesChecks i s = true) (hm : i.memOp = some o)
    (hacc : accepts (accessOf i) (mustAlign16 i s) i.row.bytes (operandSeg s.env.mode64 i.prefixes o)
      (s.offset i.prefixes i.len o) s) {as : List Nat} {e : Stop}
    (has : as = s.addrsOf (accessOf i) (operandSeg s.env.mode64 i.prefixes o) (s.offset i.prefixes i.len o) i.row.bytes)
    (hread : i.row.store = false → s.readBytes as = .error e)
    (hwrite : i.row.store = true → ∀ vs, s.writeBytes as vs = .error e) : exec i s = e.outcome := by
  have haddr := operandAddrs_eq_ok.2 ⟨hacc, has⟩
  have hpre := preChecks_eq_ok.2 hp
  have h8 : 8 * i.row.bytes / 8 = i.row.bytes := Nat.mul_div_cancel_left _ (by decide)
  cases exec_shape i s with
  | refused hf _ => rw [hf] at hwf; cases hwf
  | plain t hn _ _ => rw [hm] at hn; cases hn
  | load o' w f hm' hs hn _ he =>
    obtain rfl : o = o' := Option.some.inj (hm.symm.trans hm')
    obtain rfl := hn (regOnly_of_passes hp hm)
    rw [accessOf, if_neg (by simp [hs])] at haddr
    rw [he]
    simp [hpre, State.memRead, h8, haddr, hread hs, bind, Except.bind]
  | store o' w v hm' hs hn he =>
    obtain rfl : o = o' := Option.some.inj (hm.symm.trans hm')
    subst hn
    rw [accessOf, if_pos hs, mustAlign16_of_store hs] at haddr
    rw [he]
    simp [hpre, State.memWrite, h8, haddr, hwrite hs, bind, Except.bind]

/-- Settles O27: the bytes of the operand stop by name, and so the instruction does (`exec_operand_stop`). -/
theorem unreadyOperandStopsByName : Obligations.UnreadyOperandStopsByName := by
  intro i s o hwf hp hm
  dsimp only
  intro hacc
  have ⟨_, _, _, hall⟩ := hacc
  simp only [← mem_addrsOf hall]
  have stop := fun {e : Stop} => exec_operand_stop (e := e) hwf hp hm hacc rfl
  refine ⟨fun h => ?_, fun hin hs h => ?_, fun hin hs h => ?_⟩
  · obtain ⟨a, ha, hout, hr, hw⟩ := outsidePhysMem_of h
    exact ⟨a, ha, hout, stop (fun _ => hr) (fun _ => hw)⟩
  · obtain ⟨a, ha, ht, hw⟩ := storeIntoText_of hin h
    exact ⟨a, ha, ht, stop (by simp [hs]) (fun _ => hw)⟩
  · obtain ⟨a, ha, hn, hr⟩ := unwrittenByte_of hin h
    exact ⟨a, ha, hn, stop (fun _ => hr) (by simp [hs])⟩

end Sys2Proof.Machine
end

section
/-! RFLAGS, MXCSR and CPL matter to an instruction through alignment checking and translation alone (spec/10_state.md R14,
R20; spec/20_memory.md R40; spec/60_exceptions.md R232): a change of the three that neither of them sees passes through
every operation, and so through all 56 forms. -/

namespace Sys2Proof.Machine

/-- A change of RFLAGS, MXCSR and CPL. -/
structure SystemChange where
  rflags : Word → Word
  mxcsr : BitVec 32 → BitVec 32
  cpl : BitVec 2 → BitVec 2

/-- The state after the change. -/
def SystemChange.on (g : SystemChange) (s : State) : State :=
  { s with rflags := g.rflags s.rflags, mxcsr := g.mxcsr s.mxcsr, env := { s.env with cpl := g.cpl s.env.cpl } }

namespace SystemChange

/-- Neither alignment checking nor translation sees the change. -/
structure Unseen (g : SystemChange) (s : State) : Prop where
  misaligned : ∀ lin n, (g.on s).misaligned lin n = s.misaligned lin n
  transRule : ∀ k a, (g.on s).transRule k a = s.transRule k a

variable {g : SystemChange} {s : State}

/-! ## Memory operands -/

theorem Unseen.physical (h : g.Unseen s) (k : Access) (a : Word) : (g.on s).physical k a = s.physical k a := by
  unfold State.physical
  rw [h.transRule]

theorem Unseen.pageFault (h : g.Unseen s) (k : Access) (as : List Word) :
    (g.on s).pageFault k as = s.pageFault k as := by
  unfold State.pageFault State.faultingBytes
  simp only [h.transRule]
  rfl

theorem Unseen.operandAddrs (h : g.Unseen s) (sg : Seg) (off : Word) (n : Nat) (k : Access) (al : Bool) :
    (g.on s).operandAddrs sg off n k al = s.operandAddrs sg off n k al := by
  unfold State.operandAddrs
  have hp : (g.on s).physical k = s.physical k := funext (h.physical k)
  simp only [h.pageFault, h.misaligned, hp]
  rfl

theorem Unseen.textAddrs (h : g.Unseen s) : (g.on s).textAddrs = s.textAddrs := by
  unfold State.textAddrs
  simp only [h.physical]
  rfl

theorem Unseen.memRead (h : g.Unseen s) (w : Nat) (al : Bool) (sg : Seg) (off : Word) :
    (g.on s).memRead w al sg off = s.memRead w al sg off := by
  unfold State.memRead
  rw [h.operandAddrs]
  rfl

theorem Unseen.writeBytes (h : g.Unseen s) (as : List Nat) (vs : List Byte) :
    (g.on s).writeBytes as vs = (s.writeBytes as vs).map g.on := by
  have hin : (g.on s).inPhysMem = s.inPhysMem := rfl
  unfold State.writeBytes
  rw [h.textAddrs, hin]
  cases as.find? fun a => !s.inPhysMem a with
  | some a => rfl
  | none => cases as.find? fun a => s.textAddrs.contains a <;> rfl

theorem Unseen.memWrite (h : g.Unseen s) {w : Nat} (sg : Seg) (off : Word) (v : BitVec w) :
    (g.on s).memWrite sg off v = (s.memWrite sg off v).map g.on := by
  unfold State.memWrite
  rw [h.operandAddrs]
  cases s.operandAddrs sg off (w / 8) .write false with
  | error e => rfl
  | ok as => exact h.writeBytes as _

/-- An r/m source is the same. -/
theorem Unseen.loadRM (h : g.Unseen s) {k w : Nat} (al : Bool) (ps : List Prefix) (len : Nat) (reg : BitVec k → BitVec w)
    (o : RM k) : loadRM w al ps len reg o (g.on s) = loadRM w al ps len reg o s := by
  cases o with
  | reg n => rfl
  | mem m => exact h.memRead w al _ _

theorem Unseen.storeRM32 (h : g.Unseen s) {w : Nat} (ps : List Prefix) (len : Nat) (v : BitVec w) (o : RM 4) :
    storeRM32 ps len v o (g.on s) = (storeRM32 ps len v o s).map g.on := by
  cases o with
  | reg n => rfl
  | mem m => exact h.memWrite _ _ v

theorem Unseen.storeRM64 (h : g.Unseen s) (ps : List Prefix) (len : Nat) (v : Word) (o : RM 4) :
    storeRM64 ps len v o (g.on s) = (storeRM64 ps len v o s).map g.on := by
  cases o with
  | reg n => rfl
  | mem m => exact h.memWrite _ _ v

/-! ## Whole meanings -/

/-- The change passes through a meaning: what its outcome holds on the changed state is the changed outcome. -/
def Passes (g : SystemChange) (s : State) (i : Instr) : Prop := exec i (g.on s) = mapNext g.on (exec i s)

/-- The end of a meaning. -/
theorem finish_on (len : Nat) (r : Res State) : finish len (g.on s) (r.map g.on) = mapNext g.on (finish len s r) := by
  cases r with
  | ok u => rfl
  | error e => cases e <;> rfl

/-- A check, then a part that ends in the changed state. -/
theorem finish_check_on {len : Nat} {c : Res Unit} {r r' : Res State} (hr : r' = r.map g.on) :
    finish len (g.on s) (do c; r') = mapNext g.on (finish len s (do c; r)) := by
  subst hr
  rw [← finish_on]
  cases c <;> rfl

/-- A form that reads its r/m operand and writes a register. -/
theorem Passes.of_load (h : g.Unseen s) {i : Instr} {k w len n : Nat} {c : Res Unit} {al : Bool} {ps : List Prefix}
    {reg : BitVec k → BitVec w} {o : RM k} {f f' : BitVec w → State}
    (he' : exec i (g.on s) = finish len (g.on s) (do c; let b ← loadRM w al ps n reg o (g.on s); return f' b))
    (he : exec i s = finish len s (do c; let b ← loadRM w al ps n reg o s; return f b))
    (hf : ∀ b, f' b = g.on (f b)) : Passes g s i := by
  unfold Passes
  rw [he, he', h.loadRM]
  refine finish_check_on ?_
  cases loadRM w al ps n reg o s with
  | error e => rfl
  | ok b => exact congrArg Except.ok (hf b)

/-- The four encoding kinds (43_phadd.md R143). -/
theorem Passes.of_mmx (h : g.Unseen s) {i : Instr} {f : Feature} {op : BitVec 64 → BitVec 64 → BitVec 64} {e : LegEnc}
    {dst : BitVec 3} {src : RM 3} (he : ∀ t, exec i t = mmxForm f op e dst src t) : Passes g s i :=
  .of_load h (he (g.on s)) (he s) fun _ => rfl

theorem Passes.of_sse (h : g.Unseen s) {i : Instr} {f : Feature} {op : BitVec 128 → BitVec 128 → BitVec 128} {e : LegEnc}
    {dst : BitVec 4} {src : RM 4} (he : ∀ t, exec i t = sseForm f op e dst src t) : Passes g s i :=
  .of_load h (he (g.on s)) (he s) fun _ => rfl

theorem Passes.of_vex128 (h : g.Unseen s) {i : Instr} {f : Feature} {op : BitVec 128 → BitVec 128 → BitVec 128}
    {e : VexEnc} {dst src1 : BitVec 4} {src2 : RM 4} (he : ∀ t, exec i t = vex128Form f op e dst src1 src2 t) :
    Passes g s i :=
  .of_load h (he (g.on s)) (he s) fun _ => rfl

theorem Passes.of_vex256 (h : g.Unseen s) {i : Instr} {f : Feature} {op : BitVec 256 → BitVec 256 → BitVec 256}
    {e : VexEnc} {dst src1 : BitVec 4} {src2 : RM 4} (he : ∀ t, exec i t = vex256Form f op e dst src1 src2 t) :
    Passes g s i :=
  .of_load h (he (g.on s)) (he s) fun _ => rfl

/-- A form that writes up to 32 bits to a general register or to memory. -/
theorem Passes.of_store32 (h : g.Unseen s) {i : Instr} {w len n : Nat} {c : Res Unit} {ps : List Prefix} {v : BitVec w}
    {o : RM 4} (he' : exec i (g.on s) = finish len (g.on s) (do c; storeRM32 ps n v o (g.on s)))
    (he : exec i s = finish len s (do c; storeRM32 ps n v o s)) : Passes g s i := by
  unfold Passes
  rw [he, he']
  exact finish_check_on (h.storeRM32 ps n v o)

/-- A form that writes a qword to a general register or to memory. -/
theorem Passes.of_store64 (h : g.Unseen s) {i : Instr} {len n : Nat} {c : Res Unit} {ps : List Prefix} {v : Word}
    {o : RM 4} (he' : exec i (g.on s) = finish len (g.on s) (do c; storeRM64 ps n v o (g.on s)))
    (he : exec i s = finish len s (do c; storeRM64 ps n v o s)) : Passes g s i := by
  unfold Passes
  rw [he, he']
  exact finish_check_on (h.storeRM64 ps n v o)

/-- A form that takes a register source only. -/
theorem Passes.of_reg {i : Instr} {len : Nat} {c : Res Unit} {t t' : State}
    (he' : exec i (g.on s) = finish len (g.on s) (do c; return t')) (he : exec i s = finish len s (do c; return t))
    (ht : t' = g.on t) : Passes g s i := by
  unfold Passes
  rw [he, he']
  exact finish_check_on (congrArg Except.ok ht)

/-- A form that has no meaning in the mode. -/
theorem Passes.of_refused {i : Instr} {r : Refusal} (he' : exec i (g.on s) = .refused r) (he : exec i s = .refused r) :
    Passes g s i := by
  unfold Passes
  rw [he, he']
  rfl

end SystemChange

/-! ## The three forms that exist in 64-bit mode only (93_implementation_defined.md U6, U7) -/

section

variable {s : State}

theorem exec_pextR64_refused (hm : s.env.mode64 = false) (e : VexEnc) (dst src : BitVec 4) (mask : RM 4) :
    exec (.pextR64 e dst src mask) s = .refused .notEncodable := by
  simp [exec, execPextR64, hm, refuse, bind, Except.bind, Stop.outcome]

theorem exec_pextrq_refused (hm : s.env.mode64 = false) (e : LegEnc) (dst : RM 4) (src : BitVec 4) (imm : Byte) :
    exec (.pextrq e dst src imm) s = .refused .notEncodable := by
  simp [exec, execPextrq, hm, refuse, bind, Except.bind, Stop.outcome]

theorem exec_pinsrq_refused (hm : s.env.mode64 = false) (e : LegEnc) (dst : BitVec 4) (src : RM 4) (imm : Byte) :
    exec (.pinsrq e dst src imm) s = .refused .notEncodable := by
  simp [exec, execPinsrq, hm, refuse, bind, Except.bind, Stop.outcome]

theorem exec_pextrq (h64 : s.env.mode64 = true) (e : LegEnc) (dst : RM 4) (src : BitVec 4) (imm : Byte) :
    exec (.pextrq e dst src imm) s = finish e.len s (do
      checkSse .sse41 false e s
      storeRM64 e.prefixes e.len (elem 64 (s.xmm src) (sel 2 imm)) dst s) := by
  simp [exec, execPextrq, h64]

theorem exec_pinsrq (h64 : s.env.mode64 = true) (e : LegEnc) (dst : BitVec 4) (src : RM 4) (imm : Byte) :
    exec (.pinsrq e dst src imm) s = finish e.len s (do
      checkSse .sse41 false e s
      let t ← loadRM 64 false e.prefixes e.len s.reg64 src s
      return insertKeep s dst (sel 2 imm) t) := by
  simp [exec, execPinsrq, h64]

end

/-! ## All 56 forms -/

open SystemChange in
/-- An instruction does on the changed state what it does on the state, up to the change. -/
theorem exec_on {g : SystemChange} {s : State} (h : g.Unseen s) (i : Instr) :
    exec i (g.on s) = mapNext g.on (exec i s) := by
  change Passes g s i
  cases i with
  | phaddwMmx | phadddMmx | phaddswMmx | phsubwMmx | phsubdMmx | phsubswMmx | pmaddubswMmx | pmaddwdMmx =>
    exact .of_mmx h fun _ => rfl
  | phaddwXmm | phadddXmm | phaddswXmm | phsubwXmm | phsubdXmm | phsubswXmm | pmaddubswXmm | pmaddwdXmm =>
    exact .of_sse h fun _ => rfl
  | vphaddwXmm | vphadddXmm | vphaddswXmm | vphsubwXmm | vphsubdXmm | vphsubswXmm | vpmaddubswXmm | vpmaddwdXmm =>
    exact .of_vex128 h fun _ => rfl
  | vphaddwYmm | vphadddYmm | vphaddswYmm | vphsubwYmm | vphsubdYmm | vphsubswYmm | vpmaddubswYmm | vpmaddwdYmm =>
    exact .of_vex256 h fun _ => rfl
  | pextR32 | phminposuw | vphminposuw | pinsrb | pinsrd | vpinsrb | vpinsrd | vpinsrq | pinsrwMmx | pinsrwXmm | vpinsrw =>
    exact .of_load h rfl rfl fun _ => rfl
  | pextrb | pextrd | vpextrb | vpextrd | pextrwStore | vpextrwStore => exact .of_store32 h rfl rfl
  | vpextrq => exact .of_store64 h rfl rfl
  | pextrwMmx | pextrwXmm | vpextrw => exact .of_reg rfl rfl rfl
  | pextR64 e dst src mask =>
    cases hm : s.env.mode64 with
    | true => exact .of_load h (exec_pextR64 (s := g.on s) hm ..) (exec_pextR64 hm ..) fun _ => rfl
    | false => exact .of_refused (exec_pextR64_refused (s := g.on s) hm ..) (exec_pextR64_refused hm ..)
  | pextrq e dst src imm =>
    cases hm : s.env.mode64 with
    | true => exact .of_store64 h (exec_pextrq (s := g.on s) hm ..) (exec_pextrq hm ..)
    | false => exact .of_refused (exec_pextrq_refused (s := g.on s) hm ..) (exec_pextrq_refused hm ..)
  | pinsrq e dst src imm =>
    cases hm : s.env.mode64 with
    | true => exact .of_load h (exec_pinsrq (s := g.on s) hm ..) (exec_pinsrq hm ..) fun _ => rfl
    | false => exact .of_refused (exec_pinsrq_refused (s := g.on s) hm ..) (exec_pinsrq_refused hm ..)

/-- Settles O15: of the flags and MXCSR alignment checking reads AC alone, and translation none. -/
theorem flagsAndMxcsrAreNotRead : Obligations.FlagsAndMxcsrAreNotRead := by
  intro i s f x hf
  have hu : SystemChange.Unseen ⟨fun _ => f, fun _ => x, id⟩ s :=
    ⟨fun lin n => by simp only [State.misaligned, rflagsAC, cr0AM, SystemChange.on, hf, id], fun _ _ => rfl⟩
  exact exec_on hu i

end Sys2Proof.Machine
end

section
/-! The decoder reads back every instruction that the encoder writes, and the step runs it (spec/30_encoding.md R50 to R72;
spec/20_memory.md R44). -/

namespace Sys2Proof

/-! ## Rows of the opcode table, read back (30_encoding.md R71) -/

section

variable {m p : Bool} {map : OpMap} {opc : Byte} {n : Nat} {e : LegEnc} {im rest : List Byte} {i : Instr}

/-- A legacy form whose r/m operand is a general or XMM register or memory. -/
theorem decode_legacyRow {g : BitVec 3} {o : RM 4} (v : Byte) (row : LegRow) (hwf : e.wf m p map n o = true)
    (hrow : legacyRow p opc map = some row) (hopc : map = .m0F → opc ≠ 0x38#8 ∧ opc ≠ 0x3A#8)
    (himm : im = if row.imm then [v] else []) (hn : n = im.length)
    (hbuild : row.build e (extReg e.rexBits.r g) o (if row.imm then v else 0#8) = i) :
    decode m (encodeLegacy e map opc g o im ++ rest) = .ok i rest := by
  subst hbuild
  exact decode_encodeLegacy rest hwf (fun t => readModRM_encode g t (LegEnc.wf_rm hwf)) hrow hopc himm hn

/-- A legacy form whose ModRM.reg is a general or XMM register too. -/
theorem decode_xmmRow {g : BitVec 4} {o : RM 4} (v : Byte) (row : LegRow) (hwf : e.wf m p map n o = true)
    (hg : regWf e.rexBits.r g = true) (hrow : legacyRow p opc map = some row)
    (hopc : map = .m0F → opc ≠ 0x38#8 ∧ opc ≠ 0x3A#8) (himm : im = if row.imm then [v] else []) (hn : n = im.length)
    (hbuild : row.build e g o (if row.imm then v else 0#8) = i) :
    decode m (encodeLegacy e map opc (g.setWidth 3) o im ++ rest) = .ok i rest :=
  decode_legacyRow v row hwf hrow hopc himm hn (by rw [extReg_setWidth hg, hbuild])

/-- A legacy form whose r/m operand is an MMX register or memory (10_state.md R15). -/
theorem decode_mmxRow {g : BitVec 3} {o : RM 3} (v : Byte) (row : LegRow) (hwf : e.wf m p map n o = true)
    (hrow : legacyRow p opc map = some row) (hopc : map = .m0F → opc ≠ 0x38#8 ∧ opc ≠ 0x3A#8)
    (himm : im = if row.imm then [v] else []) (hn : n = im.length)
    (hbuild : ∀ o', mmxRM o' = o → row.build e (extReg e.rexBits.r g) o' (if row.imm then v else 0#8) = i) :
    decode m (encodeLegacy e map opc g o im ++ rest) = .ok i rest := by
  obtain ⟨o', hread, ho'⟩ := readModRM_of_wf_mmx hwf
  rw [← hbuild o' ho']
  exact decode_encodeLegacy rest hwf hread hrow hopc himm hn

end

/-- A VEX form. -/
theorem decode_vexRow {m : Bool} {map : OpMap} {opc : Byte} {pp : BitVec 2} {n : Nat} {e : VexEnc} {g : BitVec 4}
    {o : RM 4} {im rest : List Byte} {i : Instr} (v : Byte) (row : VexRow) (hwf : e.wf m map n o = true)
    (hg : regWf e.r g = true) (hrow : vexRow m pp opc map = some row) (himm : im = if row.imm then [v] else [])
    (hn : n = im.length) (hbuild : row.build e g (e.srcReg m) o (if row.imm then v else 0#8) = i) :
    decode m (encodeVex e map pp opc g o im ++ rest) = .ok i rest := by
  subst hbuild
  exact decode_encodeVex rest hwf hg hrow himm hn

/-- An MMX register number is not changed by the extension bit before it (10_state.md R15). -/
@[simp] theorem mmxReg_extReg (x : Bool) (g : BitVec 3) : mmxReg (extReg x g) = g := setWidth_extReg x g

/-! ## Whole instructions -/

/-- The decoder reads back what the encoder writes of a well-formed instruction, whatever stands after it. -/
theorem decode_encode {m : Bool} {i : Instr} (rest : List Byte) (h : i.wf m = true) :
    decode m (encode i ++ rest) = .ok i rest := by
  cases i with
  | pextrb e dst src imm | pextrwStore e dst src imm =>
    simp only [Instr.wf, Bool.and_eq_true] at h
    exact decode_xmmRow imm _ h.1 h.2 rfl (by decide) rfl rfl rfl
  | pinsrb e dst src imm | pinsrwXmm e dst src imm | pextrwXmm e dst src imm =>
    simp only [Instr.wf, Bool.and_eq_true] at h
    exact decode_xmmRow imm _ h.1 h.2 rfl (by decide) rfl rfl rfl
  | pextrd e dst src imm | pextrq e dst src imm | pinsrd e dst src imm | pinsrq e dst src imm =>
    simp only [Instr.wf, Bool.and_eq_true, Bool.not_eq_true'] at h
    obtain ⟨⟨he, hg⟩, hw⟩ := h
    exact decode_xmmRow imm _ he hg rfl (by decide) rfl rfl (by simp [hw])
  | phaddwXmm e dst src | phadddXmm e dst src | phaddswXmm e dst src | phminposuw e dst src | phsubwXmm e dst src
  | phsubdXmm e dst src | phsubswXmm e dst src | pmaddubswXmm e dst src | pmaddwdXmm e dst src =>
    simp only [Instr.wf, Bool.and_eq_true] at h
    exact decode_xmmRow 0#8 _ h.1 h.2 rfl (by decide) rfl rfl rfl
  | phaddwMmx e dst src | phadddMmx e dst src | phaddswMmx e dst src | phsubwMmx e dst src | phsubdMmx e dst src
  | phsubswMmx e dst src | pmaddubswMmx e dst src | pmaddwdMmx e dst src =>
    exact decode_mmxRow 0#8 _ h rfl (by decide) rfl rfl fun o' ho' => by simp [ho']
  | pextrwMmx e dst src imm =>
    simp only [Instr.wf, Bool.and_eq_true] at h
    exact decode_mmxRow imm _ h.1 rfl (by decide) rfl rfl fun o' ho' => by simp [ho', extReg_setWidth h.2]
  | pinsrwMmx e dst src imm => exact decode_legacyRow imm _ h rfl (by decide) rfl rfl (by simp)
  | pextR32 e dst src mask | pextR64 e dst src mask =>
    simp only [Instr.wf, Bool.and_eq_true, beq_iff_eq, Bool.not_eq_true'] at h
    obtain ⟨⟨⟨he, hg⟩, rfl⟩, hw⟩ := h
    exact decode_vexRow 0#8 _ he hg rfl rfl rfl (by simp [hw])
  | vpextrb e dst src imm | vpextrwStore e dst src imm | vpextrw e dst src imm =>
    simp only [Instr.wf, Bool.and_eq_true] at h
    exact decode_vexRow imm _ h.1 h.2 rfl rfl rfl rfl
  | vpextrd e dst src imm | vpextrq e dst src imm =>
    simp only [Instr.wf, Bool.and_eq_true, Bool.not_eq_true'] at h
    obtain ⟨⟨he, hg⟩, hw⟩ := h
    exact decode_vexRow imm _ he hg rfl rfl rfl (by simp [hw])
  | vphminposuw e dst src =>
    simp only [Instr.wf, Bool.and_eq_true] at h
    exact decode_vexRow 0#8 _ h.1 h.2 rfl rfl rfl rfl
  | vpinsrb e dst src1 src2 imm | vpinsrw e dst src1 src2 imm =>
    simp only [Instr.wf, Bool.and_eq_true, beq_iff_eq] at h
    obtain ⟨⟨he, hg⟩, rfl⟩ := h
    exact decode_vexRow imm _ he hg rfl rfl rfl rfl
  | vpinsrd e dst src1 src2 imm | vpinsrq e dst src1 src2 imm =>
    simp only [Instr.wf, Bool.and_eq_true, beq_iff_eq, Bool.not_eq_true'] at h
    obtain ⟨⟨⟨he, hg⟩, rfl⟩, hw⟩ := h
    exact decode_vexRow imm _ he hg rfl rfl rfl (by simp [hw])
  | vphaddwXmm e dst src1 src2 | vphadddXmm e dst src1 src2 | vphaddswXmm e dst src1 src2 | vphsubwXmm e dst src1 src2
  | vphsubdXmm e dst src1 src2 | vphsubswXmm e dst src1 src2 | vpmaddubswXmm e dst src1 src2
  | vpmaddwdXmm e dst src1 src2 | vphaddwYmm e dst src1 src2 | vphadddYmm e dst src1 src2 | vphaddswYmm e dst src1 src2
  | vphsubwYmm e dst src1 src2 | vphsubdYmm e dst src1 src2 | vphsubswYmm e dst src1 src2
  | vpmaddubswYmm e dst src1 src2 | vpmaddwdYmm e dst src1 src2 =>
    simp only [Instr.wf, Bool.and_eq_true, beq_iff_eq, Bool.not_eq_true'] at h
    obtain ⟨⟨⟨he, hg⟩, rfl⟩, hl⟩ := h
    exact decode_vexRow 0#8 _ he hg rfl rfl rfl (by simp [hl])

end Sys2Proof

namespace Sys2Proof.Machine

/-- Where the bytes of a well-formed instruction can be fetched at `rip`, it is the instruction fetched: they are at most
15, so all of them are among the bytes that the decoder gets. -/
theorem fetchInstr_of_encode {s : State} {i : Instr} (hend : s.atEnd = false) (hwf : i.wf s.env.mode64 = true)
    (hbytes : ∀ j, (hj : j < (encode i).length) → s.fetchByte j = .ok (encode i)[j]) : s.fetchInstr = .ok i := by
  obtain ⟨hlen, h15⟩ := Laws.encode_length i _ hwf
  obtain ⟨rest, hfetch⟩ := fetchFrom_prefix s (n := Config.maxLen) (i := 0) (hlen ▸ h15) (by simpa using hbytes)
  exact fetchInstr_eq_ok.2 ⟨hend, rest, by rw [hfetch, decode_encode rest hwf]⟩

/-- Settles O9: the instruction fetched is the one whose bytes stand there (`fetchInstr_of_encode`). -/
theorem stepRunsTheEncodedInstruction : Obligations.StepRunsTheEncodedInstruction := by
  intro s i hend hwf hbytes
  simp only [step, fetchInstr_of_encode hend hwf hbytes]

end Sys2Proof.Machine
end

section
/-! Memory operands: the order of their faults, the page fault reported, and the stores (spec/20_memory.md R30 to R44;
spec/60_exceptions.md R230 to R236; spec/41_pextrb_pextrd_pextrq.md, 42_pextrw.md). -/

namespace Sys2Proof.Machine

variable {i : Instr} {s t : State} {o : MemOp} {g : Seg} {off : Word} {n : Nat} {k : Access} {al : Bool}

/-! ## What an instruction leaves of memory (20_memory.md R34, R44, R46) -/

/-- The addresses of the program text are fixed by the parameters of the run (20_memory.md R44). -/
theorem textAddrs_congr (h : t.env = s.env) : t.textAddrs = s.textAddrs := by
  obtain ⟨gpr, rip, rflags, x87, fpuTop, fpuTag, ymm, mxcsr, mem, env⟩ := t
  subst h
  rfl

/-- A store that completes leaves every byte of the program text (20_memory.md R44). -/
theorem memWrite_read_text {w a : Nat} {v : BitVec w} (h : s.memWrite g off v = .ok t) (ha : a ∈ s.textAddrs) :
    t.mem.read a = s.mem.read a := by
  obtain ⟨⟨-, -, -, hall⟩, hst, rfl⟩ := memWrite_eq_ok.1 h
  refine read_writeAll_other _ _ fun hm => ?_
  obtain ⟨j, hj, hb⟩ := (mem_addrsOf hall).1 hm
  obtain ⟨b, hb', -, hout⟩ := hst j hj
  rw [hb] at hb'
  cases hb'
  exact hout ha

/-- Settles O12: a write of a register leaves memory (`RegWrite.mem_eq`), and a store leaves the text
(`memWrite_read_text`). -/
theorem stepKeepsProgramText : Obligations.StepKeepsProgramText := by
  intro s t h
  obtain ⟨i, -, he⟩ := step_eq_next.1 h
  obtain ⟨⟨-, -, henv⟩, -, -⟩ := exec_next_system he
  refine ⟨textAddrs_congr henv, fun a ha => ?_⟩
  obtain ⟨-, u, rfl, hw | ⟨o, w, v, -, -, -, hw⟩⟩ := exec_next he
  · rw [setRip_mem, hw.mem_eq]
  · rw [setRip_mem, memWrite_read_text hw ha]

/-- Settles O17: without a store the one write of an instruction is to a register (`exec_next`). -/
theorem memoryChangesOnlyByStores : Obligations.MemoryChangesOnlyByStores := by
  intro i s t h hno a
  obtain ⟨-, u, rfl, hw | ⟨o, w, v, hm, hs, -, -⟩⟩ := exec_next h
  · rw [setRip_mem, hw.mem_eq]
  · rcases hno with hno | hno
    · rw [hno] at hs; cases hs
    · rw [hno] at hm; cases hm

/-! ## The order of the faults of an operand (60_exceptions.md R235) -/

/-- The segment or canonical check comes first (20_memory.md R32). -/
theorem operandAddrs_of_segOk_false (h : s.segOk g off n (k == .write) = false) :
    s.operandAddrs g off n k al = raise (if g = .ss then .ss else .gp) s := by
  simp [State.operandAddrs, h]

/-- Then the 16-byte alignment (20_memory.md R35, R36). -/
theorem operandAddrs_of_unaligned16 (hseg : s.segOk g off n (k == .write) = true) (hal : al = true)
    (h : (s.linear g off).toNat % 16 ≠ 0) : s.operandAddrs g off n k al = raise .gp s := by
  simp [State.operandAddrs, hseg, hal, h]

section

variable {x : Exn} (hseg : s.segOk g off n (k == .write) = true)
  (hal : ¬(al = true ∧ (s.linear g off).toNat % 16 ≠ 0))
include hseg hal

/-- Then translation, where no alignment check applies (60_exceptions.md R231). -/
theorem operandAddrs_of_pageFault (hpf : s.pageFault k (s.linBytes (s.linear g off) n) = some x)
    (hmis : s.misaligned (s.linear g off) n = false) : s.operandAddrs g off n k al = raise x s := by
  have hal' : (al && (s.linear g off).toNat % 16 != 0) = false := by simpa using hal
  simp [State.operandAddrs, hseg, hal', hpf, hmis]

/-- The alignment check, where every byte translates (60_exceptions.md R232). -/
theorem operandAddrs_of_misaligned (hpf : s.pageFault k (s.linBytes (s.linear g off) n) = none)
    (hmis : s.misaligned (s.linear g off) n = true) : s.operandAddrs g off n k al = raise .ac s := by
  have hal' : (al && (s.linear g off).toNat % 16 != 0) = false := by simpa using hal
  simp [State.operandAddrs, hseg, hal', hpf, hmis]

/-- Where both apply, one of the two is reported, and which is free (60_exceptions.md R236). -/
theorem operandAddrs_of_pageFault_misaligned (hpf : s.pageFault k (s.linBytes (s.linear g off) n) = some x)
    (hmis : s.misaligned (s.linear g off) n = true) :
    s.operandAddrs g off n k al = raise x s ∨ s.operandAddrs g off n k al = raise .ac s := by
  have hal' : (al && (s.linear g off).toNat % 16 != 0) = false := by simpa using hal
  cases hfree : Config.acBeforePf s.rip (s.linear g off) n with
  | false => exact .inl (by simp [State.operandAddrs, hseg, hal', hpf, hmis, hfree])
  | true => exact .inr (by simp [State.operandAddrs, hseg, hal', hpf, hmis, hfree])

end

theorem accessOf_eq_write (i : Instr) : (accessOf i == .write) = i.row.store := by
  unfold accessOf
  cases i.row.store <;> rfl

/-- After the checks, the stop of the operand's checks is the stop of the instruction. -/
theorem exec_of_operandAddrs_error (hwf : i.wf s.env.mode64 = true) (hp : passesChecks i s = true)
    (hm : i.memOp = some o) {e : Stop}
    (h : s.operandAddrs (operandSeg s.env.mode64 i.prefixes o) (s.offset i.prefixes i.len o) i.row.bytes (accessOf i)
      (mustAlign16 i s) = .error e) : exec i s = e.outcome := by
  have hpre := preChecks_eq_ok.2 hp
  have h8 : 8 * i.row.bytes / 8 = i.row.bytes := Nat.mul_div_cancel_left _ (by decide)
  cases exec_shape i s with
  | refused hf _ => rw [hf] at hwf; cases hwf
  | plain t hn _ _ => rw [hm] at hn; cases hn
  | load o' w f hm' hs hn _ he =>
    obtain rfl : o = o' := Option.some.inj (hm.symm.trans hm')
    obtain rfl := hn (regOnly_of_passes hp hm)
    rw [accessOf, if_neg (by simp [hs])] at h
    rw [he]
    simp [hpre, State.memRead, h8, h, bind, Except.bind]
  | store o' w v hm' hs hn he =>
    obtain rfl : o = o' := Option.some.inj (hm.symm.trans hm')
    subst hn
    rw [accessOf, if_pos hs, mustAlign16_of_store hs] at h
    rw [he]
    simp [hpre, State.memWrite, h8, h, bind, Except.bind]

/-- An exception among the operand's checks is the instruction's. -/
theorem raises_of_operandAddrs (hwf : i.wf s.env.mode64 = true) (hp : passesChecks i s = true) (hm : i.memOp = some o)
    {x : Exn} (h : s.operandAddrs (operandSeg s.env.mode64 i.prefixes o) (s.offset i.prefixes i.len o) i.row.bytes
      (accessOf i) (mustAlign16 i s) = raise x s) : raises (exec i s) x s :=
  exec_of_operandAddrs_error hwf hp hm h

/-- Settles O22: the instruction raises what its operand's checks raise (`raises_of_operandAddrs`), and those are made in
this order. -/
theorem memoryOperandFaultsInOrder : Obligations.MemoryOperandFaultsInOrder := by
  intro i s o hwf hp hm
  have raised := fun {x : Exn} => raises_of_operandAddrs (x := x) hwf hp hm
  dsimp only
  rw [← accessOf_eq_write]
  split
  · next hseg => exact raised (operandAddrs_of_segOk_false hseg)
  next hseg =>
  rw [Bool.not_eq_false] at hseg
  split
  · next hal => exact raised (operandAddrs_of_unaligned16 hseg hal.1 hal.2)
  next hal =>
  split
  · next pf hpf =>
    split
    · next hmis => exact (operandAddrs_of_pageFault_misaligned hseg hal hpf hmis).imp raised raised
    · next hmis => exact raised (operandAddrs_of_pageFault hseg hal hpf (Bool.eq_false_iff.2 hmis))
  · next hpf => exact fun hmis => raised (operandAddrs_of_misaligned hseg hal hpf hmis)

/-! ## The page fault that is reported (60_exceptions.md R231) -/

/-- A byte for which translation faults is the next entry. -/
theorem faultingBytes_cons_of_fault {a : Word} {as : List Word} {r : TransRule} {c : BitVec 32}
    (h : s.transRule k a = some r) (hr : r.answer = .pageFault c) :
    s.faultingBytes k (a :: as) = (a, r, c) :: s.faultingBytes k as := by
  obtain ⟨range, access, cpl, answer⟩ := r
  subst hr
  simp [State.faultingBytes, h]

/-- A byte that translates is none. -/
theorem faultingBytes_cons_of_translates {a : Word} {as : List Word}
    (h : ∀ r c, s.transRule k a = some r → r.answer ≠ .pageFault c) :
    s.faultingBytes k (a :: as) = s.faultingBytes k as := by
  unfold State.faultingBytes
  refine List.filterMap_cons_none ?_
  split
  · next hr => exact absurd rfl (h _ _ hr)
  · rfl

/-- The byte is the first in the list that falls under the rule. -/
def State.firstUnder (s : State) (k : Access) (r : TransRule) (as : List Word) (a : Word) : Prop :=
  ∃ before after, as = before ++ a :: after ∧ s.transRule k a = some r ∧ ∀ b ∈ before, s.transRule k b ≠ some r

theorem firstUnder_cons_self {a : Word} {as : List Word} {r : TransRule} (h : s.transRule k a = some r) :
    s.firstUnder k r (a :: as) a :=
  ⟨[], as, rfl, h, nofun⟩

theorem firstUnder_cons_of_ne {a b : Word} {as : List Word} {r : TransRule} (hb : s.transRule k b ≠ some r)
    (h : s.firstUnder k r as a) : s.firstUnder k r (b :: as) a := by
  obtain ⟨before, after, rfl, hrule, hno⟩ := h
  exact ⟨b :: before, after, rfl, hrule, List.forall_mem_cons.2 ⟨hb, hno⟩⟩

/-- The first entry for a rule is that of the first byte under it, with its error code. -/
theorem find_faultingBytes {as : List Word} {r : TransRule} {f : Word × TransRule × BitVec 32}
    (h : ((s.faultingBytes k as).find? fun g => g.2.1 == r) = some f) :
    s.firstUnder k r as f.1 ∧ r.answer = .pageFault f.2.2 := by
  induction as with
  | nil => cases h
  | cons a as ih =>
    by_cases hfault : ∃ q c, s.transRule k a = some q ∧ q.answer = .pageFault c
    · obtain ⟨q, c, hq, hc⟩ := hfault
      rw [faultingBytes_cons_of_fault hq hc] at h
      by_cases hqr : q = r
      · subst hqr
        simp only [List.find?_cons, beq_self_eq_true, Option.some.injEq] at h
        subst h
        exact ⟨firstUnder_cons_self hq, hc⟩
      · simp only [List.find?_cons, beq_eq_false_iff_ne.2 hqr] at h
        obtain ⟨hfirst, hans⟩ := ih h
        exact ⟨firstUnder_cons_of_ne (by simpa [hq] using hqr) hfirst, hans⟩
    · push Not at hfault
      rw [faultingBytes_cons_of_translates hfault] at h
      obtain ⟨hfirst, hans⟩ := ih h
      exact ⟨firstUnder_cons_of_ne (fun ha => hfault r _ ha hans) hfirst, hans⟩

/-- Settles O23: whichever page is reported, its fault is the first entry for one rule (`find_faultingBytes`). -/
theorem pageFaultReportsItsPage : Obligations.PageFaultReportsItsPage := by
  intro s k as x h
  unfold State.pageFault at h
  dsimp only at h
  split at h
  · cases h
  next f _ =>
  obtain ⟨g, hg, rfl⟩ := Option.map_eq_some_iff.1 h
  obtain ⟨⟨before, after, has, hrule, hno⟩, hans⟩ := find_faultingBytes hg
  exact ⟨g.2.2, g.1, before, after, f.2.1, rfl, has, hrule, hans, hno⟩

/-! ## Stores (20_memory.md R34) -/

/-- A check that passes, then a store whose access is accepted and whose bytes may be stored to. -/
theorem completes_of_store {w len : Nat} {c : Res Unit} {v : BitVec w} (hc : c = .ok ())
    (hready : accepts .write false (w / 8) g off s ∧ storable (w / 8) g off s) :
    completes (finish len s (do c; s.memWrite g off v)) (storesTo v g off len s) := by
  have hst := memWrite_eq_ok (v := v).2 ⟨hready.1, hready.2, rfl⟩
  exact ⟨_, finish_eq_next.2 ⟨_, check_then_eq_ok.2 ⟨hc, hst⟩, rfl⟩, memWrite_stores len hst⟩

/-- Settles O41, by the width of the form: the check, then the store of the selected element. -/
theorem pextrToMemory : Obligations.PextrToMemory := by
  intro e o src imm s hr
  have hc : checkSse .sse41 false e s = .ok () := checkSse_eq_ok.2 ⟨rfl, hr⟩
  simp only [← sel_two_pow]
  refine ⟨fun h => ?_, fun h => ?_, fun h64 h => ?_, fun h => ?_⟩
  · exact completes_of_store hc h
  · exact completes_of_store hc h
  · rw [exec_pextrq h64]
    exact completes_of_store hc h
  · exact completes_of_store hc h

/-- Settles O42, as O41: VPEXTRQ has #UD outside 64-bit mode among its checks. -/
theorem vpextrToMemory : Obligations.VpextrToMemory := by
  intro e o src imm s hr hl hv
  have hud : (e.l || vvvvUsed e s) = false := by simp [hl, vvvvUsed_eq, hv]
  simp only [← sel_two_pow]
  refine ⟨fun hw h => ?_, fun h => ?_, fun h64 h => ?_, fun hw h => ?_⟩
  · exact completes_of_store (checkVex_eq_ok.2 ⟨hud, fun _ => hw, hr⟩) h
  · exact completes_of_store (checkVex_eq_ok.2 ⟨hud, nofun, hr⟩) h
  · exact completes_of_store (checkVex_eq_ok.2 ⟨by simp [hud, h64], nofun, hr⟩) h
  · exact completes_of_store (checkVex_eq_ok.2 ⟨hud, fun _ => hw, hr⟩) h

/-! ## Linear addresses and segments (20_memory.md R31; 30_encoding.md R67 to R70) -/

/-- In 64-bit mode FS and GS alone have a base; in 32-bit mode the sum is cut to 32 bits (20_memory.md R31). -/
theorem linear_eq (s : State) (g : Seg) (off : Word) :
    s.linear g off = if s.env.mode64 then (if g = .fs ∨ g = .gs then (s.seg g).base + off else off)
      else low32 ((s.seg g).base + off) := by
  cases h64 : s.env.mode64 with
  | false => simp [State.linear, State.segBase, State.wrapLin, h64]
  | true => cases g <;> simp [State.linear, State.segBase, State.wrapLin, h64]

/-- An override that counts is a segment prefix, in 64-bit mode of FS or GS (30_encoding.md R52, R69). -/
theorem overrideSeg_eq_some {m : Bool} {p : Prefix} {g : Seg} :
    overrideSeg m p = some g ↔ p = .seg g ∧ ¬(m = true ∧ g ≠ .fs ∧ g ≠ .gs) := by
  cases p with
  | seg h =>
    have hcond : (m && !(h == .fs || h == .gs)) = true ↔ m = true ∧ h ≠ .fs ∧ h ≠ .gs := by simp
    simp only [overrideSeg, hcond, Prefix.seg.injEq]
    split
    · next hno => exact ⟨nofun, fun hg => absurd (hg.1 ▸ hno) hg.2⟩
    · next hcounts => exact ⟨fun hg => Option.some.inj hg ▸ ⟨rfl, hcounts⟩, fun hg => congrArg some hg.1⟩
  | _ => simp [overrideSeg]

/-- Without an override that counts the segment is the operand's default (30_encoding.md R67, R68, R70). -/
theorem operandSeg_default {m : Bool} {ps : List Prefix} (h : ∀ g, .seg g ∈ ps → m = true ∧ g ≠ .fs ∧ g ≠ .gs)
    (o : MemOp) : operandSeg m ps o = defaultSeg o := by
  have hnone : ps.filterMap (overrideSeg m) = [] := by
    refine List.filterMap_eq_nil_iff.2 fun p hp => Option.eq_none_iff_forall_ne_some.2 fun g hg => ?_
    obtain ⟨rfl, hcounts⟩ := overrideSeg_eq_some.1 hg
    exact hcounts (h g hp)
  simp [operandSeg, hnone]

/-- The last prefix decides, if it is an override that counts. -/
theorem operandSeg_append (m : Bool) (ps : List Prefix) (p : Prefix) (o : MemOp) :
    operandSeg m (ps ++ [p]) o = (overrideSeg m p).getD (operandSeg m ps o) := by
  cases h : overrideSeg m p <;> simp [operandSeg, h]

/-- Settles O30, from `linear_eq`, `operandSeg_default` and `operandSeg_append`. -/
theorem linearAddressAndSegment : Obligations.LinearAddressAndSegment := by
  refine ⟨linear_eq, fun m ps => ⟨fun h => ?_, fun o => ⟨fun g => ?_, fun p hp => ?_⟩⟩⟩
  · simp [operandSeg_default h, defaultSeg, baseSeg, seg16, or_assoc]
  · rw [operandSeg_append]
    split
    · next hno =>
      have : overrideSeg m (.seg g) = none :=
        Option.eq_none_iff_forall_ne_some.2 fun g' hg => by
          obtain ⟨⟨⟩, hcounts⟩ := overrideSeg_eq_some.1 hg
          exact hcounts hno
      rw [this, Option.getD_none]
    · next hcounts => rw [overrideSeg_eq_some.2 ⟨rfl, hcounts⟩, Option.getD_some]
  · have : overrideSeg m p = none :=
      Option.eq_none_iff_forall_ne_some.2 fun g hg => hp g (overrideSeg_eq_some.1 hg).1
    rw [operandSeg_append, this, Option.getD_none]

end Sys2Proof.Machine
end

section
/-! The encoder writes back what the decoder reads (spec/30_encoding.md R50 to R72): each part of the encoder, given what
the part of the decoder answered, writes the bytes that it consumed. -/

namespace Sys2Proof

/-! ## Prefixes (30_encoding.md R52, R54) -/

/-- The byte of a legacy prefix is the one it was read from (30_encoding.md R52). -/
theorem byte_of_prefixOfByte {c : Byte} {p : Prefix} (h : prefixOfByte c = some p) : p.byte = c := by
  unfold prefixOfByte at h
  repeat' split at h
  all_goals cases h
  all_goals simp_all [Prefix.byte, Seg.byte]

/-- A byte 40H to 4FH is its high nibble and its four bits (30_encoding.md R54). -/
theorem byte_rexOfByte {c : Byte} (h : isRexByte c = true) : (rexOfByte c).byte = c := by
  revert h; revert c; decide

theorem encodePrefixes_cons (p : Prefix) (ps : List Prefix) (rex : Option Rex) :
    encodePrefixes (p :: ps) rex = p.byte :: encodePrefixes ps rex := rfl

/-- The bytes that the scan consumed are those of the prefixes and the REX byte. -/
theorem scanPrefixes_bytes {m : Bool} {bs t : List Byte} {ps : List Prefix} {rex : Option Rex}
    (h : scanPrefixes m bs = (ps, rex, t)) : encodePrefixes ps rex ++ t = bs := by
  induction bs generalizing ps with
  | nil =>
    cases h
    rfl
  | cons c bs ih =>
    rw [scanPrefixes_cons] at h
    split at h
    · next p hc =>
      obtain ⟨rfl, hrest⟩ := Prod.mk.inj h
      rw [encodePrefixes_cons, byte_of_prefixOfByte hc, List.cons_append, ih (Prod.ext rfl hrest)]
    split at h
    · next hx =>
      have hbyte := byte_rexOfByte (Bool.and_eq_true_iff.1 hx).2
      split at h
      · cases h
        simp [encodePrefixes, hbyte]
      split at h
      · obtain ⟨rfl, hrest⟩ := Prod.mk.inj h
        rw [encodePrefixes_cons, Prefix.byte, hbyte, List.cons_append, ih (Prod.ext rfl hrest)]
      · cases h
        simp [encodePrefixes, hbyte]
    · cases h
      rfl

/-! ## ModRM, SIB, displacement, immediate (30_encoding.md R61 to R70) -/

theorem leBytes_of_read16 {t u : List Byte} {v : BitVec 16} (h : read16 t = some (v, u)) : leBytes 2 v ++ u = t := by
  rcases t with _ | ⟨a, _ | ⟨b, t⟩⟩ <;> simp only [read16, reduceCtorEq, Option.some.injEq, Prod.mk.injEq] at h
  obtain ⟨rfl, rfl⟩ := h
  have hlo : (b ++ a).extractLsb' 0 8 = a := BitVec.extractLsb'_append_eq_right
  have hhi : (b ++ a).extractLsb' 8 8 = b := BitVec.extractLsb'_append_eq_left
  simp [leBytes, List.range_succ, hlo, hhi]

theorem leBytes_of_read32 {t u : List Byte} {v : BitVec 32} (h : read32 t = some (v, u)) : leBytes 4 v ++ u = t := by
  rcases t with _ | ⟨a, _ | ⟨b, _ | ⟨c, _ | ⟨d, t⟩⟩⟩⟩ <;>
    simp only [read32, reduceCtorEq, Option.some.injEq, Prod.mk.injEq] at h
  obtain ⟨rfl, rfl⟩ := h
  have h0 : (d ++ c ++ b ++ a).extractLsb' 0 8 = a := BitVec.extractLsb'_append_eq_right
  have h1 : (d ++ c ++ b ++ a).extractLsb' 8 8 = b := by
    rw [BitVec.extractLsb'_append_eq_of_le (by decide)]
    exact BitVec.extractLsb'_append_eq_right
  have h2 : (d ++ c ++ b ++ a).extractLsb' 16 8 = c := by
    rw [BitVec.extractLsb'_append_eq_of_le (by decide), BitVec.extractLsb'_append_eq_of_le (by decide)]
    exact BitVec.extractLsb'_append_eq_right
  have h3 : (d ++ c ++ b ++ a).extractLsb' 24 8 = d := by
    rw [BitVec.extractLsb'_append_eq_of_le (by decide), BitVec.extractLsb'_append_eq_of_le (by decide)]
    exact BitVec.extractLsb'_append_eq_left
  simp [leBytes, List.range_succ, h0, h1, h2, h3]

/-- A displacement is written as the mod field and the bytes it was read from (30_encoding.md R63). -/
theorem encode_of_readDisp {w : Nat} {full : List Byte → Option (BitVec w × List Byte)} {md : BitVec 2}
    {t u : List Byte} {d : Disp w} (hfull : ∀ {t u v}, full t = some (v, u) → leBytes (w / 8) v ++ u = t)
    (hmd : md ≠ 3#2) (h : readDisp full md t = some (d, u)) : d.mod = md ∧ d.encode ++ u = t := by
  unfold readDisp at h
  split at h
  · next h0 =>
    cases h
    exact ⟨(eq_of_beq h0).symm, rfl⟩
  next h0 =>
  split at h
  · next h1 =>
    cases t with
    | nil => cases h
    | cons c t =>
      cases h
      exact ⟨(eq_of_beq h1).symm, rfl⟩
  next h1 =>
  obtain ⟨⟨v, t'⟩, hr, h⟩ := Option.map_eq_some_iff.1 h
  cases h
  have hmd2 : (2#2 : BitVec 2) = md := by
    simp only [beq_iff_eq] at h0 h1
    revert h0 h1 hmd; revert md; decide
  exact ⟨hmd2, hfull hr⟩

/-- SIB and what follows it is written as it was read (30_encoding.md R62, R67). -/
theorem encode_of_readSib {x b : Bool} {md : BitVec 2} {t u : List Byte} {o : MemOp} (reg : BitVec 3) (hmd : md ≠ 3#2)
    (h : readSib x b md t = some (o, u)) : encodeRM reg (.mem o : RM 4) ++ u = modrmByte md reg 4#3 :: t := by
  cases t with
  | nil => cases h
  | cons c t =>
    simp only [readSib] at h
    split at h
    · next hnobase =>
      simp only [Bool.and_eq_true, beq_iff_eq] at hnobase
      obtain ⟨⟨v, t'⟩, hr, h⟩ := Option.map_eq_some_iff.1 h
      cases h
      rw [encodeRM, setWidth_extReg, ← hnobase.2, modrmByte_bits, ← leBytes_of_read32 hr, ← hnobase.1]
      rfl
    · obtain ⟨⟨v, t'⟩, hr, h⟩ := Option.map_eq_some_iff.1 h
      cases h
      obtain ⟨rfl, rfl⟩ := encode_of_readDisp leBytes_of_read32 hmd hr
      rw [encodeRM, setWidth_extReg, setWidth_extReg, modrmByte_bits]
      rfl

/-- A memory operand is written as it was read (30_encoding.md R63, R67, R68, R70). -/
theorem encode_of_readMem {m a67 x b : Bool} {md : BitVec 2} {rm : BitVec 3} {t u : List Byte} {o : MemOp}
    (reg : BitVec 3) (hmd : md ≠ 3#2) (h : readMem m a67 x b md rm t = some (o, u)) :
    encodeRM reg (.mem o : RM 4) ++ u = modrmByte md reg rm :: t := by
  unfold readMem at h
  split at h
  · split at h
    · next habs =>
      simp only [Bool.and_eq_true, beq_iff_eq] at habs
      obtain ⟨⟨v, t'⟩, hr, h⟩ := Option.map_eq_some_iff.1 h
      cases h
      rw [habs.1, habs.2, ← leBytes_of_read16 hr]
      rfl
    · obtain ⟨⟨v, t'⟩, hr, h⟩ := Option.map_eq_some_iff.1 h
      cases h
      obtain ⟨rfl, rfl⟩ := encode_of_readDisp leBytes_of_read16 hmd hr
      rfl
  split at h
  · next hsib =>
    rw [eq_of_beq hsib]
    exact encode_of_readSib reg hmd h
  split at h
  · next habs =>
    simp only [Bool.and_eq_true, beq_iff_eq] at habs
    obtain ⟨⟨v, t'⟩, hr, h⟩ := Option.map_eq_some_iff.1 h
    cases h
    rw [habs.1, habs.2, ← leBytes_of_read32 hr]
    rfl
  · obtain ⟨⟨v, t'⟩, hr, h⟩ := Option.map_eq_some_iff.1 h
    cases h
    obtain ⟨rfl, rfl⟩ := encode_of_readDisp leBytes_of_read32 hmd hr
    rw [encodeRM, setWidth_extReg]
    rfl

/-- ModRM and what it calls for is written as it was read (30_encoding.md R61). -/
theorem encode_of_readModRM {m a67 x b : Bool} {t u : List Byte} {reg : BitVec 3} {o : RM 4}
    (h : readModRM m a67 x b t = some (reg, o, u)) : encodeRM reg o ++ u = t := by
  cases t with
  | nil => cases h
  | cons c t =>
    simp only [readModRM] at h
    split at h
    · next hreg =>
      cases h
      rw [encodeRM, setWidth_extReg, ← eq_of_beq hreg, modrmByte_bits]
      rfl
    · next hmem =>
      obtain ⟨⟨v, t'⟩, hr, h⟩ := Option.map_eq_some_iff.1 h
      cases h
      rw [encode_of_readMem _ (by simpa using hmem) hr, modrmByte_bits]

/-- The immediate byte, where there is one, is the byte it was read from (30_encoding.md R63). -/
theorem append_of_readImm {has : Bool} {t u : List Byte} {v : Byte} (h : readImm has t = some (v, u)) :
    (if has then [v] else []) ++ u = t := by
  cases has <;> cases t <;> cases h <;> rfl

/-! ## The escape and the VEX prefix (30_encoding.md R55 to R57) -/

/-- The escape and the opcode byte are written as they were read (30_encoding.md R55). -/
theorem escape_of_readLegacyOpcode {t u : List Byte} {map : OpMap} {opc : Byte}
    (h : readLegacyOpcode t = some (map, opc, u)) : map.escape ++ opc :: u = 0x0F#8 :: t := by
  cases t with
  | nil => cases h
  | cons c t =>
    simp only [readLegacyOpcode] at h
    split at h
    · next hesc =>
      cases t with
      | nil => cases h
      | cons d t =>
        cases h
        by_cases h38 : c = 0x38#8
        · subst h38
          rfl
        · have h3A : c = 0x3A#8 := by simpa [h38] using hesc
          subst h3A
          rfl
    · cases h
      rfl

/-- The byte after C5 is its fields, of which the decoder keeps R and vvvv inverted (30_encoding.md R57). -/
theorem vex2_byte (d : Byte) :
    (BitVec.ofBool (!!d.getLsbD 7) ++ ~~~(~~~(bits 3 4 d)) ++ BitVec.ofBool (d.getLsbD 2) ++ bits 0 2 d : Byte) = d := by
  revert d; decide

/-- The byte after C4 is its fields (30_encoding.md R56). -/
theorem vex3_byte1 (d : Byte) :
    (BitVec.ofBool (!!d.getLsbD 7) ++ BitVec.ofBool (!!d.getLsbD 6) ++ BitVec.ofBool (!!d.getLsbD 5) ++ bits 0 5 d : Byte) =
      d := by
  revert d; decide

/-- The third byte of a three-byte VEX prefix is its fields (30_encoding.md R56). -/
theorem vex3_byte2 (d : Byte) :
    (BitVec.ofBool (d.getLsbD 7) ++ ~~~(~~~(bits 3 4 d)) ++ BitVec.ofBool (d.getLsbD 2) ++ bits 0 2 d : Byte) = d := by
  revert d; decide

theorem mmmmm_of_vexMap {mm : BitVec 5} {map : OpMap} (h : vexMap mm = some map) : map.mmmmm = mm := by
  unfold vexMap at h
  repeat' split at h
  all_goals cases h
  all_goals simp_all [OpMap.mmmmm]

/-- A two-byte VEX prefix is written as it was read. -/
theorem encodeVexPrefix_vex2 (ps : List Prefix) (rex : Option Rex) (map : OpMap) (d : Byte) :
    encodeVexPrefix (vex2 ps rex d) map (bits 0 2 d) = [0xC5#8, d] := by
  simp only [encodeVexPrefix, vex2, ↓reduceIte, vex2_byte]

/-- A three-byte VEX prefix is written as it was read. -/
theorem encodeVexPrefix_vex3 (ps : List Prefix) (rex : Option Rex) {map : OpMap} {d d' : Byte}
    (h : vexMap (bits 0 5 d) = some map) :
    encodeVexPrefix (vex3 ps rex d d') map (bits 0 2 d') = [0xC4#8, d, d'] := by
  simp only [encodeVexPrefix, vex3, Bool.false_eq_true, ↓reduceIte, mmmmm_of_vexMap h, vex3_byte1, vex3_byte2]

/-! ## Rows of the opcode table (30_encoding.md R71) -/
/-- An r/m operand is written the same whether its register is an XMM or an MMX register (10_state.md R15). -/
theorem encodeRM_mmxRM (reg : BitVec 3) (o : RM 4) : encodeRM reg (mmxRM o) = encodeRM reg o := by
  cases o with
  | reg n => simp [mmxRM, mmxReg, encodeRM]
  | mem o => exact encodeRM_mem reg o

theorem encodeLegacy_mmxRM (e : LegEnc) (map : OpMap) (opc : Byte) (reg : BitVec 3) (o : RM 4) (im : List Byte) :
    encodeLegacy e map opc reg (mmxRM o) im = encodeLegacy e map opc reg o im := by
  simp only [encodeLegacy, encodeRM_mmxRM]

/-- The three forms that no bytes mean in 32-bit mode (93_implementation_defined.md U6, U7). -/
def Instr.notIn32 : Instr → Bool
  | .pextR64 _ _ _ _ | .pextrq _ _ _ _ | .pinsrq _ _ _ _ => true
  | _ => false

/-- What a row of the legacy table makes of an encoding: an instruction that keeps it and has these bytes, a legacy SSE form
exactly where 66 is present (`p`), and one of 64-bit mode only where REX.W is set. -/
structure Instr.LegacyForm (i : Instr) (p : Bool) (e : LegEnc) (bytes : List Byte) : Prop where
  enc : i.enc = .leg e
  kind : (i.row.kind == .sse) = p
  encode : encode i = bytes
  notIn32 : e.rexBits.w = false → i.notIn32 = false

theorem legacyRow_form {p : Bool} {opc : Byte} {map : OpMap} {row : LegRow} (h : legacyRow p opc map = some row)
    (e : LegEnc) (g : BitVec 4) (o : RM 4) (v : Byte) :
    (row.build e g o v).LegacyForm p e (encodeLegacy e map opc (g.setWidth 3) o (if row.imm then [v] else [])) := by
  cases p <;> cases map
  all_goals
    simp only [legacyRow, Bool.not_false, Bool.not_true, Bool.true_and, Bool.false_and, Bool.false_eq_true,
      ↓reduceIte, beq_iff_eq] at h
    repeat' split at h
  all_goals simp only [reduceCtorEq, Option.some.injEq] at h
  -- One goal for each row; two where REX.W chooses between the rows of an opcode.
  all_goals
    subst h
    subst opc
    simp only [↓reduceIte, Bool.false_eq_true]
    try split
  all_goals
    refine ⟨rfl, rfl, ?_, fun hw => ?_⟩
    · simp only [encode, encodeLegacy_mmxRM, mmxReg]
    · simp_all [Instr.notIn32]

/-- What a row of the VEX table makes of an encoding: an instruction that keeps it and has these bytes, one of 64-bit mode
only in that mode. -/
structure Instr.VexForm (i : Instr) (m : Bool) (e : VexEnc) (bytes : List Byte) : Prop where
  enc : i.enc = .vex e
  encode : encode i = bytes
  notIn32 : m = false → i.notIn32 = false

theorem vexRow_form {m : Bool} {pp : BitVec 2} {opc : Byte} {map : OpMap} {row : VexRow}
    (h : vexRow m pp opc map = some row) (e : VexEnc) (g r : BitVec 4) (o : RM 4) (v : Byte) :
    (row.build e g r o v).VexForm m e (encodeVex e map pp opc g o (if row.imm then [v] else [])) := by
  cases map
  all_goals
    simp only [vexRow, Bool.and_eq_true, beq_iff_eq] at h
    repeat' split at h
  all_goals simp only [reduceCtorEq, Option.some.injEq] at h
  -- One goal for each row; two where VEX.L or VEX.W chooses between the rows of an opcode.
  all_goals
    subst h
    rename_i hrow
    obtain ⟨rfl, rfl⟩ := hrow
    simp only [↓reduceIte, Bool.false_eq_true]
    try split
  all_goals
    refine ⟨rfl, rfl, fun hm => ?_⟩
    simp_all [Instr.notIn32]

/-! ## Whole instructions (30_encoding.md R72) -/

/-- A legacy form that is read after its 0F byte. -/
theorem decodeLegacy_form {m : Bool} {n : Nat} {ps : List Prefix} {rex : Option Rex} {t rest : List Byte} {i : Instr}
    (h : decodeLegacy m n ps rex t = .ok i rest) :
    hasRep ps = false ∧ ∃ bytes, i.LegacyForm (hasOpSize ps) ⟨ps, rex, n - rest.length⟩ bytes ∧
      bytes ++ rest = encodePrefixes ps rex ++ 0x0F#8 :: t := by
  unfold decodeLegacy at h
  split at h
  · cases h
  next map opc t1 hop =>
  split at h
  · cases h
  next hrep =>
  split at h
  · cases h
  next row hrow =>
  dsimp only at h
  split at h
  · cases h
  next reg rm t2 hrm =>
  split at h
  · cases h
  next im t3 him =>
  cases h
  refine ⟨by simpa using hrep, _, legacyRow_form hrow _ _ rm im, ?_⟩
  rw [← escape_of_readLegacyOpcode hop, ← encode_of_readModRM hrm, ← append_of_readImm him]
  simp only [encodeLegacy, setWidth_extReg, List.append_assoc, List.cons_append]

/-- A VEX form that is read after its VEX prefix. -/
theorem decodeVex_form {m : Bool} {n : Nat} {e : VexEnc} {mm : BitVec 5} {pp : BitVec 2} {t rest : List Byte} {i : Instr}
    (h : decodeVex m n e mm pp t = .ok i rest) :
    ∃ map bytes, vexMap mm = some map ∧ i.VexForm m { e with len := n - rest.length } bytes ∧
      bytes ++ rest = encodePrefixes e.prefixes e.rex ++ (encodeVexPrefix e map pp ++ t) := by
  unfold decodeVex at h
  dsimp only at h
  split at h
  · split at h <;> cases h
  next map hmap =>
  split at h
  · cases h
  next opc t1 =>
  split at h
  · split at h <;> cases h
  next row hrow =>
  split at h
  · cases h
  next reg rm t2 hrm =>
  split at h
  · cases h
  next im t3 him =>
  cases h
  refine ⟨map, _, hmap, vexRow_form hrow _ _ _ rm im, ?_⟩
  rw [← encode_of_readModRM hrm, ← append_of_readImm him]
  simp only [encodeVex, setWidth_extReg, List.append_assoc, List.cons_append]
  rfl

/-- What the decoder read: a form of the table whose bytes are those that it consumed. -/
inductive Decoded (m : Bool) (bs rest : List Byte) (i : Instr) : Prop where
  | legacy (e : LegEnc) (bytes : List Byte) (hform : i.LegacyForm (hasOpSize e.prefixes) e bytes)
      (hrep : hasRep e.prefixes = false) (hrex : (m || e.rex.isNone) = true) (hlen : e.len = bs.length - rest.length)
      (hbytes : bytes ++ rest = bs)
  | vex (e : VexEnc) (bytes : List Byte) (hform : i.VexForm m e bytes) (hlen : e.len = bs.length - rest.length)
      (hbytes : bytes ++ rest = bs)

theorem decoded_of_decode {m : Bool} {bs rest : List Byte} {i : Instr} (h : decode m bs = .ok i rest) :
    Decoded m bs rest i := by
  unfold decode at h
  split at h
  · cases h
  next ps rex c t hscan =>
  have hbs := scanPrefixes_bytes hscan
  split at h
  · next hc =>
    obtain ⟨hrep, bytes, hform, hbytes⟩ := decodeLegacy_form h
    exact .legacy ⟨ps, rex, _⟩ bytes hform hrep (scanPrefixes_wf hscan).2.1 rfl (by rw [hbytes, ← hbs, eq_of_beq hc])
  split at h
  · next hc =>
    split at h
    · cases h
    next d t1 =>
    split at h
    · cases h
    split at h
    · next hc5 =>
      obtain ⟨map, bytes, -, hform, hbytes⟩ := decodeVex_form h
      refine .vex _ bytes hform rfl ?_
      rw [hbytes, encodeVexPrefix_vex2, ← hbs, eq_of_beq hc5]
      rfl
    · next hc5 =>
      have hc4 : c = 0xC4#8 := by simpa [hc5] using hc
      split at h
      · cases h
      next d' t2 =>
      obtain ⟨map, bytes, hmap, hform, hbytes⟩ := decodeVex_form h
      refine .vex _ bytes hform rfl ?_
      rw [hbytes, encodeVexPrefix_vex3 _ _ hmap, ← hbs, hc4]
      rfl
  · cases h

/-- The encoder writes what the decoder consumed. -/
theorem encode_of_decode {m : Bool} {bs rest : List Byte} {i : Instr} (h : decode m bs = .ok i rest) :
    encode i ++ rest = bs := by
  cases decoded_of_decode h with
  | legacy e bytes hform hrep hrex hlen hbytes => rw [hform.encode, hbytes]
  | vex e bytes hform hlen hbytes => rw [hform.encode, hbytes]

/-- No bytes mean one of the three forms of 64-bit mode in 32-bit mode: there is no REX byte, and PEXT ignores VEX.W. -/
theorem notIn32_of_decode {bs rest : List Byte} {i : Instr} (h : decode false bs = .ok i rest) : i.notIn32 = false := by
  cases decoded_of_decode h with
  | legacy e bytes hform hrep hrex hlen hbytes =>
    have hnone : e.rex = none := by simpa using hrex
    exact hform.notIn32 (by rw [LegEnc.rexBits, hnone]; rfl)
  | vex e bytes hform hlen hbytes => exact hform.notIn32 rfl

/-- Settles O1: each part of the decoder reads back what the encoder writes (`decode_encode`). -/
theorem encodeThenDecode : Obligations.EncodeThenDecode :=
  fun _ _ rest h => decode_encode rest h

/-- Settles O2: each part of the encoder writes back what the decoder read (`encode_of_decode`), and what the decoder
answers within 15 bytes is well-formed (`decode_wf`). -/
theorem decodeThenEncode : Obligations.DecodeThenEncode :=
  fun _ _ _ _ h => ⟨encode_of_decode h, decode_wf h⟩

/-- Settles O4: the prefixes of a legacy form are those by which its row was looked up (`decoded_of_decode`). -/
theorem mandatoryPrefixSelectsForm : Obligations.MandatoryPrefixSelectsForm := by
  intro m bs rest i e h he
  cases decoded_of_decode h with
  | legacy e' bytes hform hrep hrex hlen hbytes =>
    obtain rfl : e' = e := Enc.leg.inj (hform.enc.symm.trans he)
    exact ⟨hrep, hform.kind.symm⟩
  | vex e' bytes hform hlen hbytes =>
    rw [hform.enc] at he
    cases he

/-- Settles O3: the decoder is evaluated on each of the words. -/
theorem specWordsDecode : Obligations.SpecWordsDecode := by
  unfold Obligations.SpecWordsDecode
  decide

end Sys2Proof
end

section
/-! An instruction longer than the bytes that can be fetched, and what a step makes of each answer of the decoder
(spec/30_encoding.md R51, R59, R72; spec/60_exceptions.md R230, R235; spec/70_reset_and_hazards.md R266). -/

namespace Sys2Proof

/-! ## Bytes after those that the decoder asked for (30_encoding.md R51, R72) -/

/-- The answer with more bytes after the instruction. -/
def DecodeResult.append (v : List Byte) : DecodeResult → DecodeResult
  | .ok i rest => .ok i (rest ++ v)
  | .truncated => .truncated
  | .undefined => .undefined
  | .reject why => .reject why

/-- A scan that ends before the last byte does not change when bytes follow. -/
theorem scanPrefixes_append {m : Bool} {u t : List Byte} {ps : List Prefix} {rex : Option Rex} {c : Byte}
    (v : List Byte) (h : scanPrefixes m u = (ps, rex, c :: t)) : scanPrefixes m (u ++ v) = (ps, rex, c :: (t ++ v)) := by
  induction u generalizing ps with
  | nil => cases h
  | cons b u ih =>
    rw [scanPrefixes_cons] at h
    rw [List.cons_append, scanPrefixes_cons]
    split at h
    · obtain ⟨rfl, hrest⟩ := Prod.mk.inj h
      rw [ih (Prod.ext rfl hrest)]
    split at h
    · next hrex =>
      rw [if_pos hrex]
      cases u with
      | nil => cases h
      | cons d u =>
        dsimp only at h
        rw [List.cons_append]
        dsimp only
        split at h
        · next hd =>
          obtain ⟨rfl, hrest⟩ := Prod.mk.inj h
          rw [if_pos hd, ← List.cons_append, ih (Prod.ext rfl hrest)]
        · next hd =>
          cases h
          rw [if_neg hd]
    · next hrex =>
      cases h
      rw [if_neg hrex]

theorem readLegacyOpcode_append {t u : List Byte} {map : OpMap} {opc : Byte} (v : List Byte)
    (h : readLegacyOpcode t = some (map, opc, u)) : readLegacyOpcode (t ++ v) = some (map, opc, u ++ v) := by
  cases t with
  | nil => cases h
  | cons c t =>
    simp only [readLegacyOpcode, List.cons_append] at h ⊢
    split at h
    · next hesc =>
      rw [if_pos hesc]
      cases t with
      | nil => cases h
      | cons d t =>
        cases h
        rfl
    · next hesc =>
      cases h
      rw [if_neg hesc]

/-- What is read for ModRM is what the encoder writes, which reads the same before any bytes (`readModRM_encode`). -/
theorem readModRM_append {m a67 x b : Bool} {t u : List Byte} {reg : BitVec 3} {o : RM 4} (v : List Byte)
    (h : readModRM m a67 x b t = some (reg, o, u)) : readModRM m a67 x b (t ++ v) = some (reg, o, u ++ v) := by
  rw [← encode_of_readModRM h, List.append_assoc]
  exact readModRM_encode reg _ (readModRM_spec h).1

theorem readImm_append_right {has : Bool} {t u : List Byte} {im : Byte} (v : List Byte)
    (h : readImm has t = some (im, u)) : readImm has (t ++ v) = some (im, u ++ v) := by
  cases has <;> cases t <;> cases h
  · cases v <;> rfl
  · rfl
  · rfl

/-- The number of bytes consumed does not depend on those that follow. -/
theorem length_sub_append (n : Nat) (t v : List Byte) : n + v.length - (t ++ v).length = n - t.length := by
  rw [List.length_append, Nat.add_sub_add_right]

theorem decodeLegacy_append {m : Bool} {n : Nat} {ps : List Prefix} {rex : Option Rex} {t : List Byte} (v : List Byte)
    (h : decodeLegacy m n ps rex t ≠ .truncated) :
    decodeLegacy m (n + v.length) ps rex (t ++ v) = (decodeLegacy m n ps rex t).append v := by
  unfold decodeLegacy at h ⊢
  cases hop : readLegacyOpcode t with
  | none => simp [hop] at h
  | some r =>
    obtain ⟨map, opc, t1⟩ := r
    simp only [hop, readLegacyOpcode_append v hop] at h ⊢
    split
    · rfl
    next hrep =>
    rw [if_neg hrep] at h
    cases hrow : legacyRow (hasOpSize ps) opc map with
    | none => rfl
    | some row =>
      simp only [hrow] at h ⊢
      cases hrm : readModRM m (hasAddrSize ps) (rex.getD ⟨false, false, false, false⟩).x
          (rex.getD ⟨false, false, false, false⟩).b t1 with
      | none => simp [hrm] at h
      | some r =>
        obtain ⟨reg, rm, t2⟩ := r
        simp only [hrm, readModRM_append v hrm] at h ⊢
        cases him : readImm row.imm t2 with
        | none => simp [him] at h
        | some r => simp only [readImm_append_right v him, length_sub_append, DecodeResult.append]

theorem decodeVex_append {m : Bool} {n : Nat} {e : VexEnc} {mm : BitVec 5} {pp : BitVec 2} {t : List Byte}
    (v : List Byte) (h : decodeVex m n e mm pp t ≠ .truncated) :
    decodeVex m (n + v.length) e mm pp (t ++ v) = (decodeVex m n e mm pp t).append v := by
  have hrefuse : ∀ why, (if vexForbidden e.prefixes e.rex then DecodeResult.undefined else .reject why) =
      (if vexForbidden e.prefixes e.rex then DecodeResult.undefined else .reject why).append v := by
    intro why
    split <;> rfl
  unfold decodeVex at h ⊢
  dsimp only at h ⊢
  cases hmap : vexMap mm with
  | none => exact hrefuse _
  | some map =>
    simp only [hmap] at h ⊢
    cases t with
    | nil => simp at h
    | cons opc t1 =>
      simp only [List.cons_append] at h ⊢
      cases hrow : vexRow m pp opc map with
      | none => exact hrefuse _
      | some row =>
        simp only [hrow] at h ⊢
        cases hrm : readModRM m (hasAddrSize e.prefixes) (m && e.x) (m && e.b) t1 with
        | none => simp [hrm] at h
        | some r =>
          obtain ⟨reg, rm, t2⟩ := r
          simp only [hrm, readModRM_append v hrm] at h ⊢
          cases him : readImm row.imm t2 with
          | none => simp [him] at h
          | some r => simp only [readImm_append_right v him, length_sub_append, DecodeResult.append]

/-- Bytes that settle the answer settle it whatever stands after them. -/
theorem decode_append {m : Bool} {u : List Byte} (v : List Byte) (h : decode m u ≠ .truncated) :
    decode m (u ++ v) = (decode m u).append v := by
  rcases hscan : scanPrefixes m u with ⟨ps, rex, _ | ⟨c, t⟩⟩
  · simp [decode, hscan] at h
  simp only [decode, hscan, scanPrefixes_append v hscan, List.length_append] at h ⊢
  split
  · next hc =>
    rw [if_pos hc] at h
    exact decodeLegacy_append v h
  next hc =>
  rw [if_neg hc] at h
  split
  · next hvex =>
    rw [if_pos hvex] at h
    cases t with
    | nil => simp at h
    | cons d t =>
      simp only [List.cons_append] at h ⊢
      split
      · rfl
      next hles =>
      rw [if_neg hles] at h
      split
      · next hc5 =>
        rw [if_pos hc5] at h
        exact decodeVex_append v h
      next hc5 =>
      rw [if_neg hc5] at h
      cases t with
      | nil => simp at h
      | cons d' t => exact decodeVex_append v h
  · rfl

/-- The length that the decoder keeps is the number of bytes that it consumed (30_encoding.md R51). -/
theorem len_of_decode {m : Bool} {bs rest : List Byte} {i : Instr} (h : decode m bs = .ok i rest) :
    i.len = bs.length - rest.length := by
  cases decoded_of_decode h with
  | legacy e bytes hform hrep hrex hlen hbytes => simp only [Instr.len, hform.enc, hlen]
  | vex e bytes hform hlen hbytes => simp only [Instr.len, hform.enc, hlen]

/-- Fewer bytes than the instruction has are not enough. -/
theorem decode_take_of_long {m : Bool} {bs rest : List Byte} {i : Instr} {n : Nat} (h : decode m bs = .ok i rest)
    (hn : n < i.len) : decode m (bs.take n) = .truncated := by
  by_contra hshort
  have happ := decode_append (bs.drop n) hshort
  rw [List.take_append_drop, h] at happ
  cases hd : decode m (bs.take n) with
  | ok j r =>
    rw [hd] at happ
    cases happ
    have hlen := len_of_decode hd
    have htake := List.length_take_le n bs
    omega
  | truncated | undefined | reject => simp [hd, DecodeResult.append] at happ

end Sys2Proof

namespace Sys2Proof.Machine

variable {s : State} {i : Instr} {x : Exn} {e : Stop}

/-! ## What the fetch answers is what the step does -/

theorem step_of_fetchInstr_ok (h : s.fetchInstr = .ok i) : step s = exec i s := by
  simp only [step, h]

theorem step_of_fetchInstr_error (h : s.fetchInstr = .error e) : step s = e.outcome := by
  simp only [step, h]

theorem step_raises_of_fetchInstr (h : s.fetchInstr = raise x s) : raises (step s) x s :=
  step_of_fetchInstr_error h

/-! ## The branches of the fetch (30_encoding.md R51, R59, R72; 60_exceptions.md R230, R235) -/

section

variable (hend : s.atEnd = false)
include hend

theorem fetchInstr_of_reject {why : DecodeReject}
    (hdec : decode s.env.mode64 (s.fetchFrom Config.maxLen 0).1 = .reject why) :
    s.fetchInstr = refuse (.notInScope why) := by
  simp [State.fetchInstr, hend, hdec]

theorem fetchInstr_of_undefined (hdec : decode s.env.mode64 (s.fetchFrom Config.maxLen 0).1 = .undefined) :
    s.fetchInstr = raise .ud s := by
  simp [State.fetchInstr, hend, hdec]

/-- An instruction that needs a byte that cannot be fetched stops as the fetch of that byte does. -/
theorem fetchInstr_of_truncated (hdec : decode s.env.mode64 (s.fetchFrom Config.maxLen 0).1 = .truncated)
    (hlen : (s.fetchFrom Config.maxLen 0).1.length < 15) :
    ∃ e, s.fetchByte (s.fetchFrom Config.maxLen 0).1.length = .error e ∧ s.fetchInstr = .error e := by
  rcases fetchFrom_stop s Config.maxLen 0 with ⟨hall, -⟩ | ⟨-, e, hstop, hbyte⟩
  · rw [hall] at hlen
    exact absurd hlen (by decide)
  · rw [Nat.zero_add] at hbyte
    exact ⟨e, hbyte, by simp [State.fetchInstr, hend, hdec, hstop]⟩

/-- An instruction that needs a sixteenth byte raises #GP(0). -/
theorem fetchInstr_of_truncated_15 (hdec : decode s.env.mode64 (s.fetchFrom Config.maxLen 0).1 = .truncated)
    (hlen : (s.fetchFrom Config.maxLen 0).1.length = 15) : s.fetchInstr = raise .gp s := by
  have hstop : (s.fetchFrom Config.maxLen 0).2 = none := by
    rcases fetchFrom_stop s Config.maxLen 0 with ⟨-, hnone⟩ | ⟨hlt, -⟩
    · exact hnone
    · rw [hlen] at hlt
      exact absurd hlt (by decide)
  simp [State.fetchInstr, hend, hdec, hstop]

end

theorem fetchInstr_of_atEnd (h : s.atEnd = true) : s.fetchInstr = .error (.fault .endOfRun) := by
  simp [State.fetchInstr, h]

/-- Settles O8: each answer of the decoder is one branch of the fetch. -/
theorem stepRunsTheDecodedInstruction : Obligations.StepRunsTheDecodedInstruction := by
  refine ⟨fun s x htext hrip => ?_, fun s hend => ⟨fun j hj => ?_, fun i rest hdec => ?_, fun why hdec => ?_,
    fun hdec => ?_, fun hdec => ⟨fun hlen => ?_, fun hlen => ?_⟩⟩⟩
  · have hend : s.atEnd = true := by simp [State.atEnd, htext, hrip]
    exact step_of_fetchInstr_error (fetchInstr_of_atEnd hend)
  · simpa using fetchFrom_getElem s (List.getElem?_eq_getElem hj)
  · exact step_of_fetchInstr_ok (fetchInstr_eq_ok.2 ⟨hend, rest, hdec⟩)
  · exact step_of_fetchInstr_error (fetchInstr_of_reject hend hdec)
  · exact step_raises_of_fetchInstr (fetchInstr_of_undefined hend hdec)
  · obtain ⟨e, hbyte, hfetch⟩ := fetchInstr_of_truncated hend hdec hlen
    exact ⟨e, hbyte, step_of_fetchInstr_error hfetch⟩
  · exact step_raises_of_fetchInstr (fetchInstr_of_truncated_15 hend hdec hlen)

/-- Where the first `n` of some bytes stand at `rip`, they are what a fetch of `n` bytes answers. -/
theorem fetchFrom_eq_take {bs : List Byte} {n : Nat} (h : ∀ j < n, ∃ b, bs[j]? = some b ∧ s.fetchByte j = .ok b) :
    (s.fetchFrom n 0).1 = bs.take n ∧ (bs.take n).length = n := by
  have hn : n ≤ bs.length := by
    by_contra hlt
    obtain ⟨b, hb, -⟩ := h bs.length (Nat.lt_of_not_le hlt)
    simp at hb
  have htake : (bs.take n).length = n := List.length_take_of_le hn
  obtain ⟨more, hmore⟩ := fetchFrom_prefix s (n := n) (i := 0) htake.le fun j hj => by
    obtain ⟨b, hb, hbyte⟩ := h j (htake ▸ hj)
    rw [Nat.zero_add, hbyte, List.getElem_take, (List.getElem_eq_iff _).2 hb]
  have hlen := fetchFrom_length s n 0
  rw [hmore, List.length_append, htake] at hlen
  have hnil : more = [] := List.eq_nil_of_length_eq_zero (by omega)
  exact ⟨by rw [hmore, hnil, List.append_nil], htake⟩

/-- Settles O11: the first 15 bytes of a longer instruction are not enough (`decode_take_of_long`), so it needs a
sixteenth. -/
theorem overlongInstructionRaisesGp : Obligations.OverlongInstructionRaisesGp := by
  intro s bs rest i hend hdec hlong hbytes
  obtain ⟨hfetch, hlen⟩ := fetchFrom_eq_take (n := Config.maxLen) hbytes
  refine step_raises_of_fetchInstr (fetchInstr_of_truncated_15 hend ?_ ?_)
  · rw [hfetch]
    exact decode_take_of_long hdec hlong
  · rw [hfetch]
    exact hlen

end Sys2Proof.Machine
end

section
/-! Which exceptions an instruction can end in, and the stops of 32-bit mode that have a name (spec/60_exceptions.md R220 to
R235; spec/30_encoding.md R59, R60, R73; spec/93_implementation_defined.md U4, U6, U7). -/

namespace Sys2Proof.Machine

variable {i : Instr} {s : State} {o : FaultOutcome}

/-! ## The exceptions of a memory operand (60_exceptions.md R220, R230 to R232) -/

/-- The result is no exception: once an operand is past its checks, its bytes stop by the model's own names only. -/
def NoException {α : Type} (r : Res α) : Prop := ∀ o, r ≠ .error (.fault (.exception o))

theorem readAll_noException (m : Memory) (as : List Nat) : NoException (m.readAll as) := by
  induction as with
  | nil => exact nofun
  | cons a as ih =>
    intro o h
    unfold Memory.readAll at h
    split at h
    · cases h
    · cases hr : m.readAll as with
      | ok vs => simp [hr, Except.map] at h
      | error e =>
        rw [hr] at h
        exact ih o (hr.trans h)

theorem readBytes_noException (s : State) (as : List Nat) : NoException (s.readBytes as) := by
  unfold State.readBytes
  split
  · exact nofun
  · exact readAll_noException s.mem as

theorem writeBytes_noException (s : State) (as : List Nat) (vs : List Byte) : NoException (s.writeBytes as vs) := by
  unfold State.writeBytes
  split
  · exact nofun
  split <;> exact nofun

/-- The checks of an operand raise #SS, #GP, #PF or #AC. -/
theorem operandAddrs_exception {g : Seg} {off : Word} {n : Nat} {k : Access} {al : Bool}
    (h : s.operandAddrs g off n k al = .error (.fault (.exception o))) : o.vector ∈ [12, 13, 14, 17] := by
  unfold State.operandAddrs at h
  dsimp only at h
  split at h
  · cases h
    by_cases hg : g = .ss <;> simp [hg, faultOutcome, Exn.vector]
  split at h
  · cases h
    simp [faultOutcome, Exn.vector]
  have hac : (faultOutcome .ac s).vector ∈ [12, 13, 14, 17] := by simp [faultOutcome, Exn.vector]
  have hpf : ∀ {x as}, s.pageFault k as = some x → (faultOutcome x s).vector ∈ [12, 13, 14, 17] := by
    intro x as hx
    obtain ⟨code, a, rfl, -⟩ := pageFault_eq_some hx
    simp [faultOutcome, Exn.vector]
  split at h
  · cases h
  · cases h
    exact hac
  · next hx _ =>
    cases h
    exact hpf hx
  · next hx _ =>
    split at h
    · cases h
      exact hac
    · cases h
      exact hpf hx

theorem memRead_exception {w : Nat} {al : Bool} {g : Seg} {off : Word}
    (h : s.memRead w al g off = .error (.fault (.exception o))) : o.vector ∈ [12, 13, 14, 17] := by
  unfold State.memRead at h
  cases ha : s.operandAddrs g off (w / 8) .read al with
  | error e =>
    rw [ha] at h
    cases h
    exact operandAddrs_exception ha
  | ok as =>
    cases hr : s.readBytes as with
    | error e =>
      simp only [ha, hr, bind, Except.bind] at h
      cases h
      exact absurd hr (readBytes_noException s as o)
    | ok vs => simp [ha, hr, bind, Except.bind, pure, Except.pure] at h

theorem memWrite_exception {w : Nat} {g : Seg} {off : Word} {v : BitVec w}
    (h : s.memWrite g off v = .error (.fault (.exception o))) : o.vector ∈ [12, 13, 14, 17] := by
  unfold State.memWrite at h
  cases ha : s.operandAddrs g off (w / 8) .write false with
  | error e =>
    rw [ha] at h
    cases h
    exact operandAddrs_exception ha
  | ok as =>
    rw [ha] at h
    exact absurd h (writeBytes_noException s as _ o)

/-! ## The exceptions of an instruction -/

/-- An exception that ends a meaning is one of its body. -/
theorem finish_eq_exception {len : Nat} {r : Res State} (h : finish len s r = .fault (.exception o)) :
    r = .error (.fault (.exception o)) := by
  cases r with
  | ok u => simp at h
  | error e => cases e <;> simp_all [Stop.outcome]

/-- After the checks, a body whose exceptions are those of an operand. -/
theorem exception_of_body {len : Nat} {r : Res State} (he : exec i s = finish len s (do preChecks i s; r))
    (h : exec i s = .fault (.exception o))
    (hr : r = .error (.fault (.exception o)) → o.vector ∈ [12, 13, 14, 17]) :
    preChecks i s = .error (.fault (.exception o)) ∨ o.vector ∈ [12, 13, 14, 17] := by
  have hbody := finish_eq_exception (he ▸ h)
  cases hc : preChecks i s with
  | error e =>
    rw [hc] at hbody
    cases hbody
    exact .inl rfl
  | ok u =>
    rw [hc] at hbody
    exact .inr (hr hbody)

/-- An exception of an instruction is one of its checks, or one of its memory operand: #SS, #GP, #PF or #AC. -/
theorem exec_exception (h : exec i s = .fault (.exception o)) :
    preChecks i s = .error (.fault (.exception o)) ∨ o.vector ∈ [12, 13, 14, 17] := by
  cases exec_shape i s with
  | refused _ he => rw [he] at h; cases h
  | plain t _ _ he => exact exception_of_body he h nofun
  | load m w f _ _ _ _ he =>
    refine exception_of_body he h fun hr => ?_
    cases hm : s.memRead w (mustAlign16 i s) (operandSeg s.env.mode64 i.prefixes m) (s.offset i.prefixes i.len m) with
    | error e =>
      rw [hm] at hr
      cases hr
      exact memRead_exception hm
    | ok b =>
      rw [hm] at hr
      cases hr
  | store m w v _ _ _ he => exact exception_of_body he h memWrite_exception

/-- A stop of the checks is that of a meaning that begins with them. -/
theorem exec_of_checks {len : Nat} {c : Res Unit} {r : Res State} {e : Stop} (he : exec i s = finish len s (do c; r))
    (hc : c = preChecks i s) (h : preChecks i s = .error e) : exec i s = e.outcome := by
  subst hc
  rw [he, h]
  rfl

/-- A stop of the checks is the stop of a well-formed instruction. -/
theorem exec_of_preChecks_error {e : Stop} (hwf : i.wf s.env.mode64 = true) (h : preChecks i s = .error e) :
    exec i s = e.outcome := by
  cases exec_shape i s with
  | refused hf _ => rw [hf] at hwf; cases hwf
  | plain _ _ _ he | load _ _ _ _ _ _ _ he | store _ _ _ _ _ _ he => exact exec_of_checks he rfl h

/-- The first check is for the #UD conditions (60_exceptions.md R235), and no other raises #UD. -/
theorem preChecks_eq_ud : preChecks i s = raise .ud s ↔ udCond i s = true := by
  unfold preChecks
  constructor
  · intro h
    split at h
    · assumption
    split at h
    · cases h
    split at h
    · cases h
    split at h <;> cases h
  · intro h
    rw [if_pos h]

/-- Settles O20: #UD is none of the exceptions of an operand, so it is raised exactly where the checks raise it
(`exec_exception`, `preChecks_eq_ud`). -/
theorem udRaisedExactly : Obligations.UdRaisedExactly := by
  intro i s hwf
  rw [← preChecks_eq_ud]
  constructor
  · intro h
    rcases exec_exception h with hc | hv
    · exact hc
    · simp [Exn.vector] at hv
  · exact fun h => exec_of_preChecks_error hwf h

/-! ## The refusals of 32-bit mode (93_implementation_defined.md U4, U6, U7) -/

/-- After the #UD conditions the checks refuse an open VEX.W. -/
theorem preChecks_of_vexWOpen (hud : udCond i s = false) (hw : vexWOpen i s = true) :
    preChecks i s = refuse .vexWOutside64 := by
  simp [preChecks, hud, hw]

/-- VEX.W = 1 in 32-bit mode, on a form for which the source is silent, is refused by name. -/
theorem exec_of_vexWOpen (hud : udCond i s = false) (hw : vexWOpen i s = true) :
    exec i s = .refused .vexWOutside64 := by
  have hrefuse := preChecks_of_vexWOpen hud hw
  cases i with
  | vpextrb | vpextrwStore | vpinsrb | vpinsrw =>
    exact exec_of_checks rfl (checkVex_eq rfl rfl rfl rfl (by simp [Instr.row, Instr.memOp])) hrefuse
  | vpextrw =>
    exact exec_of_checks rfl (checkVex_eq rfl rfl rfl rfl (by simp [Instr.row, Instr.memOp, rmIsMem_eq])) hrefuse
  | _ => cases hw

theorem ne_of_notIn32 {j : Instr} (h : i.notIn32 = false) (hj : j.notIn32 = true) : i ≠ j := by
  rintro rfl
  rw [h] at hj
  cases hj

/-- Settles O28: the decoder answers none of the three forms there (`notIn32_of_decode`), their meanings refuse, and so do
the checks where VEX.W is open (`exec_of_vexWOpen`). -/
theorem statedRefusalsIn32BitMode : Obligations.StatedRefusalsIn32BitMode := by
  refine ⟨fun bs rest i h => ?_, fun s hm => ?_⟩
  · have hno := notIn32_of_decode h
    exact ⟨fun _ _ _ _ => ne_of_notIn32 hno rfl, fun _ _ _ _ => ne_of_notIn32 hno rfl,
      fun _ _ _ _ => ne_of_notIn32 hno rfl⟩
  · exact ⟨exec_pextR64_refused hm, exec_pextrq_refused hm, exec_pinsrq_refused hm, fun i => exec_of_vexWOpen⟩

end Sys2Proof.Machine
end

section
/-! The effective offset (spec/30_encoding.md R63, R66 to R70). -/

namespace Sys2Proof.Machine

/-! ## The effective offset (30_encoding.md R63, R66 to R70) -/

theorem dispValue_toInt_d8 {w : Nat} (d : BitVec 8) : (dispValue (.d8 d : Disp w)).toInt = d.toInt :=
  BitVec.toInt_signExtend_of_le (by decide)

theorem dispValue_toInt_full {w : Nat} (hw : w ≤ 64) (d : BitVec w) : (dispValue (.full d)).toInt = d.toInt :=
  BitVec.toInt_signExtend_of_le hw

/-- The low bits of a sign-extended value are the value. -/
theorem setWidth_signExtend_of_le {w v : Nat} (h : w ≤ v) (d : BitVec w) : (d.signExtend v).setWidth w = d := by
  ext j hj
  rw [BitVec.getElem_setWidth, BitVec.getLsbD_signExtend]
  simp [hj, Nat.lt_of_lt_of_le hj h]

section

variable {s : State} {ps : List Prefix} {len : Nat} {o : MemOp}

/-- 64-bit addresses: the whole sum (30_encoding.md R66). -/
theorem offset_a64 (h64 : s.env.mode64 = true) (h67 : hasAddrSize ps = false) :
    s.offset ps len o = s.offsetSum .a64 len o := by
  simp [State.offset, addrSize, h64, h67, AddrSize.trunc]

/-- 32-bit addresses: the low 32 bits of the sum. -/
theorem offset_a32 (h : hasAddrSize ps = s.env.mode64) : s.offset ps len o = low32 (s.offsetSum .a32 len o) := by
  cases h64 : s.env.mode64 <;> rw [h64] at h <;> simp [State.offset, addrSize, h64, h, AddrSize.trunc]

/-- 16-bit addresses: the sum modulo 2^16. -/
theorem offset_a16_toNat (h64 : s.env.mode64 = false) (h67 : hasAddrSize ps = true) :
    (s.offset ps len o).toNat = (s.offsetSum .a16 len o).toNat % 2 ^ 16 := by
  simp only [State.offset, addrSize, h64, h67, AddrSize.trunc, BitVec.toNat_setWidth]
  omega

/-- A row of the 16-bit forms adds its registers and the displacement, modulo 2^16 (30_encoding.md R70). -/
theorem offset_m16_toNat (h64 : s.env.mode64 = false) (h67 : hasAddrSize ps = true) {rm : BitVec 3} {sum : Nat}
    (hsum : (s.sum16 rm).toNat % 2 ^ 16 = sum % 2 ^ 16) (d : Disp 16) :
    (s.offset ps len (.m16 rm d)).toNat = (sum + (dispValue d).toNat) % 2 ^ 16 := by
  rw [offset_a16_toNat h64 h67, State.offsetSum, BitVec.toNat_add]
  omega

theorem offset_m16abs (h64 : s.env.mode64 = false) (h67 : hasAddrSize ps = true) (d : BitVec 16) :
    s.offset ps len (.m16abs d) = d.setWidth 64 := by
  simp only [State.offset, addrSize, h64, h67, AddrSize.trunc, State.offsetSum,
    setWidth_signExtend_of_le (by decide : 16 ≤ 64)]

end

theorem toNat_add_mod_16 (a b : Word) : (a + b).toNat % 2 ^ 16 = (a.toNat + b.toNat) % 2 ^ 16 := by
  rw [BitVec.toNat_add]
  omega

theorem sibIndex_eq (s : State) (a : AddrSize) (i : BitVec 4) (sc : BitVec 2) :
    s.sibIndex a i sc = if i = 4#4 then 0#64 else s.regA a i <<< sc.toNat := by
  simp [State.sibIndex]

/-- Settles O29, by the address size: the sum of each form, cut to that size. -/
theorem effectiveOffset : Obligations.EffectiveOffset := by
  refine ⟨fun w hw => ⟨rfl, dispValue_toInt_d8, dispValue_toInt_full hw⟩,
    fun s ps len => ⟨fun h64 h67 => ?_, fun h => ?_, fun h64 h67 => ?_⟩⟩
  · simp only [offset_a64 h64 h67, State.offsetSum, sibIndex_eq, State.regA, AddrSize.trunc, h64, ↓reduceIte, State.nextRip,
      implies_true, and_self]
  · simp only [offset_a32 h, State.offsetSum, sibIndex_eq, State.regA, AddrSize.trunc, implies_true, true_and]
    intro d
    cases h64 : s.env.mode64 with
    | true => simp only [State.nextRip, h64, ↓reduceIte]
    | false => simp only [low32, Bool.false_eq_true, ↓reduceIte, setWidth_signExtend_of_le (by decide : 32 ≤ 64)]
  · have row := fun {rm : BitVec 3} {sum : Nat} => offset_m16_toNat (s := s) (len := len) (rm := rm) (sum := sum) h64 h67
    exact ⟨row (toNat_add_mod_16 _ _), row (toNat_add_mod_16 _ _), row (toNat_add_mod_16 _ _), row (toNat_add_mod_16 _ _),
      row rfl, row rfl, row rfl, row rfl, offset_m16abs h64 h67⟩

end Sys2Proof.Machine
end

section
/-! PEXT as a function of two words (spec/40_pext.md R102). -/

namespace Sys2Proof.Machine

/-! ## PEXT gathers in order (40_pext.md R102) -/

/-- How many of the mask bits below position `m` are 1. -/
def maskRank {N : Nat} (mask : BitVec N) (m : Nat) : Nat := Nat.count (fun j => mask.getLsbD j = true) m

section

variable {N : Nat} {src mask : BitVec N} {i m : Nat}

theorem maskRank_eq_length_filter (mask : BitVec N) (m : Nat) :
    maskRank mask m = ((List.range m).filter fun j => mask.getLsbD j).length := by
  simp [maskRank, Nat.count, List.countP_eq_length_filter]

theorem maskRank_succ_of_set (h : mask.getLsbD m = true) : maskRank mask (m + 1) = maskRank mask m + 1 :=
  Nat.count_succ_eq_succ_count h

theorem maskRank_succ_of_clear (h : mask.getLsbD m = false) : maskRank mask (m + 1) = maskRank mask m :=
  Nat.count_succ_eq_count (by simp [h])

theorem maskRank_le (mask : BitVec N) (m : Nat) : maskRank mask m ≤ m := Nat.count_le _

theorem maskRank_lt_of_set (hi : mask.getLsbD i = true) (him : i < m) : maskRank mask i < maskRank mask m :=
  Nat.count_strict_mono hi him

/-- Two positions of the mask never gather to the same result bit. -/
theorem eq_of_maskRank_eq (hi : mask.getLsbD i = true) (hm : mask.getLsbD m = true)
    (h : maskRank mask i = maskRank mask m) : i = m :=
  Nat.count_injective hi hm h

/-- The counter of the loop is the rank of the position it has reached. -/
theorem pextLoop_snd (src mask : BitVec N) (m : Nat) : (pextLoop src mask m).2 = maskRank mask m := by
  induction m with
  | zero => simp [pextLoop, maskRank]
  | succ m ih =>
    cases hm : mask.getLsbD m with
    | true => simp [pextLoop, hm, ih, maskRank_succ_of_set hm]
    | false => simp [pextLoop, hm, ih, maskRank_succ_of_clear hm]

/-- The word that the loop ORs in has its one 1 at bit `r`. -/
theorem getLsbD_one_shiftLeft {r : Nat} (hr : r < N) (k : Nat) : ((1#N) <<< r).getLsbD k = decide (r = k) := by
  rw [← BitVec.twoPow_eq, BitVec.getLsbD_twoPow]
  simp [hr]

/-- A gathered bit is 1 exactly when it is the place of a position below `m` where `mask` and `src` are 1. -/
theorem pextLoop_fst_getLsbD (src mask : BitVec N) (m k : Nat) :
    (pextLoop src mask m).1.getLsbD k = true ↔
      ∃ j < m, mask.getLsbD j = true ∧ maskRank mask j = k ∧ src.getLsbD j = true := by
  induction m with
  | zero => simp [pextLoop]
  | succ m ih =>
    simp only [Nat.lt_succ_iff_lt_or_eq, or_and_right, exists_or, exists_eq_left, ← ih]
    cases hm : mask.getLsbD m with
    | false => simp [pextLoop, hm]
    | true =>
      have hr : maskRank mask m < N := (maskRank_le mask m).trans_lt (BitVec.lt_of_getLsbD hm)
      cases hs : src.getLsbD m with
      | false => simp [pextLoop, hm, hs]
      | true => simp [pextLoop, hm, hs, pextLoop_snd, getLsbD_one_shiftLeft hr]

/-- The bits of the result, each by the position it comes from. -/
theorem pext_getLsbD (src mask : BitVec N) (k : Nat) :
    (pext src mask).getLsbD k = true ↔
      ∃ j < N, mask.getLsbD j = true ∧ maskRank mask j = k ∧ src.getLsbD j = true :=
  pextLoop_fst_getLsbD src mask N k

/-- Under a 1 of the mask the bit of `src` lands at its rank: no other position has that rank. -/
theorem pext_getLsbD_maskRank (src : BitVec N) (hm : mask.getLsbD m = true) :
    (pext src mask).getLsbD (maskRank mask m) = src.getLsbD m := by
  rw [Bool.eq_iff_iff, pext_getLsbD]
  constructor
  · rintro ⟨j, -, hj, hrank, hsrc⟩
    rwa [← eq_of_maskRank_eq hj hm hrank]
  · exact fun hsrc => ⟨m, BitVec.lt_of_getLsbD hm, hm, rfl, hsrc⟩

/-- From the number of mask bits up nothing is gathered: every position has a smaller rank. -/
theorem pext_getLsbD_of_le (src : BitVec N) {k : Nat} (hk : maskRank mask N ≤ k) :
    (pext src mask).getLsbD k = false := by
  rw [Bool.eq_false_iff, ne_eq, pext_getLsbD]
  rintro ⟨j, hj, hmask, rfl, -⟩
  exact absurd (maskRank_lt_of_set hmask hj) (Nat.not_lt.mpr hk)

end

/-- Settles O31, from the position each bit of the result comes from (`pext_getLsbD`). -/
theorem pextGathersInOrder : Obligations.PextGathersInOrder := by
  intro N src mask
  simp only [← maskRank_eq_length_filter]
  exact ⟨fun _ _ hm => pext_getLsbD_maskRank src hm, fun _ hk => pext_getLsbD_of_le src hk⟩

end Sys2Proof.Machine
end

section
/-! PEXTRB, PEXTRD, PEXTRQ and their VEX forms with a register destination (spec/41_pextrb_pextrd_pextrq.md R110 to R117). -/

namespace Sys2Proof.Machine

variable {s : State} {ps : List Prefix} {len : Nat} {c : Res Unit} {d : BitVec 4}

/-- A check that passes, then an r/m destination of up to 32 bits that is a register: it is written whole (R117). -/
theorem completes_of_storeRM32_reg {w : Nat} {v : BitVec w} (hw : w ≤ 32) (hc : c = .ok ()) :
    completes (finish len s (do c; storeRM32 ps len v (.reg d) s)) (writesGpr d v len s) :=
  completes_of_write hc (writesGpr_set32 s d v hw len)

/-- A check that passes, then an r/m destination of 64 bits that is a register (R117). -/
theorem completes_of_storeRM64_reg {v : Word} (hc : c = .ok ()) :
    completes (finish len s (do c; storeRM64 ps len v (.reg d) s)) (writesGpr d v len s) :=
  completes_of_write hc (writesGpr_set64 s d v len)

/-- Settles O39, by the width of the form: the check, then the write of the selected element to the whole register. -/
theorem pextrToRegister : Obligations.PextrToRegister := by
  intro e d src imm s hr
  have hc : checkSse .sse41 false e s = .ok () := checkSse_eq_ok.2 ⟨rfl, hr⟩
  simp only [← sel_two_pow]
  refine ⟨?_, ?_, fun h64 => ?_⟩
  · exact completes_of_storeRM32_reg (by decide) hc
  · exact completes_of_storeRM32_reg (by decide) hc
  · rw [exec_pextrq h64]
    exact completes_of_storeRM64_reg hc

/-- Settles O40, as O39: VPEXTRB ignores VEX.W in 64-bit mode alone, VPEXTRQ has #UD outside 64-bit mode among its checks. -/
theorem vpextrToRegister : Obligations.VpextrToRegister := by
  intro e d src imm s hr hl hv
  have hud : (e.l || vvvvUsed e s) = false := by simp [hl, vvvvUsed_eq, hv]
  simp only [← sel_two_pow]
  refine ⟨fun hw => ?_, ?_, fun h64 => ?_⟩
  · exact completes_of_storeRM32_reg (by decide) (checkVex_eq_ok.2 ⟨hud, fun _ => hw, hr⟩)
  · exact completes_of_storeRM32_reg (by decide) (checkVex_eq_ok.2 ⟨hud, nofun, hr⟩)
  · exact completes_of_storeRM64_reg (checkVex_eq_ok.2 ⟨by simp [hud, h64], nofun, hr⟩)

end Sys2Proof.Machine
end

section
/-! The horizontal additions: the layout of `hpair`, the element functions, and the forms by encoding kind
(spec/43_phadd.md R130 to R146; spec/45_phsub.md R175, R176). -/

namespace Sys2Proof.Machine

section
variable {W w : Nat}

/-! ## The layout of `hpair` -/

/-- The elements of the lanes of a value are elements of the value. -/
theorem lane_elem_lt {lane i : Nat} (hl : lane < W / min W 128) (hi : i < min W 128 / w) :
    min W 128 / w * lane + i < W / w := by
  have hw : 0 < w := Nat.pos_of_ne_zero fun h => by simp [h] at hi
  have hall : min W 128 / w * (W / min W 128) ≤ W / w := by
    rw [Nat.le_div_iff_mul_le hw]
    calc min W 128 / w * (W / min W 128) * w
        = min W 128 / w * w * (W / min W 128) := Nat.mul_right_comm ..
      _ ≤ min W 128 * (W / min W 128) := Nat.mul_le_mul_right _ (Nat.div_mul_le_self ..)
      _ ≤ W := Nat.mul_div_le ..
  calc min W 128 / w * lane + i
      < min W 128 / w * (lane + 1) := by rw [Nat.mul_succ]; omega
    _ ≤ min W 128 / w * (W / min W 128) := Nat.mul_le_mul_left _ hl
    _ ≤ W / w := hall

/-- Element `i` of a lane of `hpair`: a pair of the first operand's lane in the low half, of the second's in the high half
(43_phadd.md R130). -/
theorem elem_hpair (f : BitVec w → BitVec w → BitVec w) (a b : BitVec W) {lane i : Nat} (hl : lane < W / min W 128)
    (hi : i < min W 128 / w) :
    let n := min W 128 / w
    elem w (hpair f a b) (n * lane + i) =
      if i < n / 2 then f (elem w a (n * lane + 2 * i)) (elem w a (n * lane + 2 * i + 1))
      else f (elem w b (n * lane + 2 * (i - n / 2))) (elem w b (n * lane + 2 * (i - n / 2) + 1)) := by
  have hn : 0 < min W 128 / w := Nat.zero_lt_of_lt hi
  have hlane : (min W 128 / w * lane + i) / (min W 128 / w) = lane := by
    rw [Nat.mul_add_div hn, Nat.div_eq_of_lt hi, Nat.add_zero]
  have hpos : (min W 128 / w * lane + i) % (min W 128 / w) = i := by
    rw [Nat.mul_add_mod, Nat.mod_eq_of_lt hi]
  dsimp only
  rw [hpair, elem_pack _ (lane_elem_lt hl hi) (Nat.mul_div_le W w), hlane, hpos]

/-- Settles O32: the two halves of a lane, for all widths (`elem_hpair`). -/
theorem hpairLayout : Obligations.HpairLayout := by
  intro W w _ _ f a b n lane hl i hi
  have hlow : i < n := by omega
  have hhigh : n / 2 + i < n := by omega
  constructor
  · rw [elem_hpair f a b hl hlow, if_pos hi]
  · rw [Nat.add_assoc, elem_hpair f a b hl hhigh, if_neg (Nat.not_lt.2 (Nat.le_add_right ..)), Nat.add_sub_cancel_left]

/-! ## The element functions -/

/-- The wrapping difference as a number (45_phsub.md R175). -/
theorem subW_toNat (x y : BitVec w) : ((subW x y).toNat : Int) = ((x.toNat : Int) - y.toNat) % 2 ^ w := by
  have hmod : (0 : Int) ≤ ((x.toNat : Int) - y.toNat) % (2 ^ w : Nat) := Int.emod_nonneg _ (by positivity)
  rw [subW, BitVec.toNat_ofInt, Int.toNat_of_nonneg hmod, Nat.cast_pow, Nat.cast_ofNat]

end

/-- Settles O33, function by function: two wrap modulo 2^w, two are the saturation of an exact value (`satS16_toInt`). -/
theorem horizontalElementFunctions : Obligations.HorizontalElementFunctions := by
  refine ⟨fun w x y => ⟨?_, subW_toNat x y⟩, fun x y => ⟨satS16_toInt _, satS16_toInt _⟩⟩
  rw [addW_eq, BitVec.toNat_add]

/-! ## The forms -/

/-- Settles O45: the three forms are MMX forms, with the element function of each. -/
theorem phaddMmxForms : Obligations.PhaddMmxForms := by
  intro e dst src s b hr hb
  exact ⟨mmxForm_completes hr hb, mmxForm_completes hr hb, mmxForm_completes hr hb⟩

/-- Settles O46: the three forms are SSE forms, with the element function of each. -/
theorem phaddSseForms : Obligations.PhaddSseForms := by
  intro e dst src s b hr hb
  exact ⟨sseForm_completes hr hb, sseForm_completes hr hb, sseForm_completes hr hb⟩

/-- Settles O47: the three forms are VEX.128 forms, with the element function of each. -/
theorem vphaddXmmForms : Obligations.VphaddXmmForms := by
  intro e dst src1 src2 s b hr hb
  exact ⟨vex128Form_completes hr hb, vex128Form_completes hr hb, vex128Form_completes hr hb⟩

/-- Settles O48: the three forms are VEX.256 forms, with the element function of each. -/
theorem vphaddYmmForms : Obligations.VphaddYmmForms := by
  intro e dst src1 src2 s b hr hb
  exact ⟨vex256Form_completes hr hb, vex256Form_completes hr hb, vex256Form_completes hr hb⟩

end Sys2Proof.Machine
end

section
/-! The function of PHMINPOSUW: the loop over the words finds the first of the least, and the result is laid out in three
fields (spec/44_phminposuw.md R152). -/

namespace Sys2Proof.Machine

/-! ## The index of the least word -/

/-- Index `k` is the lowest of those up to `n` at which the word is least, unsigned (44_phminposuw.md R152). -/
def IsFirstMin (v : BitVec 128) (n k : Nat) : Prop :=
  k ≤ n ∧ (∀ j ≤ n, (elem 16 v k).toNat ≤ (elem 16 v j).toNat) ∧ ∀ j < k, (elem 16 v k).toNat < (elem 16 v j).toNat

/-- The loop's invariant: a new word takes the index only if it is strictly less than the least so far, and so than every
earlier word. -/
theorem minIndex_isFirstMin (v : BitVec 128) (n : Nat) : IsFirstMin v n (minIndex v n) := by
  induction n with
  | zero => simp [IsFirstMin, minIndex]
  | succ n ih =>
    obtain ⟨hle, hmin, hfirst⟩ := ih
    rw [minIndex]
    split
    · next hlt =>
      have hnew (j : Nat) (hj : j ≤ n) : (elem 16 v (n + 1)).toNat < (elem 16 v j).toNat := hlt.trans_le (hmin j hj)
      refine ⟨Nat.le_refl _, fun j hj => ?_, fun j hj => hnew j (Nat.le_of_lt_succ hj)⟩
      rcases Nat.le_succ_iff.1 hj with hj | rfl
      · exact (hnew j hj).le
      · exact Nat.le_refl _
    · next hge =>
      refine ⟨Nat.le_succ_of_le hle, fun j hj => ?_, hfirst⟩
      rcases Nat.le_succ_iff.1 hj with hj | rfl
      · exact hmin j hj
      · exact Nat.not_lt.1 hge

/-! ## The layout of the result -/

/-- From the top: 109 zero bits, the index in 3 bits, the word. -/
theorem minpos_eq_append (v : BitVec 128) :
    minpos v = (0#109 ++ BitVec.ofNat 3 (minIndex v 7)) ++ elem 16 v (minIndex v 7) := by
  have hindex : 0#109 ++ BitVec.ofNat 3 (minIndex v 7) = (BitVec.ofNat 3 (minIndex v 7)).setWidth 112 :=
    (BitVec.setWidth_eq_append (by decide)).symm
  rw [hindex, BitVec.append_def, BitVec.shiftLeftZeroExtend_eq, BitVec.setWidth'_eq, BitVec.or_comm,
    BitVec.setWidth_setWidth (by decide), minpos]

/-- Bits 15:0. -/
theorem minpos_word (v : BitVec 128) : (minpos v).extractLsb' 0 16 = elem 16 v (minIndex v 7) := by
  rw [minpos_eq_append, BitVec.extractLsb'_append_eq_right]

/-- Bits 18:16. -/
theorem minpos_index (v : BitVec 128) : (minpos v).extractLsb' 16 3 = BitVec.ofNat 3 (minIndex v 7) := by
  rw [minpos_eq_append, BitVec.extractLsb'_append_eq_of_le (by decide), BitVec.extractLsb'_append_eq_right]

/-- Bits 127:19. -/
theorem minpos_above (v : BitVec 128) : (minpos v).extractLsb' 19 109 = 0#109 := by
  rw [minpos_eq_append, BitVec.extractLsb'_append_eq_of_le (by decide), BitVec.extractLsb'_append_eq_left]

/-- Settles O34: the index is the one the loop ends with (`minIndex_isFirstMin`), and being below 8 it fits its field. -/
theorem minposIsTheFirstMinimum : Obligations.MinposIsTheFirstMinimum := by
  intro v
  obtain ⟨hle, hmin, hfirst⟩ := minIndex_isFirstMin v 7
  have hlt : minIndex v 7 < 8 := Nat.lt_succ_of_le hle
  refine ⟨minIndex v 7, hlt, fun j hj => hmin j (Nat.le_of_lt_succ hj), hfirst, minpos_word v, ?_, minpos_above v⟩
  rw [minpos_index, BitVec.toNat_ofNat, Nat.mod_eq_of_lt hlt]

end Sys2Proof.Machine
end

section
/-! The horizontal subtractions, by encoding kind: each form is `hpair` with its element function, R175 for PHSUBW and
PHSUBD, R176 for PHSUBSW (spec/45_phsub.md R161 to R173). -/

namespace Sys2Proof.Machine

/-- Settles O49: each form is the MMX form of its `hpair`, and has the completion and frame of `mmxForm_completes`. -/
theorem phsubMmxForms : Obligations.PhsubMmxForms := by
  intro e dst src s b hr hb
  refine ⟨?phsubw, ?phsubd, ?phsubsw⟩
  case phsubw => exact mmxForm_completes (g := hpair (w := 16) subW) hr hb
  case phsubd => exact mmxForm_completes (g := hpair (w := 32) subW) hr hb
  case phsubsw => exact mmxForm_completes (g := hpair subS16) hr hb

/-- Settles O50: each form is the SSE form of its `hpair`; the alignment of m128 is part of `sourceIs true`. -/
theorem phsubSseForms : Obligations.PhsubSseForms := by
  intro e dst src s b hr hb
  refine ⟨?phsubw, ?phsubd, ?phsubsw⟩
  case phsubw => exact sseForm_completes (g := hpair (w := 16) subW) hr hb
  case phsubd => exact sseForm_completes (g := hpair (w := 32) subW) hr hb
  case phsubsw => exact sseForm_completes (g := hpair subS16) hr hb

/-- Settles O51: each form is the VEX.128 form of its `hpair`, under either value of VEX_M128_ALIGN. -/
theorem vphsubXmmForms : Obligations.VphsubXmmForms := by
  intro e dst src1 src2 s b hr hb
  refine ⟨?vphsubw, ?vphsubd, ?vphsubsw⟩
  case vphsubw => exact vex128Form_completes (g := hpair (w := 16) subW) hr hb
  case vphsubd => exact vex128Form_completes (g := hpair (w := 32) subW) hr hb
  case vphsubsw => exact vex128Form_completes (g := hpair subS16) hr hb

/-- Settles O52: each form is the VEX.256 form of its `hpair`, whose lanes `elem_hpair` describes. -/
theorem vphsubYmmForms : Obligations.VphsubYmmForms := by
  intro e dst src1 src2 s b hr hb
  refine ⟨?vphsubw, ?vphsubd, ?vphsubsw⟩
  case vphsubw => exact vex256Form_completes (g := hpair (w := 16) subW) hr hb
  case vphsubd => exact vex256Form_completes (g := hpair (w := 32) subW) hr hb
  case vphsubsw => exact vex256Form_completes (g := hpair subS16) hr hb

end Sys2Proof.Machine
end

section
/-! Insertion: the bits of `insertElem`, and PINSRB, PINSRD, PINSRQ and their VEX forms (spec/46_pinsrb_pinsrd_pinsrq.md R180
to R187). -/

namespace Sys2Proof.Machine

/-! ## The bits of an insertion (46_pinsrb_pinsrd_pinsrq.md R180) -/

section
variable {W w : Nat} (v : BitVec W) (k : Nat) (t : BitVec w)

/-- Bit `j` of an insertion: of the inserted value within the element, of the old value outside it. -/
theorem getLsbD_insertElem (j : Nat) :
    (insertElem v k t).getLsbD j =
      if w * k ≤ j ∧ j < w * k + w then decide (j < W) && t.getLsbD (j - w * k) else v.getLsbD j := by
  simp only [insertElem, BitVec.getLsbD_or, BitVec.getLsbD_and, BitVec.getLsbD_not, BitVec.getLsbD_shiftLeft,
    BitVec.getLsbD_setWidth, BitVec.getLsbD_allOnes]
  rcases Nat.lt_or_ge j W with hW | hW
  · rcases Nat.lt_or_ge j (w * k) with below | hlo
    · simp [hW, below, Nat.not_le.2 below]
    · have hshift : j - w * k < W := by omega
      rcases Nat.lt_or_ge j (w * k + w) with hhi | above
      · have helem : j - w * k < w := by omega
        simp [hW, hlo, hhi, hshift, helem, Nat.not_lt.2 hlo]
      · have hnot : ¬ j - w * k < w := by omega
        have hzero : t.getLsbD (j - w * k) = false := BitVec.getLsbD_of_ge _ _ (Nat.not_lt.1 hnot)
        simp [hW, hshift, hnot, hzero, Nat.not_lt.2 above]
  · simp [Nat.not_lt.2 hW, BitVec.getLsbD_of_ge v j hW]

/-- The element is the inserted value, where it lies within the whole. -/
theorem elem_insertElem_same (h : w * k + w ≤ W) : elem w (insertElem v k t) k = t := by
  apply BitVec.eq_of_getLsbD_eq
  intro j hj
  have hin : w * k ≤ w * k + j ∧ w * k + j < w * k + w := by omega
  have hW : w * k + j < W := by omega
  rw [getLsbD_elem, getLsbD_insertElem, if_pos hin, Nat.add_sub_cancel_left]
  simp [hj, hW]

/-- Every bit outside the element is the old one. -/
theorem getLsbD_insertElem_outside {j : Nat} (h : j < w * k ∨ w * k + w ≤ j) :
    (insertElem v k t).getLsbD j = v.getLsbD j := by
  rw [getLsbD_insertElem, if_neg (by omega)]

end

/-- Settles O37: the element (`elem_insertElem_same`) and the bits outside it (`getLsbD_insertElem_outside`). -/
theorem insertReplacesOneElement : Obligations.InsertReplacesOneElement := by
  intro W w v k t h
  exact ⟨elem_insertElem_same v k t h, fun j hj => getLsbD_insertElem_outside v k t hj⟩

/-! ## The forms -/

/-- Settles O54, by the width of the form: the check, the r/m source, the write that keeps bits 255:128; PINSRQ has its
meaning in 64-bit mode (`exec_pinsrq`). -/
theorem pinsrForms : Obligations.PinsrForms := by
  intro e dst src imm s hr
  have hc : checkSse .sse41 false e s = .ok () := checkSse_eq_ok.2 ⟨rfl, hr⟩
  simp only [← sel_two_pow]
  refine ⟨fun t hb => ?pinsrb, fun t hb => ?pinsrd, fun t h64 hb => ?pinsrq⟩
  case pinsrb => exact completes_of_load (by decide) hc hb (writesXmmKeep_set ..)
  case pinsrd => exact completes_of_load (by decide) hc hb (writesXmmKeep_set ..)
  case pinsrq =>
    rw [exec_pinsrq h64]
    exact completes_of_load (by decide) hc hb (writesXmmKeep_set ..)

/-- Settles O55, as O54 with the write that zeroes bits 255:128: VPINSRB ignores VEX.W in 64-bit mode alone, VPINSRQ has
#UD outside 64-bit mode among its checks. -/
theorem vpinsrForms : Obligations.VpinsrForms := by
  intro e dst src1 src2 imm s hr hl
  simp only [← sel_two_pow]
  refine ⟨fun t hw hb => ?vpinsrb, fun t hb => ?vpinsrd, fun t h64 hb => ?vpinsrq⟩
  case vpinsrb => exact completes_of_load (by decide) (checkVex_eq_ok.2 ⟨hl, fun _ => hw, hr⟩) hb (writesXmmZero_set ..)
  case vpinsrd => exact completes_of_load (by decide) (checkVex_eq_ok.2 ⟨hl, nofun, hr⟩) hb (writesXmmZero_set ..)
  case vpinsrq =>
    have hud : (e.l || !s.env.mode64) = false := by simp [hl, h64]
    exact completes_of_load (by decide) (checkVex_eq_ok.2 ⟨hud, nofun, hr⟩) hb (writesXmmZero_set ..)

end Sys2Proof.Machine
end

section
/-! PMADDUBSW as a function of two packed values (spec/48_pmaddubsw.md R200). -/

namespace Sys2Proof.Machine

/-- Word `i` of the packed result is the saturated sum that R200 gives it, at every operand width. -/
theorem elem_maddubs {W i : Nat} (a b : BitVec W) (hi : i < W / 16) :
    elem 16 (maddubs a b) i = maddubsWord a b i :=
  elem_pack (maddubsWord a b) hi (Nat.mul_div_le W 16)

/-- Settles O35: the word is the saturation of an exact sum (`elem_maddubs`), which clamps it (`satS16_toInt`). -/
theorem maddubsWords : Obligations.MaddubsWords := by
  intro W _ a b i hi
  rw [elem_maddubs a b hi]
  exact satS16_toInt _

end Sys2Proof.Machine
end

section
/-! PMADDWD as a function of two packed values (spec/49_pmaddwd.md R210). -/

namespace Sys2Proof.Machine

/-- Dword `i` of the packed result is the wrapped sum that R210 gives it, at every operand width. -/
theorem elem_maddwd {W i : Nat} (a b : BitVec W) (hi : i < W / 32) :
    elem 32 (maddwd a b) i = maddwdDword a b i :=
  elem_pack (maddwdDword a b) hi (Nat.mul_div_le W 32)

/-- A signed word lies in [-32768, 32767], and only 8000H is at its lower end. -/
theorem word_toInt_bounds (x : BitVec 16) :
    -32768 ≤ x.toInt ∧ x.toInt ≤ 32767 ∧ (x.toInt = -32768 ↔ x = 0x8000#16) :=
  ⟨BitVec.le_toInt x, Int.le_of_lt_add_one (BitVec.toInt_lt (x := x)),
    ⟨fun h => BitVec.eq_of_toInt_eq (by rw [h]; decide), fun h => by rw [h]; decide⟩⟩

/-- Twice the product of two signed words lies within 2^31 of zero, and it falls short of 2^31 at least by the distances of
both factors from -32768: so it reaches 2^31 for 8000H times 8000H alone. -/
theorem word_product_bounds {x y : Int} (hx : -32768 ≤ x ∧ x ≤ 32767) (hy : -32768 ≤ y ∧ y ≤ 32767) :
    -2 ^ 31 ≤ 2 * (x * y) ∧ 2 * (x * y) ≤ 2 ^ 31 - (x + 32768) - (y + 32768) := by
  obtain ⟨hx0, hx1⟩ := hx
  obtain ⟨hy0, hy1⟩ := hy
  constructor
  · have hlow : 0 ≤ (x + 32768) * (y + 32768) := mul_nonneg (by omega) (by omega)
    have hhigh : 0 ≤ (32767 - x) * (32767 - y) := mul_nonneg (by omega) (by omega)
    linarith
  · have hleft : 0 ≤ (32767 - x) * (y + 32768) := mul_nonneg (by omega) (by omega)
    have hright : 0 ≤ (x + 32768) * (32767 - y) := mul_nonneg (by omega) (by omega)
    linarith

/-- A dword of 32 signed bits holds such a number exactly. -/
theorem toInt_ofInt_32 {z : Int} (hlow : -2 ^ 31 ≤ z) (hhigh : z < 2 ^ 31) : (BitVec.ofInt 32 z).toInt = z := by
  rw [BitVec.toInt_ofInt, Int.bmod_eq_of_le] <;> omega

/-- Settles O36: the sum of the two products lies in [-2^31, 2^31], and is 2^31, which wraps, only where all four words are
8000H (`word_product_bounds`). -/
theorem maddwdDwords : Obligations.MaddwdDwords := by
  intro W _ a b i hi
  rw [elem_maddwd a b hi, maddwdDword]
  split
  · next hall =>
    obtain ⟨ha0, hb0, ha1, hb1⟩ := hall
    rw [ha0, hb0, ha1, hb1]
    decide
  · next hnot =>
    obtain ⟨a0_low, a0_high, a0_min⟩ := word_toInt_bounds (elem 16 a (2 * i))
    obtain ⟨b0_low, b0_high, b0_min⟩ := word_toInt_bounds (elem 16 b (2 * i))
    obtain ⟨a1_low, a1_high, a1_min⟩ := word_toInt_bounds (elem 16 a (2 * i + 1))
    obtain ⟨b1_low, b1_high, b1_min⟩ := word_toInt_bounds (elem 16 b (2 * i + 1))
    have ⟨low0, high0⟩ := word_product_bounds ⟨a0_low, a0_high⟩ ⟨b0_low, b0_high⟩
    have ⟨low1, high1⟩ := word_product_bounds ⟨a1_low, a1_high⟩ ⟨b1_low, b1_high⟩
    rw [← a0_min, ← b0_min, ← a1_min, ← b1_min] at hnot
    exact toInt_ofInt_32 (by omega) (by omega)

end Sys2Proof.Machine
end

section
/-! Alignment checking, CPL, and the launch state (spec/60_exceptions.md R232, R243; spec/70_reset_and_hazards.md R260). -/

namespace Sys2Proof.Machine

/-- Settles O24: the model's condition, with divisibility as a remainder. -/
theorem alignmentCheckCondition : Obligations.AlignmentCheckCondition := by
  intro s lin n
  simp only [State.misaligned, cr0AM, rflagsAC, Bool.and_eq_true, Bool.or_eq_true, beq_iff_eq, bne_iff_ne, and_assoc,
    or_assoc, Nat.dvd_iff_mod_eq_zero, ne_eq]

/-- Without CR0.AM no operand is misaligned for #AC (60_exceptions.md R232). -/
theorem misaligned_of_cr0AM_false {s : State} (h : cr0AM s = false) (lin : Word) (n : Nat) :
    s.misaligned lin n = false := by
  simp [State.misaligned, h]

/-- Without a rule translation is the identity, at every CPL (20_memory.md R40). -/
theorem transRule_of_no_rules {s : State} (h : s.env.trans = []) (k : Access) (a : Word) : s.transRule k a = none := by
  simp [State.transRule, h]

/-- The change of CPL alone. -/
def SystemChange.setCpl (c : BitVec 2) : SystemChange := ⟨id, id, fun _ => c⟩

/-- CPL is read by alignment checking and by the rules of translation alone. -/
theorem SystemChange.setCpl_unseen {s : State} (ham : cr0AM s = false) (htrans : s.env.trans = []) (c : BitVec 2) :
    (setCpl c).Unseen s where
  misaligned lin n := by
    rw [misaligned_of_cr0AM_false ham, misaligned_of_cr0AM_false (s := (setCpl c).on s) ham]
  transRule k a := by
    rw [transRule_of_no_rules htrans, transRule_of_no_rules (s := (setCpl c).on s) htrans]

/-- Settles O16: what neither alignment checking nor translation sees passes through every form (`exec_on`). -/
theorem cplMattersOnlyThroughChecks : Obligations.CplMattersOnlyThroughChecks :=
  fun i _ c ham htrans => exec_on (SystemChange.setCpl_unseen ham htrans c) i

/-- Settles O5: the parameters of `Env.reset`, read by the accessors; no rule of translation and no byte of memory. -/
theorem resetHasLaunchDefaults : Obligations.ResetHasLaunchDefaults := by
  have hseg : ∀ g, State.reset.seg g = ⟨0#64, .flat⟩ := by
    intro g
    cases g <;> rfl
  exact ⟨by decide, by decide, by decide, by decide, by decide, by decide, by decide, rfl, by decide, hseg,
    fun _ _ => rfl, rfl, rfl, fun _ => ⟨rfl, rfl⟩⟩

end Sys2Proof.Machine
end

section
/-! When #NM and #MF are raised, and what every exception of a step carries (spec/60_exceptions.md R220, R228, R229, R231,
R240). -/

namespace Sys2Proof.Machine

variable {i : Instr} {s : State} {o : FaultOutcome} {x : Exn}

/-! ## #NM and #MF (60_exceptions.md R228, R229, R235) -/

/-- An exception that no memory operand raises is one of the checks before the operand. -/
theorem raises_iff_preChecks (hwf : i.wf s.env.mode64 = true) (hx : x.vector ∉ [12, 13, 14, 17]) :
    raises (exec i s) x s ↔ preChecks i s = raise x s :=
  ⟨fun h => (exec_exception h).resolve_right hx, fun h => exec_of_preChecks_error hwf h⟩

section

variable (hud : udCond i s = false) (hw : vexWOpen i s = false)
include hud hw

/-- The checks that are left after #UD and the open VEX.W case. -/
theorem preChecks_after_ud :
    preChecks i s = if nmCond i s then raise .nm s else if mfCond i s then raise .mf s else .ok () := by
  simp [preChecks, hud, hw]

theorem preChecks_eq_nm : preChecks i s = raise .nm s ↔ nmCond i s = true := by
  rw [preChecks_after_ud hud hw]
  split
  · next hnm => exact iff_of_true rfl hnm
  next hnm =>
  split <;> exact iff_of_false nofun hnm

theorem preChecks_eq_mf : preChecks i s = raise .mf s ↔ ¬ nmCond i s = true ∧ mfCond i s = true := by
  rw [preChecks_after_ud hud hw]
  split
  · next hnm => exact iff_of_false nofun fun h => h.1 hnm
  next hnm =>
  split
  · next hmf => exact iff_of_true rfl ⟨hnm, hmf⟩
  · next hmf => exact iff_of_false nofun fun h => hmf h.2

end

theorem nmCond_iff : nmCond i s = true ↔ i.row.kind ≠ .pext ∧ cr0TS s = true := by
  simp [nmCond]

theorem mfCond_iff : mfCond i s = true ↔ i.row.kind = .mmx ∧ s.env.x87Pending = true := by
  simp [mfCond]

/-- Settles O21: neither is an exception of an operand (`raises_iff_preChecks`), and the checks make #NM and #MF in this
order. -/
theorem nmAndMfRaisedExactly : Obligations.NmAndMfRaisedExactly := by
  intro i s hwf hud hw
  rw [raises_iff_preChecks hwf (by decide), raises_iff_preChecks hwf (by decide), preChecks_eq_nm hud hw,
    preChecks_eq_mf hud hw, nmCond_iff, mfCond_iff]
  exact ⟨Iff.rfl, Iff.rfl⟩

/-! ## Every exception is raised in the state before the step (60_exceptions.md R240, R242) -/

/-- Every exception that a part of a step ends in is one of `Exn`, raised in `s`. -/
def RaisesIn {α : Type} (s : State) (r : Res α) : Prop :=
  ∀ o, r = .error (.fault (.exception o)) → ∃ x, o = faultOutcome x s

namespace RaisesIn

variable {α β : Type}

theorem raise (x : Exn) : RaisesIn s (raise x s : Res α) := by
  rintro o ⟨⟩
  exact ⟨x, rfl⟩

theorem of_noException {r : Res α} (h : NoException r) : RaisesIn s r :=
  fun o ho => absurd ho (h o)

theorem ok (a : α) : RaisesIn s (.ok a : Res α) := of_noException nofun

theorem refuse (r : Refusal) : RaisesIn s (refuse r : Res α) := of_noException nofun

theorem bind {r : Res α} {f : α → Res β} (hr : RaisesIn s r) (hf : ∀ a, RaisesIn s (f a)) : RaisesIn s (r >>= f) := by
  cases r with
  | ok a => exact hf a
  | error e =>
    rintro o ⟨⟩
    exact hr o rfl

/-- A check, whichever way it goes. -/
theorem ite {c : Prop} [Decidable c] {r r' : Res α} (hr : RaisesIn s r) (hr' : RaisesIn s r') :
    RaisesIn s (if c then r else r') := by
  split
  · exact hr
  · exact hr'

/-! An instruction (60_exceptions.md R235). -/

theorem preChecks (i : Instr) (s : State) : RaisesIn s (preChecks i s) :=
  .ite (raise .ud) <| .ite (refuse _) <| .ite (raise .nm) <| .ite (raise .mf) <| ok ()

theorem operandAddrs (g : Seg) (off : Word) (n : Nat) (k : Access) (al : Bool) :
    RaisesIn s (s.operandAddrs g off n k al) := by
  refine .ite (raise _) <| .ite (raise .gp) ?_
  split
  · exact ok _
  · exact raise .ac
  · exact raise _
  · exact .ite (raise .ac) (raise _)

theorem memRead (w : Nat) (al : Bool) (g : Seg) (off : Word) : RaisesIn s (s.memRead w al g off) :=
  (operandAddrs g off _ .read al).bind fun as => (of_noException (readBytes_noException s as)).bind fun _ => ok _

theorem memWrite {w : Nat} (g : Seg) (off : Word) (v : BitVec w) : RaisesIn s (s.memWrite g off v) :=
  (operandAddrs g off _ .write false).bind fun as => of_noException (writeBytes_noException s as _)

/-! The fetch (10_state.md R13; 60_exceptions.md R230, R231, R235). -/

theorem fetchLinear (j : Nat) : RaisesIn s (s.fetchLinear j) := by
  refine .ite (.ite (ok _) (raise .gp)) ?_
  dsimp only
  split
  · exact .ite (refuse _) (ok _)
  · exact .ite (ok _) (raise .gp)

theorem fetchByte (j : Nat) : RaisesIn s (s.fetchByte j) := by
  refine (fetchLinear j).bind fun a => ?_
  split
  · exact raise _
  · exact (of_noException (readBytes_noException s _)).bind fun _ => ok _

/-- The stop that a fetch of several bytes keeps is that of one of them. -/
theorem fetchFrom {n j : Nat} {e : Stop} (he : (s.fetchFrom n j).2 = some e) : RaisesIn s (.error e : Res Instr) := by
  rcases fetchFrom_stop s n j with ⟨-, hnone⟩ | ⟨-, e', hstop, hbyte⟩
  · rw [hnone] at he
    cases he
  · obtain rfl : e' = e := Option.some.inj (hstop.symm.trans he)
    rintro o ⟨⟩
    exact fetchByte _ o hbyte

theorem fetchInstr : RaisesIn s s.fetchInstr := by
  refine .ite (of_noException nofun) ?_
  dsimp only
  split
  · exact ok _
  · split
    · next e he => exact fetchFrom he
    · exact raise .gp
  · exact raise .ud
  · exact refuse _

end RaisesIn

/-- The checks of an instruction and its one memory access raise their exceptions in the state before it. -/
theorem exec_raisesIn (h : exec i s = .fault (.exception o)) : ∃ x, o = faultOutcome x s := by
  have hc := RaisesIn.preChecks i s
  cases exec_shape i s with
  | refused _ he => rw [he] at h; cases h
  | plain t _ _ he => exact hc.bind (fun _ => .ok t) o (finish_eq_exception (he ▸ h))
  | load m w f _ _ _ _ he =>
    exact hc.bind (fun _ => (RaisesIn.memRead _ _ _ _).bind fun b => .ok (f b)) o (finish_eq_exception (he ▸ h))
  | store m w v _ _ _ he => exact hc.bind (fun _ => .memWrite _ _ _) o (finish_eq_exception (he ▸ h))

/-- So does the fetch, and then the step. -/
theorem step_raisesIn (h : step s = .fault (.exception o)) : ∃ x, o = faultOutcome x s := by
  cases hf : s.fetchInstr with
  | ok i => exact exec_raisesIn (step_of_fetchInstr_ok hf ▸ h)
  | error e =>
    rw [step_of_fetchInstr_error hf] at h
    cases e with
    | refused r => cases h
    | fault f =>
      cases h
      exact RaisesIn.fetchInstr o hf

/-- Settles O25: the step raises one of `Exn` in the state before it (`step_raisesIn`), and each has its row in the table of
R220. -/
theorem faultOutcomeOfEveryStep : Obligations.FaultOutcomeOfEveryStep := by
  intro s o h
  obtain ⟨x, rfl⟩ := step_raisesIn h
  refine ⟨rfl, ?_⟩
  cases x with
  | ud | nm | mf => exact .inl ⟨by simp [faultOutcome, Exn.vector], rfl, rfl⟩
  | ss | gp | ac => exact .inr (.inl ⟨by simp [faultOutcome, Exn.vector], rfl, rfl⟩)
  | pf code a => exact .inr (.inr ⟨rfl, rfl, rfl⟩)

end Sys2Proof.Machine
end
